-- ==== Sys2Proof/Word.lean ====
section
/-! DEFINITION. The word types of the SoundWave spectral core: the 32-bit bus word, the 18-bit host
byte address, and the 64-bit encoding of a binary64 value (spec 00_scope R9, R11, R13). -/

namespace Sys2Proof

/-- One byte of a memory word. -/
abbrev Byte := BitVec 8

/-- A 32-bit word of the host data bus (`DATA_W`, R9). -/
abbrev Word := BitVec 32

/-- An 18-bit host byte address (`ADDR_W`, R9, R57). -/
abbrev Addr := BitVec 18

/-- The 64-bit encoding of an IEEE 754 binary64 value (R13). -/
abbrev F64 := BitVec 64

end Sys2Proof
end

