-- ==== Sys2Proof/Syntax.lean ====
section
/-! DEFINITION. The commands of the block, one constructor per row of the opcode table
(spec 30_encoding R79). -/

namespace Sys2Proof

/-- A command. Only `CFG` and `STAGE` have an operand, the 24-bit unsigned integer `ARG` (R78). -/
inductive Instr where
  /-- `NOP` (43_sequencing R117). -/
  | nop
  /-- `CFG n`: configure the transform length (40_transform R89). -/
  | cfg (n : Nat)
  /-- `ZIM`: zero the imaginary channel (R90). -/
  | zim
  /-- `BLKW`: apply the Blackman window (R91). -/
  | blkw
  /-- `BITREV`: bit-reversal permutation (R92). -/
  | bitrev
  /-- `STAGE s`: one butterfly stage (R95). -/
  | stage (st : Nat)
  /-- `FFT`: the whole transform (R96). -/
  | fft
  /-- `MAG`: the magnitude spectrum (41_magnitude R99). -/
  | mag
  /-- `EXTRACT`: copy the carrier bin window (R102). -/
  | extract
  /-- `ANALYZE`: analyse the carrier bin window (42_band_analyzer R113). -/
  | analyze
  /-- `NEWSES`: start a new session (R115). -/
  | newses
  /-- `PIPE`: one frame through the whole core (43_sequencing R118). -/
  | pipe
deriving DecidableEq, Repr

/-- The opcode of each command (R79). -/
def Instr.opcode : Instr → BitVec 8
  | .nop => 0x00
  | .cfg _ => 0x01
  | .zim => 0x02
  | .blkw => 0x03
  | .bitrev => 0x04
  | .stage _ => 0x05
  | .fft => 0x06
  | .mag => 0x07
  | .extract => 0x08
  | .analyze => 0x09
  | .newses => 0x0A
  | .pipe => 0x0B

/-- The argument of each command; commands without an operand have 0 (R78). -/
def Instr.arg : Instr → Nat
  | .cfg n => n
  | .stage st => st
  | .nop | .zim | .blkw | .bitrev | .fft | .mag | .extract | .analyze | .newses | .pipe => 0

end Sys2Proof
end

