-- ==== Sys2Proof/WellFormed.lean ====
section
/-! DEFINITION. Which commands can be written as a command word: the operand of `CFG` and of `STAGE`
is in 0..16777215 (spec 30_encoding R78, R84). -/

namespace Sys2Proof

/-- The operand fits the 24-bit `ARG` field (R78; R84: an assembler refuses an operand outside
0..16777215). -/
def Instr.wellFormed : Instr → Bool
  | .cfg n => decide (n < 2 ^ 24)
  | .stage st => decide (st < 2 ^ 24)
  | .nop | .zim | .blkw | .bitrev | .fft | .mag | .extract | .analyze | .newses | .pipe => true

end Sys2Proof
end

