-- ==== Sys2Proof/Decode.lean ====
section
/-! DEFINITION. Decoding a command word, total on every 32-bit word and rejecting by name, and the
encoder (spec 30_encoding R77 to R81, R84). The bus moves whole words only (20_memory R62), so the
unit of decoding is the word: no byte order inside it is visible (R61). -/

namespace Sys2Proof

/-- Why a word is illegal (R81). -/
inductive Reject where
  /-- `OP` is 0x0C to 0xFF (R80). -/
  | reservedOpcode
  /-- A non-zero `ARG` on a command without an operand (R78). -/
  | reservedArgument
deriving DecidableEq, Repr

/-- `OP`, bits [31:24] (R77). -/
def opField (w : Word) : BitVec 8 := w.extractLsb' 24 8

/-- `ARG`, bits [23:0] (R77). -/
def argField (w : Word) : BitVec 24 := w.extractLsb' 0 24

/-- A command whose `ARG` must be 0 (R78, R81). -/
def withoutArg (i : Instr) (w : Word) : Except Reject Instr :=
  if argField w = 0 then .ok i else .error .reservedArgument

/-- The command a word stands for, or the reason it is illegal (R79, R80, R81). -/
def decode (w : Word) : Except Reject Instr :=
  match (opField w).toNat with
  | 0x00 => withoutArg .nop w
  | 0x01 => .ok (.cfg (argField w).toNat)
  | 0x02 => withoutArg .zim w
  | 0x03 => withoutArg .blkw w
  | 0x04 => withoutArg .bitrev w
  | 0x05 => .ok (.stage (argField w).toNat)
  | 0x06 => withoutArg .fft w
  | 0x07 => withoutArg .mag w
  | 0x08 => withoutArg .extract w
  | 0x09 => withoutArg .analyze w
  | 0x0A => withoutArg .newses w
  | 0x0B => withoutArg .pipe w
  | _ => .error .reservedOpcode

/-- The word of a command: `(OP << 24) | ARG` (R84). -/
def encode (i : Instr) : Word := i.opcode ++ BitVec.ofNat 24 i.arg

/-- The command the decoder reads from an instruction of the opcode table whose bits are `w`; a
command is one 32-bit word, so a longer pattern is none (R77). -/
def decodeTableWord (nbits w : Nat) : Option Instr :=
  if w % 2 ^ nbits < 2 ^ 32 then
    match decode (BitVec.ofNat 32 (w % 2 ^ nbits)) with
    | .ok i => some i
    | .error _ => none
  else none

end Sys2Proof
end

