-- ==== Sys2Proof/Config.lean ====
section
/-! DEFINITION. The fixed parameters of the hardware (spec 00_scope R9) and the base addresses of the
array windows (20_memory R58). -/

namespace Sys2Proof.Config

/-- `N_MAX`: the largest transform length (R9). -/
def nMax : Nat := 2048

/-- `HALF_MAX` = `N_MAX / 2` (R9). -/
def halfMax : Nat := 1024

/-- `W`: the window width in bins (R9). -/
def winLen : Nat := 67

/-- `C`: the index of the carrier bin inside the window (R9). -/
def winCenter : Nat := 33

/-- `BASE_L0`: the calibration value of `bandLeftBase` (R9, R109). -/
def baseL0 : Word := 4

/-- `BASE_R0`: the calibration value of `bandRightBase` (R9, R109). -/
def baseR0 : Word := 5

/-- `K_THR`: the binary64 value nearest 0.1 (R9, R14). -/
def kThr : F64 := 0x3FB999999999999A

/-- `K_PTHR`: the binary64 value nearest 0.3 (R9, R14). -/
def kPthr : F64 := 0x3FD3333333333333

/-- `F_CARRIER`: the carrier frequency in Hz (R9). -/
def fCarrier : Int := 18500

/-- `F_HALF`: half the sample rate in Hz (R9). -/
def fHalf : Int := 22050

/-- `HALF_LEN`: the half-spectrum length of the bin stride (R9). -/
def halfLen : Int := 1024

/-- `CARRIER_BIN_RESET` (R9, R31). -/
def carrierBinReset : BitVec 10 := 859

/-- `ID_VALUE` (R9, R21). -/
def idValue : Word := 0x53570001

/-- First byte address of RE (20_memory R58). -/
def reBase : Nat := 0x10000

/-- First byte address of IM (R58). -/
def imBase : Nat := 0x14000

/-- First byte address of MAG (R58). -/
def magBase : Nat := 0x18000

/-- First byte address of WIN (R58). -/
def winBase : Nat := 0x1A000

/-- First byte address of TWC (R58). -/
def twcBase : Nat := 0x1C000

/-- First byte address of TWS (R58). -/
def twsBase : Nat := 0x1E000

/-- First byte address of BLK (R58). -/
def blkBase : Nat := 0x20000

end Sys2Proof.Config
end

