-- ==== Sys2Proof/Machine/State.lean ====
section
/-! DEFINITION. The state of the block: the registers of the register page, the data memory, the
pending-command latch (spec 10_state), and the host's side of the bus (00_scope R8), all plain data;
the fault and refusal reasons; the state after reset (10_state R56). -/

namespace Sys2Proof.Machine

/-- The data memory: the bytes written so far, as (host byte address, byte) pairs with strictly
rising addresses. An unlisted address is unwritten and has no value (10_state R51). -/
abbrev Memory := List Host.Cell

/-- The direction field `RESULT.DIR` (10_state R34; 42_band_analyzer R110). -/
inductive Direction where
  | none
  | pull
  | push
deriving DecidableEq, Repr

/-- The frequency rule recorded in `RESULT.RULE` (10_state R34; 42_band_analyzer R111). -/
inductive FreqRule where
  | a
  | b
  | c
  | d
  | e
deriving DecidableEq, Repr

/-- The result registers written by `ANALYZE` and `PIPE` (10_state R34 to R42). -/
structure Results where
  /-- `RESULT.VALID` (R34). -/
  valid : Bool
  /-- `RESULT.RULE` (R34). -/
  rule : FreqRule
  /-- `RESULT.DIR` (R34). -/
  dir : Direction
  /-- `FREQ` (R35). -/
  freq : Word
  /-- `FREQ_Q10` (R36). -/
  freqQ10 : Word
  /-- `LBAND` (R37). -/
  lband : Word
  /-- `RBAND` (R37). -/
  rband : Word
  /-- `LPTR`, signed (R38). -/
  lptr : Word
  /-- `RPTR`, signed (R38). -/
  rptr : Word
  /-- `PEAKS.LPEAK` (R39). -/
  lpeak : Bool
  /-- `PEAKS.RPEAK` (R39). -/
  rpeak : Bool
  /-- `LSTART`, signed (R40). -/
  lstart : Word
  /-- `LEND`, signed (R40). -/
  lend : Word
  /-- `RSTART`, signed (R40). -/
  rstart : Word
  /-- `REND`, signed (R40). -/
  rend : Word
  /-- `EST_BIN` (R41). -/
  estBin : Word
  /-- `PEAK_HI`, `PEAK_LO` (R42). -/
  peak : F64
  /-- `THR_HI`, `THR_LO` (R42). -/
  thr : F64
  /-- `PTHR_HI`, `PTHR_LO` (R42). -/
  pthr : F64
deriving DecidableEq, Repr

/-- The contents of one table ROM: the spec's default, or the values an implementation lists, one
list for each accepted length 2, 4, 8, …, 2048 (00_scope R9; 92 D5, D6). -/
inductive Rom where
  | default
  | listed (tables : List (List F64))
deriving DecidableEq, Repr

/-- The parameters `TWIDDLE_ROM` (cosines and sines) and `BLACKMAN_ROM` of the block (R9). -/
structure Roms where
  cos : Rom
  sin : Rom
  blackman : Rom
deriving DecidableEq, Repr

/-- One operation of the host (30_encoding R85; 70_reset_and_hazards R143). -/
inductive HostOp where
  /-- `WR a, v`: `MemWrite(a, 4, v)`. -/
  | wr (a : Addr) (v : Word)
  /-- `RD a -> name`: `MemRead(a, 4)`, its value kept in `State.reads`. -/
  | rd (a : Addr)
  /-- `POLL a, m, v`: read `a` until the value masked by `m` is `v`. -/
  | poll (a : Addr) (m v : Word)
  /-- The reset input is asserted (R143). -/
  | reset
deriving DecidableEq, Repr

/-- The two agents (00_scope R8). -/
inductive Agent where
  | host
  | engine
deriving DecidableEq, Repr

/-- The machine. Every register of 10_state, the data memory, and the host's side of the bus. -/
structure State where
  /-- `STATUS.BUSY` (R23). -/
  busy : Bool
  /-- `STATUS.CFG_VALID` (R23). -/
  cfgValid : Bool
  /-- `STATUS.BASE_INIT` (R23, R53). -/
  baseInit : Bool
  /-- `EVENTS.DONE` (R24). -/
  done : Bool
  /-- `IRQ_EN.DONE_IE` (R25). -/
  doneIe : Bool
  /-- `IRQ_EN.ERR_IE` (R25). -/
  errIe : Bool
  /-- `ERR[6:0]` (R26). -/
  err : BitVec 7
  /-- `ERR_CAUSE[3:0]` (R27). -/
  errCause : BitVec 4
  /-- `ERR_INFO` (R28). -/
  errInfo : Word
  /-- `N[12:0]` (R29). -/
  n : BitVec 13
  /-- `LOG2N[3:0]` (R30). -/
  log2n : BitVec 4
  /-- `CARRIER_BIN[9:0]` (R31). -/
  carrierBin : BitVec 10
  /-- `BASE_LEFT` (R32). -/
  baseLeft : Word
  /-- `BASE_RIGHT` (R33). -/
  baseRight : Word
  /-- The result registers (R34 to R42). -/
  results : Results
  /-- `PENDING`, the pending-command latch (R52). -/
  pending : Word
  /-- RE, IM, MAG and WIN with their written flags (R44 to R47, R51). -/
  mem : Memory
  /-- `TWIDDLE_ROM` and `BLACKMAN_ROM` of this block: parameters that no step changes (R9; 93 U6,
  U7; log 7, log 8). -/
  roms : Roms
  /-- DESIGN CHOICE (log 1): the host's operations still to be made, first one first. -/
  program : List HostOp
  /-- DESIGN CHOICE (log 2): which agent moves in each coming step of a busy window. -/
  turns : List Agent
  /-- DESIGN CHOICE (log 3): the values the host's reads have returned, newest first. -/
  reads : List Word
deriving DecidableEq, Repr

/-- Why the model stops. -/
inductive Fault where
  /-- UNINIT (10_state R51): raised by a host read of an unwritten word and by a command that reads
  an element either of whose words is unwritten. Safe: the hardware goes on with a value the spec
  does not give, so nothing is claimed of such a run. -/
  | uninit
deriving DecidableEq, Repr

/-- Why an instruction has no meaning. -/
inductive Refusal where
  /-- An instruction of the opcode table that the model gives no meaning. Raised by no arm of this
  model. Safe. -/
  | notModelled (mnemonic : String)
deriving DecidableEq, Repr

/-- The result registers after reset (R34 to R42, R56). -/
def Results.reset : Results where
  valid := false
  rule := .a
  dir := .none
  freq := 0
  freqQ10 := 0
  lband := 0
  rband := 0
  lptr := 0
  rptr := 0
  lpeak := false
  rpeak := false
  lstart := 0
  lend := 0
  rstart := 0
  rend := 0
  estBin := 0
  peak := 0
  thr := 0
  pthr := 0

/-- The default contents of every ROM (92 D5, D6). -/
def Roms.default : Roms := ⟨.default, .default, .default⟩

/-- The machine after reset (R56): all zero but `CARRIER_BIN`, memory unwritten, the ROMs at the
spec's default. `PENDING` is unspecified there and never read while not busy: DESIGN CHOICE 0
(log 4). -/
def State.reset : State where
  busy := false
  cfgValid := false
  baseInit := false
  done := false
  doneIe := false
  errIe := false
  err := 0
  errCause := 0
  errInfo := 0
  n := 0
  log2n := 0
  carrierBin := Config.carrierBinReset
  baseLeft := 0
  baseRight := 0
  results := Results.reset
  pending := 0
  mem := []
  roms := Roms.default
  program := []
  turns := []
  reads := []

end Sys2Proof.Machine
end

