-- ==== Sys2Proof/Machine/Memory.lean ====
section
/-! DEFINITION. Reads and writes of the data memory: bytes, the 32-bit words of the host bus, the
binary64 elements of an array (low word at the lower address, spec 20_memory R61), and runs of
elements. The order of the bytes inside a word is not visible on the bus (R61); the model lists the
low byte first: DESIGN CHOICE (log 6). -/

namespace Sys2Proof.Machine.Memory

/-- The byte listed at an address; none where nothing has been written (10_state R51). -/
def getByte : Memory → Nat → Option Byte
  | [], _ => none
  | (k, b) :: rest, a => if k = a then some b else getByte rest a

/-- The memory with byte `b` at address `a`; addresses stay strictly rising. -/
def setByte : Memory → Nat → Byte → Memory
  | [], a, b => [(a, b)]
  | (k, c) :: rest, a, b =>
    if a < k then (a, b) :: (k, c) :: rest
    else if a = k then (a, b) :: rest
    else (k, c) :: setByte rest a b

/-- The canonical form: addresses strictly rising. An unlisted address has no value, so no entry can
equal what an unlisted address reads as. -/
def wf : Memory → Bool
  | [] => true
  | [_] => true
  | (a, _) :: (b, c) :: rest => decide (a < b) && wf ((b, c) :: rest)

/-- The word whose lowest byte address is `a`; none if it is unwritten. -/
def readWord (m : Memory) (a : Nat) : Option Word :=
  match getByte m a, getByte m (a + 1), getByte m (a + 2), getByte m (a + 3) with
  | some b0, some b1, some b2, some b3 => some (b3 ++ b2 ++ b1 ++ b0)
  | _, _, _, _ => none

/-- The memory with word `v` at byte address `a`. -/
def writeWord (m : Memory) (a : Nat) (v : Word) : Memory :=
  setByte
    (setByte
      (setByte (setByte m a (v.extractLsb' 0 8)) (a + 1) (v.extractLsb' 8 8))
      (a + 2) (v.extractLsb' 16 8))
    (a + 3) (v.extractLsb' 24 8)

/-- The low word of an element, encoding bits [31:0] (R61). -/
def lowWord (x : F64) : Word := x.extractLsb' 0 32

/-- The high word of an element, encoding bits [63:32] (R61). -/
def highWord (x : F64) : Word := x.extractLsb' 32 32

/-- Element `i` of the array at `base` (20_memory R60, R61); none if either of its words is
unwritten (10_state R51). -/
def readElem (m : Memory) (base i : Nat) : Option F64 :=
  match readWord m (base + 8 * i), readWord m (base + 8 * i + 4) with
  | some lo, some hi => some (hi ++ lo)
  | _, _ => none

/-- The memory with element `i` of the array at `base` equal to `x`; both words become written. -/
def writeElem (m : Memory) (base i : Nat) (x : F64) : Memory :=
  writeWord (writeWord m (base + 8 * i) (lowWord x)) (base + 8 * i + 4) (highWord x)

/-- Elements `i` to `i + len - 1` of the array at `base`; none if any of their words is unwritten. -/
def readElems (m : Memory) (base : Nat) : (i len : Nat) → Option (List F64)
  | _, 0 => some []
  | i, len + 1 =>
    match readElem m base i, readElems m base (i + 1) len with
    | some x, some xs => some (x :: xs)
    | _, _ => none

/-- The memory with the listed values at elements `i`, `i + 1`, … of the array at `base`. -/
def writeElems (m : Memory) (base : Nat) : (i : Nat) → List F64 → Memory
  | _, [] => m
  | i, x :: xs => writeElems (writeElem m base i x) base (i + 1) xs

end Sys2Proof.Machine.Memory
end

