-- ==== Sys2Proof/Machine/Flags.lean ====
section
/-! DEFINITION. The error causes with their codes and `ERR` bits (spec 60_exceptions R122), the
derived flags (`STATUS.ERR_ANY`, the interrupt output, R135), and the words the packed registers
read as (10_state R23 to R42). -/

namespace Sys2Proof.Machine

/-- The error causes (60_exceptions R122). -/
inductive Cause where
  | cfg
  | nocfg
  | illegal
  | range
  | busy
  | hazard
  | bus
deriving DecidableEq, Repr

/-- The code recorded in `ERR_CAUSE` (R122). -/
def Cause.code : Cause → BitVec 4
  | .cfg => 1
  | .nocfg => 2
  | .illegal => 3
  | .range => 4
  | .busy => 5
  | .hazard => 6
  | .bus => 7

/-- The mask of the cause's bit in `ERR` (R122). -/
def Cause.mask : Cause → BitVec 7
  | .cfg => 0x01
  | .nocfg => 0x02
  | .illegal => 0x04
  | .range => 0x08
  | .busy => 0x10
  | .hazard => 0x20
  | .bus => 0x40

/-- One bit in place `i` of a word. -/
def flagAt (b : Bool) (i : Nat) : Word := if b then 1 <<< i else 0

/-- `STATUS.ERR_ANY`: `ERR` is not 0 (10_state R23). -/
def errAny (s : State) : Bool := s.err != 0

/-- The interrupt output (60_exceptions R135). -/
def irq (s : State) : Bool := (s.done && s.doneIe) || (errAny s && s.errIe)

/-- The word `STATUS` reads as (10_state R23). -/
def statusWord (s : State) : Word :=
  flagAt s.busy 0 ||| flagAt s.cfgValid 1 ||| flagAt s.baseInit 2 ||| flagAt (errAny s) 3
    ||| flagAt (irq s) 4

/-- The word `IRQ_EN` reads as (R25). -/
def irqEnWord (s : State) : Word := flagAt s.doneIe 0 ||| flagAt s.errIe 1

/-- The code of `RESULT.DIR` (R34). -/
def Direction.code : Direction → BitVec 2
  | .none => 0
  | .pull => 1
  | .push => 2

/-- The code of `RESULT.RULE` (R34). -/
def FreqRule.code : FreqRule → BitVec 3
  | .a => 0
  | .b => 1
  | .c => 2
  | .d => 3
  | .e => 4

/-- The word `RESULT` reads as: VALID [8], RULE [4:2], DIR [1:0] (R34). -/
def resultWord (r : Results) : Word :=
  flagAt r.valid 8 ||| (r.rule.code.setWidth 32 <<< 2) ||| r.dir.code.setWidth 32

/-- The word `PEAKS` reads as (R39). -/
def peaksWord (r : Results) : Word := flagAt r.lpeak 0 ||| flagAt r.rpeak 1

end Sys2Proof.Machine
end

