-- ==== Sys2Proof/Machine/Ops.lean ====
section
/-! DEFINITION. The named operations over the state that the meanings share: recording an error and
acknowledging it (spec 60_exceptions R130; 10_state R26), completing a command (30_encoding R82),
the configuration check, and loading and storing runs of array elements (20_memory R76). -/

namespace Sys2Proof.Machine

/-- The outcome of a command or of a host step. -/
abbrev Result := Host.Outcome State Fault Refusal

/-- One effect after another: a stop of the first is the stop of both. -/
def andThen (o : Result) (f : State → Result) : Result :=
  match o with
  | .next s => f s
  | .fault r => .fault r
  | .refused r => .refused r

/-- `raise Error(cause, info)` (60_exceptions R130): the block's whole exception entry. It sets the
cause's sticky bit, and records cause and information when no error was recorded. Nothing else
changes: there is no mode, no saved program counter and no handler (R136). -/
def raise (c : Cause) (info : Word) (s : State) : State :=
  { s with
    err := s.err ||| c.mask
    errCause := if s.err = 0 then c.code else s.errCause
    errInfo := if s.err = 0 then info else s.errInfo }

/-- A host write of `v` to `ERR`: the acknowledgement of errors, the block's nearest thing to a
return (10_state R26; 60_exceptions R137). -/
def acknowledge (v : Word) (s : State) : State :=
  let e := s.err &&& ~~~(v.setWidth 7)
  { s with
    err := e
    errCause := if e = 0 then 0 else s.errCause
    errInfo := if e = 0 then 0 else s.errInfo }

/-- The end of every engine step: `STATUS.BUSY <- 0`, `EVENTS.DONE <- 1` (30_encoding R82). -/
def complete (s : State) : State := { s with busy := false, done := true }

/-- The command is rejected: the error is recorded with the command word, and nothing else changes
(30_encoding R82; 60_exceptions R130). -/
def reject (c : Cause) (s : State) : Result := .next (raise c s.pending s)

/-- The check of a command that needs a configuration (30_encoding R82; 60_exceptions R124). -/
def requireCfg (s : State) (body : State → Result) : Result :=
  if s.cfgValid then body s else reject .nocfg s

/-- Read the first `len` elements of the array at `base` and go on with their values; UNINIT if any
is unwritten (10_state R51). -/
def withArray (base len : Nat) (s : State) (body : List F64 → Result) : Result :=
  match Memory.readElems s.mem base 0 len with
  | some xs => body xs
  | none => .fault .uninit

/-- Store the listed values at the first elements of the array at `base`. -/
def storeArray (base : Nat) (xs : List F64) (s : State) : State :=
  { s with mem := Memory.writeElems s.mem base 0 xs }

/-- Element `i` of a list of values. Every index a command computes is inside its array (20_memory
R76), so the value past the end is never used. -/
def elemAt {α : Type} (z : α) (xs : List α) (i : Nat) : α := xs.getD i z

end Sys2Proof.Machine
end

