-- ==== Sys2Proof/Machine/Binary64.lean ====
section
/-! DEFINITION. IEEE 754 binary64 arithmetic (spec 00_scope R13): operands are taken to exact dyadic
numbers, the operation is computed exactly, and the result is narrowed once, to nearest with ties to
even. The content of IEEE 754 is general knowledge in the spec (93 G1): PRESUMED (log 9). -/

namespace Sys2Proof.Machine

/-- What an encoding stands for. A finite value is `±sig · 2^exp`. -/
inductive FClass where
  | nan
  | inf (neg : Bool)
  | finite (neg : Bool) (sig : Nat) (exp : Int)
deriving DecidableEq, Repr

/-- The canonical quiet NaN (R13, D3). -/
def canonicalNaN : F64 := 0x7FF8000000000000

/-- The encoding with sign `neg` and low 63 bits `mag`. -/
def packSign (neg : Bool) (mag : Nat) : F64 := BitVec.ofNat 64 (if neg then 2 ^ 63 + mag else mag)

/-- The infinity of a sign. -/
def infOf (neg : Bool) : F64 := packSign neg (0x7FF * 2 ^ 52)

/-- The zero of a sign. -/
def zeroOf (neg : Bool) : F64 := packSign neg 0

/-- The sign bit. -/
def signBit (x : F64) : Bool := x.msb

/-- The biased exponent, bits [62:52]. -/
def expField (x : F64) : Nat := (x.extractLsb' 52 11).toNat

/-- The fraction, bits [51:0]. -/
def fracField (x : F64) : Nat := (x.extractLsb' 0 52).toNat

/-- The class of an encoding. Subnormals are kept (R13). -/
def classify (x : F64) : FClass :=
  if expField x = 0x7FF then
    if fracField x = 0 then .inf (signBit x) else .nan
  else if expField x = 0 then .finite (signBit x) (fracField x) (-1074)
  else .finite (signBit x) (2 ^ 52 + fracField x) ((expField x : Int) - 1075)

/-- `x` is a NaN. -/
def isNaN (x : F64) : Bool := expField x == 0x7FF && fracField x != 0

/-- `m / 2^d` rounded to the nearest integer, ties to even. -/
def shiftRightNearest (m d : Nat) : Nat :=
  let q := m / 2 ^ d
  let r := m % 2 ^ d
  if 2 * r > 2 ^ d ∨ (2 * r = 2 ^ d ∧ q % 2 = 1) then q + 1 else q

/-- The exponent of the last place of the binary64 number nearest `m · 2^q`, for `m > 0`: 53
significant bits, and never below 2^-1074. -/
def lastPlace (m : Nat) (q : Int) : Int := max (q + (Nat.log2 m : Int) - 52) (-1074)

/-- The significand of `m · 2^q` at the last place `t`, rounded once to nearest even. -/
def significand (m : Nat) (q t : Int) : Nat :=
  if t ≤ q then m * 2 ^ (q - t).toNat else shiftRightNearest m (t - q).toNat

/-- `±m · 2^q` rounded to binary64, to nearest with ties to even; overflow gives the infinity of the
sign. A significand that rounds up to the next power of two carries into the exponent field. -/
def roundDyadic (neg : Bool) (m : Nat) (q : Int) : F64 :=
  if m = 0 then zeroOf neg
  else
    let t := lastPlace m q
    packSign neg (min ((t + 1074).toNat * 2 ^ 52 + significand m q t) (0x7FF * 2 ^ 52))

/-- The integer `±sig · 2^(e - e')` for `e' ≤ e`. -/
def alignTo (neg : Bool) (sig : Nat) (e e' : Int) : Int :=
  let v : Int := (sig * 2 ^ (e - e').toNat : Nat)
  if neg then -v else v

/-- The sum of two finite values; an exact zero sum is +0.0 unless both operands are negative. -/
def addFinite (n₁ : Bool) (s₁ : Nat) (e₁ : Int) (n₂ : Bool) (s₂ : Nat) (e₂ : Int) : F64 :=
  let e := min e₁ e₂
  let v := alignTo n₁ s₁ e₁ e + alignTo n₂ s₂ e₂ e
  if v = 0 then zeroOf (n₁ && n₂) else roundDyadic (decide (v < 0)) v.natAbs e

/-- `fadd(a, b)` (R13). -/
def fadd (a b : F64) : F64 :=
  match classify a, classify b with
  | .nan, _ => canonicalNaN
  | _, .nan => canonicalNaN
  | .inf n₁, .inf n₂ => if n₁ = n₂ then infOf n₁ else canonicalNaN
  | .inf n₁, .finite _ _ _ => infOf n₁
  | .finite _ _ _, .inf n₂ => infOf n₂
  | .finite n₁ s₁ e₁, .finite n₂ s₂ e₂ => addFinite n₁ s₁ e₁ n₂ s₂ e₂

/-- The encoding with the sign bit flipped. -/
def fneg (x : F64) : F64 := x ^^^ 0x8000000000000000

/-- `fsub(a, b)` (R13): the sum of `a` and the negation of `b`. -/
def fsub (a b : F64) : F64 := fadd a (fneg b)

/-- `fmul(a, b)` (R13). -/
def fmul (a b : F64) : F64 :=
  match classify a, classify b with
  | .nan, _ => canonicalNaN
  | _, .nan => canonicalNaN
  | .inf n₁, .inf n₂ => infOf (n₁ ^^ n₂)
  | .inf n₁, .finite n₂ s₂ _ => if s₂ = 0 then canonicalNaN else infOf (n₁ ^^ n₂)
  | .finite n₁ s₁ _, .inf n₂ => if s₁ = 0 then canonicalNaN else infOf (n₁ ^^ n₂)
  | .finite n₁ s₁ e₁, .finite n₂ s₂ e₂ => roundDyadic (n₁ ^^ n₂) (s₁ * s₂) (e₁ + e₂)

/-- The integer square root of `n`, found bit by bit from bit `k - 1` down, above the root `r` found
so far. -/
def isqrtFrom (n : Nat) : Nat → Nat → Nat
  | 0, r => r
  | k + 1, r =>
    if (r + 2 ^ k) * (r + 2 ^ k) ≤ n then isqrtFrom n k (r + 2 ^ k) else isqrtFrom n k r

/-- The integer square root of `n`, for `n < 2^168`. -/
def isqrt (n : Nat) : Nat := isqrtFrom n 84 0

/-- The square root of `sig · 2^exp` for `sig > 0`: the radicand is scaled to an even exponent and at
least 113 bits, and one more bit below the root records whether it is exact. -/
def sqrtFinite (sig : Nat) (exp : Int) : F64 :=
  let k : Nat := if exp % 2 = 0 then 112 else 113
  let n := sig * 2 ^ k
  let r := isqrt n
  roundDyadic false (2 * r + if r * r = n then 0 else 1) ((exp - k) / 2 - 1)

/-- `fsqrt(a)` (R13): the square root of -0.0 is -0.0 and of a negative number a NaN. -/
def fsqrt (a : F64) : F64 :=
  match classify a with
  | .nan => canonicalNaN
  | .inf neg => if neg then canonicalNaN else infOf false
  | .finite neg sig exp =>
    if sig = 0 then zeroOf neg else if neg then canonicalNaN else sqrtFinite sig exp

/-- The position of a value that is no NaN in the IEEE 754 order; both zeros are at 0. -/
def orderKey (x : F64) : Int :=
  let m : Int := (x.extractLsb' 0 63).toNat
  if signBit x then -m else m

/-- `fge(a, b)` (R13): false when either operand is a NaN, and -0 equals +0. -/
def fge (a b : F64) : Bool := !isNaN a && !isNaN b && decide (orderKey b ≤ orderKey a)

end Sys2Proof.Machine
end

