-- ==== Sys2Proof/Machine/Rom.lean ====
section
/-! DEFINITION. The tables TWC, TWS and BLK (spec 10_state R48, R49), read from the parameters
`TWIDDLE_ROM` and `BLACKMAN_ROM` (00_scope R9), and the parameters' default contents (92 D5, D6): the
binary64 value nearest the exact real value, ties to even, with exact zeros +0.0. Cosines are computed
in fixed point with 256 fraction bits and rounded once; log 7 and log 8 say how the rounding was
checked. -/

namespace Sys2Proof.Machine

/-- The number of fraction bits of the fixed-point cosine. -/
def romBits : Nat := 256

/-- The integer part of `π · 2^256`. -/
def piFixed : Nat := 0x3243F6A8885A308D313198A2E03707344A4093822299F31D0082EFA98EC4E6C89

/-- The power series of the cosine: from the term `x^(2k)/(2k)!` in fixed point and `x²` in fixed
point, `fuel` more terms, alternating. -/
def cosSeries (x2 : Nat) : (fuel k term : Nat) → Int
  | 0, _, _ => 0
  | fuel + 1, k, term =>
    (term : Int) - cosSeries x2 fuel (k + 1) (term * x2 / 2 ^ romBits / ((2 * k + 1) * (2 * k + 2)))

/-- `cos(π·u/d) · 2^256` for `0 ≤ u/d ≤ 1/2`, exact at both ends. -/
def cosQuadrant (u d : Nat) : Int :=
  if 2 * u = d then 0
  else
    let x := piFixed * u / d
    cosSeries (x * x / 2 ^ romBits) 40 0 (2 ^ romBits)

/-- `cos(2π·a/b) · 2^256` for a natural number `a` and `b > 0`, by the period and the symmetries of
the cosine. -/
def cosTurn (a b : Nat) : Int :=
  let r := a % b
  let r := if b < 2 * r then b - r else r
  if b < 4 * r then -cosQuadrant (b - 2 * r) b else cosQuadrant (2 * r) b

/-- A fixed-point value rounded to binary64; an exact zero is +0.0. -/
def fixedToF64 (v : Int) : F64 := roundDyadic (decide (v < 0)) v.natAbs (-(romBits : Int))

/-- The default `TWIDDLE_ROM(N).cos[i]`, the nearest value to `cos(-2π·i/N)` (R48, D5). -/
def defaultCos (n i : Nat) : F64 := fixedToF64 (cosTurn i n)

/-- The default `TWIDDLE_ROM(N).sin[i]`, the nearest value to `sin(-2π·i/N)` (R48, D5), which is
`cos(2π·(i/N + 1/4))`. -/
def defaultSin (n i : Nat) : F64 := fixedToF64 (cosTurn (4 * i + n) (4 * n))

/-- The default `BLACKMAN_ROM(N)[i]`, the nearest value to
`0.42 − 0.5·cos(2πi/(N−1)) + 0.08·cos(4πi/(N−1))` (R49, D6). -/
def defaultBlackman (n i : Nat) : F64 :=
  fixedToF64 ((42 * 2 ^ romBits - 50 * cosTurn i (n - 1) + 8 * cosTurn (2 * i) (n - 1)) / 100)

/-- Entry `i` of a ROM for length `n`: the default's, or the listed one of the list for `n` = 2^k,
which is the list number k − 1. -/
def romEntry (r : Rom) (dflt : Nat → Nat → F64) (n i : Nat) : F64 :=
  match r with
  | .default => dflt n i
  | .listed ts => (ts.getD (Nat.log2 n - 1) []).getD i 0

/-- `TWC[i]` for the configured length `n` (R48). -/
def twcElem (r : Roms) (n i : Nat) : F64 :=
  if n ≠ 0 ∧ i < n / 2 then romEntry r.cos defaultCos n i else 0

/-- `TWS[i]` for the configured length `n` (R48). -/
def twsElem (r : Roms) (n i : Nat) : F64 :=
  if n ≠ 0 ∧ i < n / 2 then romEntry r.sin defaultSin n i else 0

/-- `BLK[i]` for the configured length `n` (R49). -/
def blkElem (r : Roms) (n i : Nat) : F64 :=
  if n ≠ 0 ∧ i < n then romEntry r.blackman defaultBlackman n i else 0

end Sys2Proof.Machine
end

