-- ==== Sys2Proof/Machine/Operands.lean ====
section
/-! DEFINITION. The operand checks of the commands: the accepted transform lengths (spec 40_transform
R88), the stage number (R95), the placement of the carrier bin window (41_magnitude R101). -/

namespace Sys2Proof.Machine

/-- `pow2ok(n)`: `n` is 2^k with 1 ≤ k ≤ 11 (R88). -/
def pow2ok (n : Nat) : Bool := decide (2 ≤ n) && decide (n ≤ Config.nMax) && n == 2 ^ Nat.log2 n

/-- The stage number names a stage of the configured transform (R95). -/
def stageOk (s : State) (st : Nat) : Bool := decide (st < s.log2n.toNat)

/-- The first index of the carrier bin window in MAG: `CARRIER_BIN - 33`. -/
def windowStart (s : State) : Nat := s.carrierBin.toNat - Config.winCenter

/-- The window is in range: `cb ≥ 33` and `cb + 33 ≤ N/2 − 1` (R101). -/
def windowInRange (s : State) : Bool :=
  decide (Config.winCenter ≤ s.carrierBin.toNat)
    && decide (s.carrierBin.toNat + Config.winCenter + 1 ≤ s.n.toNat / 2)

/-- The check of a command that reads the window's place (R102; 43_sequencing R118). -/
def requireWindow (s : State) (body : State → Result) : Result :=
  if windowInRange s then body s else reject .range s

end Sys2Proof.Machine
end

