-- ==== Sys2Proof/Machine/Bus.lean ====
section
/-! DEFINITION. The host bus (spec 20_memory): the address map (R58 to R60), the access checks
(R68), the registers as the host reads and writes them (10_state R21 to R42), `MemRead` (R65) and
`MemWrite` (R64), and the reset input (70_reset_and_hazards R143). -/

namespace Sys2Proof.Machine

/-- The registers of the register page (10_state, section 2). -/
inductive Reg where
  | id
  | cmd
  | status
  | events
  | irqEn
  | err
  | errCause
  | errInfo
  | n
  | log2n
  | carrierBin
  | baseLeft
  | baseRight
  | result
  | freq
  | freqQ10
  | lband
  | rband
  | lptr
  | rptr
  | peaks
  | lstart
  | lend
  | rstart
  | rend
  | estBin
  | peakLo
  | peakHi
  | thrLo
  | thrHi
  | pthrLo
  | pthrHi
deriving DecidableEq, Repr

/-- The tables the host can only read (10_state R48, R49). -/
inductive Table where
  | twc
  | tws
  | blk
deriving DecidableEq, Repr

/-- What stands at an aligned address (20_memory R58). -/
inductive Location where
  /-- A register. -/
  | reg (r : Reg)
  /-- A word of RE, IM, MAG or WIN, host read-write. -/
  | data
  /-- The low or the high word of element `i` of a table. -/
  | table (t : Table) (i : Nat) (high : Bool)
  | unmapped
deriving DecidableEq, Repr

/-- The register whose offset is `4·k` (10_state, section 2). -/
def regAt (k : Nat) : Option Reg :=
  [Reg.id, .cmd, .status, .events, .irqEn, .err, .errCause, .errInfo, .n, .log2n, .carrierBin,
    .baseLeft, .baseRight, .result, .freq, .freqQ10, .lband, .rband, .lptr, .rptr, .peaks, .lstart,
    .lend, .rstart, .rend, .estBin, .peakLo, .peakHi, .thrLo, .thrHi, .pthrLo, .pthrHi][k]?

/-- The word of table `t` at byte offset `off` (20_memory R60). -/
def tableAt (t : Table) (off : Nat) : Location := .table t (off / 8) (off % 8 == 4)

/-- `a` lies in a data window: RE, IM and MAG fill 0x10000 to 0x19FFF, WIN follows up to 0x1A217
(R58). -/
def inDataWindow (a : Nat) : Bool := decide (Config.reBase ≤ a) && decide (a < 0x1A218)

/-- What stands at an aligned byte address (R58, R59, R60). -/
def locate (a : Addr) : Location :=
  if inDataWindow a.toNat then .data
  else if Config.twcBase ≤ a.toNat ∧ a.toNat < Config.twsBase then
    tableAt .twc (a.toNat - Config.twcBase)
  else if Config.twsBase ≤ a.toNat ∧ a.toNat < Config.blkBase then
    tableAt .tws (a.toNat - Config.twsBase)
  else if Config.blkBase ≤ a.toNat ∧ a.toNat < 0x24000 then
    tableAt .blk (a.toNat - Config.blkBase)
  else
    match regAt (a.toNat / 4) with
    | some r => .reg r
    | none => .unmapped

/-- The registers a host write may reach; the others are read-only (10_state, section 2). -/
def Reg.writable : Reg → Bool
  | .cmd | .events | .irqEn | .err | .carrierBin => true
  | .id | .status | .errCause | .errInfo | .n | .log2n | .baseLeft | .baseRight | .result | .freq
  | .freqQ10 | .lband | .rband | .lptr | .rptr | .peaks | .lstart | .lend | .rstart | .rend
  | .estBin | .peakLo | .peakHi | .thrLo | .thrHi | .pthrLo | .pthrHi => false

/-- A host write may reach the location (20_memory R67). -/
def Location.writable : Location → Bool
  | .reg r => r.writable
  | .data => true
  | .table _ _ _ => false
  | .unmapped => false

/-- The location lies in an array window (R58): a data array or a table. -/
def Location.inArrayWindow : Location → Bool
  | .data | .table _ _ _ => true
  | .reg _ | .unmapped => false

/-- An access of the host. -/
inductive Access where
  | read
  | write (v : Word)
deriving DecidableEq, Repr

/-- The access is a write. -/
def Access.isWrite : Access → Bool
  | .read => false
  | .write _ => true

/-- The address as an information word (10_state R28). -/
def addrInfo (a : Addr) : Word := a.setWidth 32

/-- Check 6 of R68: a write to `CMD` while busy raises BUSY with the refused word; nothing else does. -/
def busyCheck (acc : Access) (l : Location) : Option (Cause × Word) :=
  match acc, l with
  | .write v, .reg .cmd => some (.busy, v)
  | _, _ => none

/-- The access checks of R68, in order; the first that fails decides the error and its
information. -/
def accessError (acc : Access) (a : Addr) (s : State) : Option (Cause × Word) :=
  if a.toNat % 4 ≠ 0 then some (.bus, addrInfo a)
  else if locate a = .unmapped then some (.bus, addrInfo a)
  else if acc.isWrite ∧ (locate a).writable = false then some (.bus, addrInfo a)
  else if s.busy ∧ (locate a).inArrayWindow then some (.hazard, addrInfo a)
  else if s.busy ∧ acc.isWrite ∧ locate a = .reg .carrierBin then some (.hazard, addrInfo a)
  else if s.busy then busyCheck acc (locate a)
  else none

/-- The value a register reads as (10_state R21 to R42); `CMD` reads 0 (R22). -/
def regRead (r : Reg) (s : State) : Word :=
  match r with
  | .id => Config.idValue
  | .cmd => 0
  | .status => statusWord s
  | .events => flagAt s.done 0
  | .irqEn => irqEnWord s
  | .err => s.err.setWidth 32
  | .errCause => s.errCause.setWidth 32
  | .errInfo => s.errInfo
  | .n => s.n.setWidth 32
  | .log2n => s.log2n.setWidth 32
  | .carrierBin => s.carrierBin.setWidth 32
  | .baseLeft => s.baseLeft
  | .baseRight => s.baseRight
  | .result => resultWord s.results
  | .freq => s.results.freq
  | .freqQ10 => s.results.freqQ10
  | .lband => s.results.lband
  | .rband => s.results.rband
  | .lptr => s.results.lptr
  | .rptr => s.results.rptr
  | .peaks => peaksWord s.results
  | .lstart => s.results.lstart
  | .lend => s.results.lend
  | .rstart => s.results.rstart
  | .rend => s.results.rend
  | .estBin => s.results.estBin
  | .peakLo => Memory.lowWord s.results.peak
  | .peakHi => Memory.highWord s.results.peak
  | .thrLo => Memory.lowWord s.results.thr
  | .thrHi => Memory.highWord s.results.thr
  | .pthrLo => Memory.lowWord s.results.pthr
  | .pthrHi => Memory.highWord s.results.pthr

/-- The effect of an accepted host write of `v` to a register (10_state R22, R24, R25, R26, R31). -/
def regWrite (r : Reg) (v : Word) (s : State) : State :=
  match r with
  | .cmd => { s with pending := v, busy := true }
  | .events => { s with done := s.done && !v.getLsbD 0 }
  | .irqEn => { s with doneIe := v.getLsbD 0, errIe := v.getLsbD 1 }
  | .err => acknowledge v s
  | .carrierBin => { s with carrierBin := v.setWidth 10 }
  | .id | .status | .errCause | .errInfo | .n | .log2n | .baseLeft | .baseRight | .result | .freq
  | .freqQ10 | .lband | .rband | .lptr | .rptr | .peaks | .lstart | .lend | .rstart | .rend
  | .estBin | .peakLo | .peakHi | .thrLo | .thrHi | .pthrLo | .pthrHi => s

/-- Element `i` of a table for the configured length (10_state R48, R49). -/
def tableElem (t : Table) (r : Roms) (n i : Nat) : F64 :=
  match t with
  | .twc => twcElem r n i
  | .tws => twsElem r n i
  | .blk => blkElem r n i

/-- `MemRead(a, 4)` (20_memory R65): the value returned and the state after. A refused read returns 0
and raises its error; a read of an unwritten word is UNINIT. -/
def memRead (a : Addr) (s : State) : Host.Outcome (Word × State) Fault Refusal :=
  match accessError .read a s with
  | some (c, info) => .next (0, raise c info s)
  | none =>
    match locate a with
    | .reg r => .next (regRead r s, s)
    | .data =>
      match Memory.readWord s.mem a.toNat with
      | some v => .next (v, s)
      | none => .fault .uninit
    | .table t i false =>
      .next (Memory.lowWord (tableElem t s.roms s.n.toNat i), s)
    | .table t i true =>
      .next (Memory.highWord (tableElem t s.roms s.n.toNat i), s)
    | .unmapped => .next (0, s)

/-- `MemWrite(a, 4, v)` (R64): the state after. A refused write is dropped and raises its error. -/
def memWrite (a : Addr) (v : Word) (s : State) : State :=
  match accessError (.write v) a s with
  | some (c, info) => raise c info s
  | none =>
    match locate a with
    | .reg r => regWrite r v s
    | .data => { s with mem := Memory.writeWord s.mem a.toNat v }
    | .table _ _ _ => s
    | .unmapped => s

/-- The reset input (70_reset_and_hazards R143): every register at its reset value, every word
unwritten, a command in flight abandoned. The ROMs are the block's parameters and the host's side of
the bus is not the block's, so both stay: DEDUCED (log 15). -/
def resetBlock (s : State) : State :=
  { State.reset with roms := s.roms, program := s.program, turns := s.turns, reads := s.reads }

/-- One host operation (30_encoding R85). A `POLL` makes one read a step and stays first in the
program until its condition holds (log 16). -/
def hostStep (op : HostOp) (s : State) : Result :=
  match op with
  | .wr a v => .next (memWrite a v s)
  | .rd a =>
    match memRead a s with
    | .next (v, t) => .next { t with reads := v :: t.reads }
    | .fault r => .fault r
    | .refused r => .refused r
  | .poll a m v =>
    match memRead a s with
    | .next (w, t) =>
      .next (if w &&& m = v then t else { t with program := .poll a m v :: t.program })
    | .fault r => .fault r
    | .refused r => .refused r
  | .reset => .next (resetBlock s)

end Sys2Proof.Machine
end

