-- ==== Sys2Proof/Machine/Analyzer.lean ====
section
/-! DEFINITION. The band analyzer commands `ANALYZE` and `NEWSES` (spec 42_band_analyzer R103 to
R116), one definition per step of the algorithm. -/

namespace Sys2Proof.Machine

/-- Bin `i` of the window; a window has 67 bins (R103). -/
def bin (win : List F64) (i : Nat) : F64 := elemAt 0 win i

/-- `peakStrength` = WIN[33] (R104). -/
def peakStrength (win : List F64) : F64 := bin win Config.winCenter

/-- `threshold` (R104). -/
def threshold (win : List F64) : F64 := fmul Config.kThr (peakStrength win)

/-- `peakThreshold` (R104). -/
def peakThreshold (win : List F64) : F64 := fmul Config.kPthr (peakStrength win)

/-- The left walk (R105) with `k` bins below the walk's index: i = k − 1. It returns lBand and lPtr. -/
def leftWalk (win : List F64) (thr : F64) : (k band : Nat) → Nat × Int
  | 0, band => (band, -1)
  | k + 1, band => if fge (bin win k) thr then leftWalk win thr k (band + 1) else (band, k)

/-- The right walk (R107) with `k` bins left to examine: i = 67 − k. It returns rBand and rPtr. -/
def rightWalk (win : List F64) (thr : F64) : (k band : Nat) → Nat × Nat
  | 0, band => (band, 67)
  | k + 1, band =>
    if fge (bin win (66 - k)) thr then rightWalk win thr k (band + 1) else (band, 66 - k)

/-- `lBand` and `lPtr`: the walk starts at index 32 (R105). -/
def leftBand (win : List F64) : Nat × Int := leftWalk win (threshold win) 33 0

/-- `rBand` and `rPtr`: the walk starts at index 34 (R107). -/
def rightBand (win : List F64) : Nat × Nat := rightWalk win (threshold win) 33 0

/-- What a peak scan keeps: whether a bin qualified, the first and the last qualifying index (R106,
R108). -/
structure PeakScan where
  found : Bool
  first : Int
  last : Int
deriving DecidableEq, Repr

/-- A scan that has found nothing: −1, −1 (R106, D22). -/
def PeakScan.empty : PeakScan := ⟨false, -1, -1⟩

/-- One turn of a peak scan (R106): every qualifying bin moves the last index, adjacency not
required. -/
def peakTurn (win : List F64) (pth : F64) (p : PeakScan) (i : Nat) : PeakScan :=
  if fge (bin win i) pth then ⟨true, if p.found then p.first else i, i⟩ else p

/-- The scan over the listed indices, in order. -/
def peakScan (win : List F64) (is : List Nat) : PeakScan :=
  is.foldl (peakTurn win (peakThreshold win)) PeakScan.empty

/-- `lPeak`, `lStart`, `lEnd`: i from lPtr − 1 down to 0, empty when lPtr ≤ 0 (R106). -/
def leftPeak (win : List F64) : PeakScan := peakScan win (List.range (leftBand win).2.toNat).reverse

/-- `rPeak`, `rStart`, `rEnd`: i from rPtr + 1 to 66, empty when rPtr ≥ 66 (R108). -/
def rightPeak (win : List F64) : PeakScan :=
  peakScan win (List.range' ((rightBand win).2 + 1) (66 - (rightBand win).2))

/-- The baseline in force for the classification: it is initialised on the first analysis of a
session (R109). -/
def initBaseline (s : State) : State :=
  if s.baseInit then s
  else { s with baseLeft := Config.baseL0, baseRight := Config.baseR0, baseInit := true }

/-- The classification (R110): the right check comes second, so Push wins. -/
def classifyGesture (lBand rBand baseL baseR : Nat) (lPeak rPeak : Bool) : Direction :=
  if baseR < rBand ∨ rPeak = true then .push
  else if baseL < lBand ∨ lPeak = true then .pull
  else .none

/-- The frequency-bin locator (R111): the rule that fires and the bin. -/
def locateBin (lBand rBand baseL baseR : Nat) (l r : PeakScan) : FreqRule × Int :=
  if baseL < lBand then (.a, 33 - (lBand : Int))
  else if baseR < rBand then (.b, 33 + (rBand : Int))
  else if l.found then (.c, l.first - (l.first - l.last).tdiv 2)
  else if r.found then (.d, r.first + (r.last - r.first).tdiv 2)
  else (.e, 33)

/-- The exact frequency times 1024 of a bin (R112). -/
def freqQ10 (bin : Int) : Int := (bin - 33) * Config.fHalf + Config.fCarrier * Config.halfLen

/-- The integer frequency of a bin in Hz, rounded toward zero (R112). -/
def freqHz (bin : Int) : Int := (freqQ10 bin).tdiv Config.halfLen

/-- The result registers an analysis of `win` writes, against the baseline (baseL, baseR) (R113). -/
def analysisResults (win : List F64) (baseL baseR : Nat) : Results :=
  let lb := leftBand win
  let rb := rightBand win
  let lp := leftPeak win
  let rp := rightPeak win
  let located := locateBin lb.1 rb.1 baseL baseR lp rp
  { valid := true
    rule := located.1
    dir := classifyGesture lb.1 rb.1 baseL baseR lp.found rp.found
    freq := BitVec.ofInt 32 (freqHz located.2)
    freqQ10 := BitVec.ofInt 32 (freqQ10 located.2)
    lband := BitVec.ofNat 32 lb.1
    rband := BitVec.ofNat 32 rb.1
    lptr := BitVec.ofInt 32 lb.2
    rptr := BitVec.ofNat 32 rb.2
    lpeak := lp.found
    rpeak := rp.found
    lstart := BitVec.ofInt 32 lp.first
    lend := BitVec.ofInt 32 lp.last
    rstart := BitVec.ofInt 32 rp.first
    rend := BitVec.ofInt 32 rp.last
    estBin := BitVec.ofInt 32 located.2
    peak := peakStrength win
    thr := threshold win
    pthr := peakThreshold win }

/-- The body of `ANALYZE` (R113); UNINIT if any WIN[j] is unwritten. -/
def analyzeBody (s : State) : Result :=
  withArray Config.winBase Config.winLen s fun win =>
    let s' := initBaseline s
    .next { s' with results := analysisResults win s'.baseLeft.toNat s'.baseRight.toNat }

/-- `ANALYZE` (R113). It needs no configuration. -/
def execAnalyze (s : State) : Result := analyzeBody s

/-- `NEWSES` (R115): the Baseline State returns to its reset state. -/
def execNewses (s : State) : Result :=
  .next { s with baseInit := false, baseLeft := 0, baseRight := 0 }

end Sys2Proof.Machine
end

