-- ==== Sys2Proof/Machine/Magnitude.lean ====
section
/-! DEFINITION. The magnitude and window commands `MAG` and `EXTRACT` (spec 41_magnitude R99 to
R102). -/

namespace Sys2Proof.Machine

/-- `fsqrt(fadd(fmul(re, re), fmul(im, im)))` (R99). -/
def magnitude (re im : F64) : F64 := fsqrt (fadd (fmul re re) (fmul im im))

/-- The body of `MAG` (R99): MAG[k] for k < N/2. -/
def magBody (s : State) : Result :=
  withArray Config.reBase (s.n.toNat / 2) s fun re =>
    withArray Config.imBase (s.n.toNat / 2) s fun im =>
      .next (storeArray Config.magBase (List.zipWith magnitude re im) s)

/-- `MAG` (R99). -/
def execMag (s : State) : Result := requireCfg s magBody

/-- The copy of `EXTRACT` (R102): WIN[j] <- MAG[cb − 33 + j] for j < 67, bit for bit. -/
def extractBody (s : State) : Result :=
  match Memory.readElems s.mem Config.magBase (windowStart s) Config.winLen with
  | some xs => .next (storeArray Config.winBase xs s)
  | none => .fault .uninit

/-- `EXTRACT` (R102): the window's place is checked before any access. -/
def execExtract (s : State) : Result := requireCfg s fun s => requireWindow s extractBody

end Sys2Proof.Machine
end

