-- ==== Sys2Proof/Machine/Transform.lean ====
section
/-! DEFINITION. The transform engine commands `CFG`, `ZIM`, `BLKW`, `BITREV`, `STAGE`, `FFT` (spec
40_transform R87 to R98). The permutation and the butterflies are written over any arithmetic, so
that the same network can be read in exact arithmetic (R97); the hardware's is binary64. -/

namespace Sys2Proof.Machine

/-- The operations the butterflies use. -/
structure Arith (α : Type) where
  zero : α
  add : α → α → α
  sub : α → α → α
  mul : α → α → α

/-- The hardware's arithmetic: each operation rounds on its own, none is fused (R94). -/
def binary64 : Arith F64 := ⟨0, fadd, fsub, fmul⟩

/-- The real and the imaginary channel, the first `N` elements of RE and IM. -/
structure Channels (α : Type) where
  re : List α
  im : List α
deriving DecidableEq, Repr

/-- `rev_m(i)`: bit t of the result is bit (m−1−t) of i (00_scope R11). -/
def revBits : (m i : Nat) → Nat
  | 0, _ => 0
  | m + 1, i => 2 ^ m * (i % 2) + revBits m (i / 2)

/-- `swap X[i], X[j]`. -/
def swapAt {α : Type} (z : α) (xs : List α) (i j : Nat) : List α :=
  (xs.set i (elemAt z xs j)).set j (elemAt z xs i)

/-- One turn of the loop of R92. -/
def bitrevTurn {α : Type} (z : α) (m : Nat) (xs : List α) (i : Nat) : List α :=
  if i < revBits m i then swapAt z xs i (revBits m i) else xs

/-- The permutation loop of R92 on one channel: i from 1 to n − 2. -/
def bitrevList {α : Type} (z : α) (m n : Nat) (xs : List α) : List α :=
  (List.range' 1 (n - 2)).foldl (bitrevTurn z m) xs

/-- `BITREV` on both channels; the pairs of RE and IM are swapped together (R92). -/
def bitrevChannels {α : Type} (z : α) (m n : Nat) (x : Channels α) : Channels α :=
  ⟨bitrevList z m n x.re, bitrevList z m n x.im⟩

/-- `BFLY(k, u, a)` with c = TWC[a] and sn = TWS[a] (R94). -/
def butterfly {α : Type} (A : Arith α) (c sn : α) (k u : Nat) (x : Channels α) : Channels α :=
  let xr := elemAt A.zero x.re u
  let xi := elemAt A.zero x.im u
  let yr := elemAt A.zero x.re k
  let yi := elemAt A.zero x.im k
  let t1 := A.sub (A.mul c xr) (A.mul sn xi)
  let t2 := A.add (A.mul sn xr) (A.mul c xi)
  ⟨(x.re.set u (A.sub yr t1)).set k (A.add yr t1), (x.im.set u (A.sub yi t2)).set k (A.add yi t2)⟩

/-- The wings of the group that starts at `g`, for a half-group of `half` and the table stride `ts`
(R95). -/
def stageGroup {α : Type} (A : Arith α) (cosT sinT : Nat → α) (half ts g : Nat) (x : Channels α) :
    Channels α :=
  (List.range half).foldl
    (fun x j => butterfly A (cosT (j * ts)) (sinT (j * ts)) (g + j) (g + j + half) x) x

/-- One butterfly stage: half = 2^st, span = 2·half, ts = N div span, groups at 0, span, 2·span, …
below N (R95). -/
def stageChannels {α : Type} (A : Arith α) (cosT sinT : Nat → α) (n st : Nat) (x : Channels α) :
    Channels α :=
  let half := 2 ^ st
  let span := 2 * half
  (List.range ((n + span - 1) / span)).foldl
    (fun x g => stageGroup A cosT sinT half (n / span) (g * span) x) x

/-- The whole transform: the permutation, then stages 0 to m − 1 (R96). -/
def fftChannels {α : Type} (A : Arith α) (cosT sinT : Nat → α) (m n : Nat) (x : Channels α) :
    Channels α :=
  (List.range m).foldl (fun x st => stageChannels A cosT sinT n st x)
    (bitrevChannels A.zero m n x)

/-- A command that reads RE[0..N−1] and IM[0..N−1] and rewrites both; UNINIT if any of them is
unwritten (R92, R95, R96). -/
def onSpectrum (f : Channels F64 → Channels F64) (s : State) : Result :=
  withArray Config.reBase s.n.toNat s fun re =>
    withArray Config.imBase s.n.toNat s fun im =>
      .next (storeArray Config.imBase (f ⟨re, im⟩).im (storeArray Config.reBase (f ⟨re, im⟩).re s))

/-- `CFG n` (R89). A bad length also clears the configuration. -/
def execCfg (n : Nat) (s : State) : Result :=
  if pow2ok n then
    .next { s with
      n := BitVec.ofNat 13 n
      log2n := BitVec.ofNat 4 (Nat.log2 n)
      cfgValid := true }
  else reject .cfg { s with n := 0, log2n := 0, cfgValid := false }

/-- The body of `ZIM` (R90): IM[i] <- +0.0 for i < N. -/
def zimBody (s : State) : Result :=
  .next (storeArray Config.imBase (List.replicate s.n.toNat 0) s)

/-- `ZIM` (R90). -/
def execZim (s : State) : Result := requireCfg s zimBody

/-- RE[i]·BLK[i] for each element, from element `i` on (R91). -/
def blackmanProducts (blk : Nat → F64) : Nat → List F64 → List F64
  | _, [] => []
  | i, x :: xs => fmul x (blk i) :: blackmanProducts blk (i + 1) xs

/-- `BLKW` (R91). -/
def execBlkw (s : State) : Result :=
  requireCfg s fun s =>
    withArray Config.reBase s.n.toNat s fun re =>
      .next (storeArray Config.reBase (blackmanProducts (blkElem s.roms s.n.toNat) 0 re) s)

/-- `BITREV` (R92). -/
def execBitrev (s : State) : Result :=
  requireCfg s fun s => onSpectrum (bitrevChannels 0 s.log2n.toNat s.n.toNat) s

/-- The butterflies of stage `st` with the tables of the configured length (R48, R95). -/
def stageNow (s : State) (st : Nat) : Channels F64 → Channels F64 :=
  stageChannels binary64 (twcElem s.roms s.n.toNat) (twsElem s.roms s.n.toNat) s.n.toNat st

/-- `STAGE st` (R95): the stage number is checked before any access. -/
def execStage (st : Nat) (s : State) : Result :=
  requireCfg s fun s =>
    if stageOk s st then onSpectrum (stageNow s st) s else reject .range s

/-- The body of `FFT` (R96). -/
def fftBody (s : State) : Result :=
  onSpectrum
    (fftChannels binary64 (twcElem s.roms s.n.toNat) (twsElem s.roms s.n.toNat) s.log2n.toNat
      s.n.toNat) s

/-- `FFT` (R96). -/
def execFft (s : State) : Result := requireCfg s fftBody

end Sys2Proof.Machine
end

