-- ==== Sys2Proof/Machine/Sequencing.lean ====
section
/-! DEFINITION. The sequencing commands `NOP` and `PIPE` (spec 43_sequencing R117, R118). -/

namespace Sys2Proof.Machine

/-- `NOP` (R117): nothing but the completion that every engine step makes. -/
def execNop (s : State) : Result := .next s

/-- `PIPE` (R118): the window's place is checked before any write; then the five bodies in order. -/
def execPipe (s : State) : Result :=
  requireCfg s fun s =>
    requireWindow s fun s =>
      andThen (andThen (andThen (andThen (zimBody s) fftBody) magBody) extractBody) analyzeBody

end Sys2Proof.Machine
end

