-- ==== Sys2Proof/Machine/Dispatch.lean ====
section
/-! DEFINITION. The effect of each command (spec 30_encoding R79, R82): one arm per command. -/

namespace Sys2Proof.Machine

def exec (i : Instr) (s : State) : Host.Outcome State Fault Refusal :=
  match i with
  | .nop => Sys2Proof.Machine.execNop s
  | .cfg n => Sys2Proof.Machine.execCfg n s
  | .zim => Sys2Proof.Machine.execZim s
  | .blkw => Sys2Proof.Machine.execBlkw s
  | .bitrev => Sys2Proof.Machine.execBitrev s
  | .stage st => Sys2Proof.Machine.execStage st s
  | .fft => Sys2Proof.Machine.execFft s
  | .mag => Sys2Proof.Machine.execMag s
  | .extract => Sys2Proof.Machine.execExtract s
  | .analyze => Sys2Proof.Machine.execAnalyze s
  | .newses => Sys2Proof.Machine.execNewses s
  | .pipe => Sys2Proof.Machine.execPipe s

end Sys2Proof.Machine
end

