-- ==== Sys2Proof/Machine/Engine.lean ====
section
/-! DEFINITION. The engine step (spec 30_encoding R82) and the interleaving of host and engine
(20_memory R71; 00_scope R8). -/

namespace Sys2Proof.Machine

/-- The command in `PENDING` takes effect: an illegal word is rejected with ILLEGAL, any other is
executed (R81, R82). -/
def runPending (s : State) : Result :=
  match decode s.pending with
  | .ok i => exec i s
  | .error _ => reject .illegal s

/-- The engine step (R82): the command's effect, then `STATUS.BUSY <- 0` and `EVENTS.DONE <- 1`. -/
def engineStep (s : State) : Result := andThen (runPending s) fun t => .next (complete t)

/-- One step of the system (20_memory R71): one host operation or the engine step, never both. While
a command is in flight the list `turns` says which agent moves; once it is used up the engine does,
which is the fairness the spec assumes (70 R154; log 2). An idle block whose host has nothing more
to do keeps its state (60_exceptions R142; log 12). -/
def systemStep (s : State) : Result :=
  if s.busy then
    match s.turns, s.program with
    | .host :: ts, op :: ops => hostStep op { s with turns := ts, program := ops }
    | _, _ => engineStep { s with turns := s.turns.tail }
  else
    match s.program with
    | [] => .next s
    | op :: ops => hostStep op { s with program := ops }

/-- The command word `v` has been written to `CMD` and accepted (10_state R22), and the next turn is
the engine's. -/
def commandWritten (v : Word) (s : State) : State :=
  { s with pending := v, busy := true, turns := .engine :: s.turns }

end Sys2Proof.Machine
end

