-- ==== Sys2Proof/Machine/Step.lean ====
section
/-! DEFINITION. One step of the machine, and the placing of an instruction where the step fetches
it: the latch `PENDING` (spec 10_state R20, R52). -/

namespace Sys2Proof.Machine

/-- One step (spec 00_scope R8; 20_memory R71). -/
def step (s : State) : Host.Outcome State Fault Refusal := systemStep s

/-- The state in which the command word `w` has just been written to `CMD` and the very next step
runs it (log 11). A pattern longer than the one-word command keeps its first word. -/
def State.withFetchWord (s : State) (nbits w : Nat) : State :=
  commandWritten (BitVec.ofNat 32 (w % 2 ^ nbits)) s

end Sys2Proof.Machine
end

