-- ==== Sys2Proof/Safety.lean ====
section
/-! DEFINITION. What a sound state is: the invariants the spec states or implies for every state the
machine reaches (10_state R26, R27, R29 to R41, R53; 20_memory R58), and when the operands of a
command are readable (10_state R51). -/

namespace Sys2Proof.Machine

/-- Every listed byte lies in a data window and its whole word is listed: the bus and the engine
write whole words only (20_memory R62, R76). -/
def wordsInWindows (m : Memory) : Bool :=
  m.all fun c => inDataWindow c.1 && (Memory.readWord m (c.1 / 4 * 4)).isSome

/-- The data memory is canonical, and holds whole words of the data windows. -/
abbrev MemoryInv (s : State) : Prop := Memory.wf s.mem = true ∧ wordsInWindows s.mem = true

/-- `N` ≠ 0 exactly when `STATUS.CFG_VALID` = 1; then it is an accepted length and `LOG2N` its
logarithm, else both are 0 (10_state R29, R30). -/
abbrev ConfigInv (s : State) : Prop :=
  (s.cfgValid = true →
    1 ≤ s.log2n.toNat ∧ s.log2n.toNat ≤ 11 ∧ s.n.toNat = 2 ^ s.log2n.toNat) ∧
  (s.cfgValid = false → s.n = 0 ∧ s.log2n = 0)

/-- The Baseline State is (0, 0, 0) or (1, 4, 5) (10_state R53). -/
abbrev BaselineInv (s : State) : Prop :=
  (s.baseInit = false ∧ s.baseLeft = 0 ∧ s.baseRight = 0) ∨
  (s.baseInit = true ∧ s.baseLeft = Config.baseL0 ∧ s.baseRight = Config.baseR0)

/-- No cause and no information are recorded while `ERR` is 0, and one of the seven causes is while
it is not (10_state R26, R27). -/
abbrev ErrorInv (s : State) : Prop :=
  (s.err = 0 → s.errCause = 0 ∧ s.errInfo = 0) ∧
  (s.err ≠ 0 → 1 ≤ s.errCause.toNat ∧ s.errCause.toNat ≤ 7)

/-- The left results of an analysis are inside their ranges (10_state R37, R38, R40). -/
abbrev LeftInv (r : Results) : Prop :=
  r.lband.toNat ≤ 33 ∧ r.lptr.toInt = 32 - (r.lband.toNat : Int) ∧
  (r.lpeak = true → 0 ≤ r.lend.toInt ∧ r.lend.toInt ≤ r.lstart.toInt ∧ r.lstart.toInt ≤ 31) ∧
  (r.lpeak = false → r.lstart.toInt = -1 ∧ r.lend.toInt = -1)

/-- The right results of an analysis are inside their ranges (R37, R38, R40). -/
abbrev RightInv (r : Results) : Prop :=
  r.rband.toNat ≤ 33 ∧ r.rptr.toInt = 34 + (r.rband.toNat : Int) ∧
  (r.rpeak = true → 35 ≤ r.rstart.toInt ∧ r.rstart.toInt ≤ r.rend.toInt ∧ r.rend.toInt ≤ 66) ∧
  (r.rpeak = false → r.rstart.toInt = -1 ∧ r.rend.toInt = -1)

/-- The bin and the frequency of an analysis are inside their ranges and belong together (R35, R36,
R41; 42_band_analyzer R112). -/
abbrev FrequencyInv (r : Results) : Prop :=
  r.estBin.toNat ≤ 66 ∧ (r.freqQ10.toNat : Int) = freqQ10 r.estBin.toNat ∧
  r.freq.toNat = r.freqQ10.toNat / 1024 ∧
  18216350 ≤ r.freqQ10.toNat ∧ r.freqQ10.toNat ≤ 19671650 ∧
  17789 ≤ r.freq.toNat ∧ r.freq.toNat ≤ 19210

/-- The result registers hold their reset values, or an analysis's results (R34 to R42). -/
abbrev ResultsInv (s : State) : Prop :=
  (s.results.valid = false → s.results = Results.reset) ∧
  (s.results.valid = true → LeftInv s.results ∧ RightInv s.results ∧ FrequencyInv s.results)

/-- The invariant of the machine. -/
abbrev Inv (s : State) : Prop :=
  MemoryInv s ∧ ConfigInv s ∧ BaselineInv s ∧ ErrorInv s ∧ ResultsInv s

/-- Elements `i` to `i + len - 1` of the array at `base` are written (10_state R51). -/
abbrev Written (s : State) (base i len : Nat) : Prop :=
  ∀ j < len, (Memory.readElem s.mem base (i + j)).isSome = true

/-- The engine moves in the next step: a command is in flight, and it is not the turn of a host that
has something to do (20_memory R71; 30_encoding R82; log 2). -/
abbrev EngineMoves (s : State) : Prop :=
  s.busy = true ∧ (s.program = [] ∨ s.turns.head? ≠ some .host)

/-- The host moves in the next step: the block is idle, or it is the host's turn (20_memory R71;
log 2). -/
abbrev HostMoves (s : State) : Prop :=
  s.program ≠ [] ∧ (s.busy = false ∨ s.turns.head? = some .host)

/-- The end of a run of a host program: the host has performed its last operation, and the block is
idle (70_reset_and_hazards R156). -/
abbrev Finished (s : State) : Prop := s.program = [] ∧ s.busy = false

/-- The error `c` with information `info` has been recorded between `s` and `t` and nothing else has
changed (60_exceptions R130). -/
def Records (c : Cause) (info : Word) (s t : State) : Prop :=
  t.err = s.err ||| c.mask ∧
  (s.err = 0 → t.errCause = c.code ∧ t.errInfo = info) ∧
  (s.err ≠ 0 → t.errCause = s.errCause ∧ t.errInfo = s.errInfo) ∧
  t = { s with err := t.err, errCause := t.errCause, errInfo := t.errInfo }

/-- Bin `i` of the window as it stands in the memory. -/
def winBin (s : State) (i : Nat) : F64 := (Memory.readElem s.mem Config.winBase i).getD 0

/-- The memory keeps every byte outside elements 0 to `len − 1` of the array at `base`. -/
def SameOutside (s t : State) (base len : Nat) : Prop :=
  ∀ a, a < base ∨ base + 8 * len ≤ a → Memory.getByte t.mem a = Memory.getByte s.mem a

/-- The memory keeps every byte outside the first `len` elements of RE and of IM. -/
def SameOutsideSpectrum (s t : State) (len : Nat) : Prop :=
  ∀ a, a < Config.reBase ∨ Config.reBase + 8 * len ≤ a →
    a < Config.imBase ∨ Config.imBase + 8 * len ≤ a →
    Memory.getByte t.mem a = Memory.getByte s.mem a

/-- `x` is a finite number. -/
def isFinite (x : F64) : Bool := expField x != 0x7FF

/-- The exact value of a finite binary64 number (00_scope R13); 0 for the others. -/
def f64Value (x : F64) : ℚ :=
  match classify x with
  | .finite neg sig exp => (if neg then -1 else 1) * (sig : ℚ) * (2 : ℚ) ^ exp
  | .nan => 0
  | .inf _ => 0

/-- `t` differs from `s` in its data memory at most: every register, the latch and the host's side
are unchanged. -/
def SameButMemory (s t : State) : Prop := t = { s with mem := t.mem }

end Sys2Proof.Machine
end

