-- ==== Sys2Proof/Certificates/Slice0/Obligations.lean ====
section
/-! DEFINITION. The statements for the provers. Each docstring names the rules of the spec it
formalises. -/

open Sys2Proof Sys2Proof.Machine

/-! ### Encoding (30_encoding) -/

/-- R77 to R79, R84: the encoding of every command that can be written decodes to that command. -/
def Obligations.DecodeOfEncodeIsTheCommand : Prop :=
  ∀ i : Instr, i.wellFormed = true → decode (encode i) = .ok i

/-- R77 to R79, R84: every word that decodes is the encoding of the command it decodes to, which can
be written. -/
def Obligations.EncodeOfDecodeIsTheWord : Prop :=
  ∀ (w : Word) (i : Instr), decode w = .ok i → i.wellFormed = true ∧ encode i = w

/-- R84 and the opcode map R79: words written out from the spec decode to their commands. -/
def Obligations.SpecWordsDecode : Prop :=
  decode 0x00000000 = .ok .nop ∧ decode 0x01000800 = .ok (.cfg 2048) ∧
  decode 0x01000008 = .ok (.cfg 8) ∧ decode 0x05000003 = .ok (.stage 3) ∧
  decode 0x06000000 = .ok .fft ∧ decode 0x08000000 = .ok .extract ∧
  decode 0x09000000 = .ok .analyze ∧ decode 0x0B000000 = .ok .pipe ∧
  decode 0x0C000000 = .error .reservedOpcode ∧ decode 0x06000001 = .error .reservedArgument

/-- R81: which words are illegal, and what the engine step does with one: the error ILLEGAL with the
word, the completion of R82, and nothing else. -/
def Obligations.IllegalWordsAreRejected : Prop :=
  (∀ w : Word, (∃ r, decode w = .error r) ↔
    0x0C ≤ (w >>> 24).toNat ∨
      ((w >>> 24).toNat ≠ 0x01 ∧ (w >>> 24).toNat ≠ 0x05 ∧ w.toNat % 2 ^ 24 ≠ 0)) ∧
  (∀ (s : State) (r : Reject), EngineMoves s → decode s.pending = .error r →
    ∃ t, Records .illegal s.pending { s with turns := s.turns.tail } t ∧
      step s = .next { t with busy := false, done := true })

/-! ### The step (00_scope R8, 20_memory R71, 30_encoding R82) -/

/-- R82: when the engine moves and `PENDING` decodes to a command, the step is that command's effect
followed by `STATUS.BUSY <- 0` and `EVENTS.DONE <- 1`. The turn it uses up is the model's (log 2). -/
def Obligations.StepRunsTheDecodedCommand : Prop :=
  ∀ (s : State) (i : Instr), EngineMoves s → decode s.pending = .ok i →
    step s = andThen (exec i { s with turns := s.turns.tail })
      fun t => .next { t with busy := false, done := true }

/-- R71, R85, R142: when the host moves, the step is its next operation: a write is `MemWrite`, a read
is `MemRead` whose value the host keeps, a `POLL` is one read, made again unless the masked value is
the one it waits for, and the reset input is R143's. An idle block with a host that makes no access
keeps all its state. Where the operations, the turns and the values are kept, and that a `POLL` makes
one read a step, is the model's choice (logs 1, 2, 3, 12, 15, 16). -/
def Obligations.StepMakesTheHostAccess : Prop :=
  (∀ (s : State) (op : HostOp) (rest : List HostOp), s.program = op :: rest → HostMoves s →
    ∃ s' : State, s' = { s with program := rest, turns := if s.busy then s.turns.tail else s.turns } ∧
      (∀ a v, op = .wr a v → step s = .next (memWrite a v s')) ∧
      (∀ a v t, op = .rd a → memRead a s' = .next (v, t) →
        step s = .next { t with reads := v :: t.reads }) ∧
      (∀ a m v w t, op = .poll a m v → memRead a s' = .next (w, t) →
        step s = .next (if w &&& m = v then t else { t with program := .poll a m v :: rest })) ∧
      (∀ a m v, op = .rd a ∨ op = .poll a m v → memRead a s' = .fault .uninit →
        step s = .fault .uninit) ∧
      (op = .reset →
        step s = .next { State.reset with
          roms := s.roms, program := rest, turns := s'.turns, reads := s.reads })) ∧
  ∀ s : State, s.busy = false → s.program = [] → step s = .next s

/-- R82, R24, R25, R26, R31: whatever its command, an engine step that does not stop ends with
`STATUS.BUSY` = 0 and `EVENTS.DONE` = 1, clears no error bit, and writes none of `IRQ_EN`,
`CARRIER_BIN`, the ROMs and the host's side. -/
def Obligations.EngineStepCompletesAndSparesHostRegisters : Prop :=
  ∀ s t : State, EngineMoves s → step s = .next t →
    t.busy = false ∧ t.done = true ∧ s.err &&& t.err = s.err ∧
    t.doneIe = s.doneIe ∧ t.errIe = s.errIe ∧ t.carrierBin = s.carrierBin ∧
    t.roms = s.roms ∧ t.program = s.program ∧ t.turns = s.turns.tail ∧ t.reads = s.reads

/-- R154, R83: a busy window ends. The finite list of turns is the model's form of the fairness the
spec assumes (log 2): within as many steps as it has turns, and one more, `STATUS.BUSY` is 0, or the
model has stopped with its one fault. -/
def Obligations.BusyWindowEnds : Prop :=
  ∀ s : State, s.busy = true →
    ∃ k ≤ s.turns.length + 1,
      (∃ t, core.run k s = .next t ∧ t.busy = false) ∨ core.run k s = .fault .uninit

/-- R51, R121, R125, R133: no command word, whatever the state, is without a meaning; and in a state
whose configuration is sound and whose data words are all written a step never stops, so errors, NaNs
and infinities stop nothing. -/
def Obligations.WrittenMemoryNeverStops : Prop :=
  (∀ (s : State) (r : Refusal), step s ≠ .refused r) ∧
  ∀ s : State, ConfigInv s →
    (∀ a, inDataWindow a = true → (Memory.getByte s.mem a).isSome = true) →
    ∃ t, step s = .next t

/-! ### Reset (10_state R56, 70_reset_and_hazards R143) -/

/-- R56: the state after reset. -/
def Obligations.ResetLeavesTheSpecValues : Prop :=
  (∀ r : Reg, regRead r State.reset =
    if r = .id then 0x53570001 else if r = .carrierBin then 859 else 0) ∧
  (∀ (t : Table) (i : Nat), tableElem t State.reset.roms State.reset.n.toNat i = 0) ∧
  (∀ a, Memory.readWord State.reset.mem a = none) ∧
  irq State.reset = false

/-- The invariant of the machine holds after reset (R29, R30, R53, R26, R27, R34 to R42). -/
def Obligations.ResetMeetsTheInvariant : Prop := Inv State.reset

/-- Every step keeps the invariant: the memory canonical and whole words of the data windows, the
configuration (R29, R30), the Baseline State (R53), the error record (R26, R27), the ranges of the
result registers (R35 to R41). -/
def Obligations.EveryStepKeepsTheInvariant : Prop :=
  ∀ s t : State, Inv s → step s = .next t → Inv t

/-- Every step keeps the memory canonical, also in states no run reaches. -/
def Obligations.EveryStepKeepsMemoryCanonical : Prop :=
  ∀ s t : State, Memory.wf s.mem = true → step s = .next t → Memory.wf t.mem = true

/-! ### Errors and the interrupt (60_exceptions, 10_state R23 to R28) -/

/-- R23, R135: the bits of `STATUS`, among them the derived `ERR_ANY` and the level of `irq`. -/
def Obligations.StatusShowsFlagsAndInterrupt : Prop :=
  ∀ s : State, memRead 0x008 s = .next (statusWord s, s) ∧
    (statusWord s).getLsbD 0 = s.busy ∧ (statusWord s).getLsbD 1 = s.cfgValid ∧
    (statusWord s).getLsbD 2 = s.baseInit ∧ (statusWord s).getLsbD 3 = (s.err != 0) ∧
    (statusWord s).getLsbD 4 = ((s.done && s.doneIe) || ((s.err != 0) && s.errIe)) ∧
    ∀ k, 5 ≤ k → (statusWord s).getLsbD k = false

/-- R26, R137: a host write to `ERR` clears the bits written as 1, and cause and information once no
bit is left; it is taken at any time and changes nothing else. -/
def Obligations.ErrWriteClearsBits : Prop :=
  ∀ (s : State) (v : Word), ∃ t, memWrite 0x014 v s = t ∧
    (∀ k < 7, t.err.getLsbD k = (s.err.getLsbD k && !v.getLsbD k)) ∧
    (t.err = 0 → t.errCause = 0 ∧ t.errInfo = 0) ∧
    (t.err ≠ 0 → t.errCause = s.errCause ∧ t.errInfo = s.errInfo) ∧
    t = { s with err := t.err, errCause := t.errCause, errInfo := t.errInfo }

/-- R22: a write to `CMD` while busy is refused with BUSY and the refused word; otherwise it latches
the word and starts the busy window. A read of `CMD` returns 0 and raises nothing. -/
def Obligations.CmdWriteLatchesOrIsRefused : Prop :=
  ∀ (s : State) (v : Word),
    (s.busy = true → Records .busy v s (memWrite 0x004 v s)) ∧
    (s.busy = false → memWrite 0x004 v s = { s with pending := v, busy := true }) ∧
    memRead 0x004 s = .next (0, s)

/-- R24, R25, R31, R68: a host write to `EVENTS` clears DONE by a 1 and one to `IRQ_EN` stores the two
enables, both at any time; a write to `CARRIER_BIN` stores v[9:0] when idle and raises HAZARD while
busy; the three registers read back at any time. -/
def Obligations.HostRegisterWrites : Prop :=
  ∀ (s : State) (v : Word),
    memWrite 0x00C v s = { s with done := s.done && !v.getLsbD 0 } ∧
    memWrite 0x010 v s = { s with doneIe := v.getLsbD 0, errIe := v.getLsbD 1 } ∧
    (s.busy = false → ∃ t, memWrite 0x028 v s = { s with carrierBin := t } ∧
      t.toNat = v.toNat % 1024) ∧
    (s.busy = true → Records .hazard 0x028 s (memWrite 0x028 v s)) ∧
    ∃ d e c : Word, memRead 0x00C s = .next (d, s) ∧ memRead 0x010 s = .next (e, s) ∧
      memRead 0x028 s = .next (c, s) ∧ d.toNat = (if s.done then 1 else 0) ∧
      e.toNat = (if s.doneIe then 1 else 0) + (if s.errIe then 2 else 0) ∧
      c.toNat = s.carrierBin.toNat

/-- R82, R122, R124: every command that needs a configuration is rejected with NOCFG without one, and
nothing else changes. -/
def Obligations.CommandsWithoutConfigurationAreRejected : Prop :=
  ∀ (s : State) (i : Instr), s.cfgValid = false →
    (i ∈ [Instr.zim, .blkw, .bitrev, .fft, .mag, .extract, .pipe] ∨ ∃ st, i = .stage st) →
    ∃ t, exec i s = .next t ∧ Records .nocfg s.pending s t

/-- R126, R95, R101: `STAGE` with a number at or above `LOG2N`, and `EXTRACT` and `PIPE` with the
window out of range, are rejected with RANGE, and nothing else changes. -/
def Obligations.OutOfRangeCommandsAreRejected : Prop :=
  ∀ s : State, s.cfgValid = true →
    (∀ st, s.log2n.toNat ≤ st →
      ∃ t, exec (.stage st) s = .next t ∧ Records .range s.pending s t) ∧
    (¬ (33 ≤ s.carrierBin.toNat ∧ s.carrierBin.toNat + 33 + 1 ≤ s.n.toNat / 2) →
      (∃ t, exec .extract s = .next t ∧ Records .range s.pending s t) ∧
      (∃ t, exec .pipe s = .next t ∧ Records .range s.pending s t))

/-- R51 (b): a command that reads an element either of whose words is unwritten stops with UNINIT. -/
def Obligations.UnwrittenOperandsStopCommands : Prop :=
  ∀ s : State, ConfigInv s →
    (s.cfgValid = true → ¬ Written s Config.reBase 0 s.n.toNat →
      exec .blkw s = .fault .uninit) ∧
    (s.cfgValid = true →
      ¬ (Written s Config.reBase 0 s.n.toNat ∧ Written s Config.imBase 0 s.n.toNat) →
      exec .bitrev s = .fault .uninit ∧ exec .fft s = .fault .uninit ∧
      ∀ st, st < s.log2n.toNat → exec (.stage st) s = .fault .uninit) ∧
    (s.cfgValid = true →
      ¬ (Written s Config.reBase 0 (s.n.toNat / 2) ∧ Written s Config.imBase 0 (s.n.toNat / 2)) →
      exec .mag s = .fault .uninit) ∧
    (s.cfgValid = true → windowInRange s = true →
      ¬ Written s Config.magBase (s.carrierBin.toNat - 33) 67 → exec .extract s = .fault .uninit) ∧
    (¬ Written s Config.winBase 0 67 → exec .analyze s = .fault .uninit) ∧
    (s.cfgValid = true → windowInRange s = true → ¬ Written s Config.reBase 0 s.n.toNat →
      exec .pipe s = .fault .uninit)

/-! ### The host bus (20_memory) -/

/-- R63: a misaligned access raises BUS with its address; the read returns 0 and the write is
dropped. -/
def Obligations.MisalignedAccessIsABusError : Prop :=
  ∀ (s : State) (a : Addr) (v : Word), a.toNat % 4 ≠ 0 →
    (∃ t, memRead a s = .next (0, t) ∧ Records .bus (a.setWidth 32) s t) ∧
    Records .bus (a.setWidth 32) s (memWrite a v s)

/-- R66: an aligned access to an unmapped address raises BUS with its address; the read returns 0 and
the write is dropped. -/
def Obligations.UnmappedAccessIsABusError : Prop :=
  ∀ (s : State) (a : Addr) (v : Word), a.toNat % 4 = 0 →
    (0x00080 ≤ a.toNat ∧ a.toNat ≤ 0x0FFFF) ∨ (0x1A218 ≤ a.toNat ∧ a.toNat ≤ 0x1BFFF) ∨
      0x24000 ≤ a.toNat →
    (∃ t, memRead a s = .next (0, t) ∧ Records .bus (a.setWidth 32) s t) ∧
    Records .bus (a.setWidth 32) s (memWrite a v s)

/-- R67: an aligned write to a read-only register or to a table window raises BUS with its address and
is dropped; a read of `CMD` returns 0 and raises nothing. -/
def Obligations.ReadOnlyWriteIsABusError : Prop :=
  (∀ (s : State) (a : Addr) (v : Word), a.toNat % 4 = 0 →
    (a.toNat < 0x080 ∧ a.toNat ∉ [0x004, 0x00C, 0x010, 0x014, 0x028]) ∨
      (0x1C000 ≤ a.toNat ∧ a.toNat < 0x24000) →
    Records .bus (a.setWidth 32) s (memWrite a v s)) ∧
  ∀ s : State, memRead 0x004 s = .next (0, s)

/-- R68 check 4, R128: while a command is in flight, an aligned access to an array window raises
HAZARD with its address; the read returns 0 and the write is dropped. -/
def Obligations.ArrayAccessWhileBusyIsAHazard : Prop :=
  ∀ (s : State) (a : Addr) (v : Word), s.busy = true → a.toNat % 4 = 0 →
    ((0x10000 ≤ a.toNat ∧ a.toNat < 0x1A218) ∨ (0x1C000 ≤ a.toNat ∧ a.toNat < 0x24000) →
      ∃ t, memRead a s = .next (0, t) ∧ Records .hazard (a.setWidth 32) s t) ∧
    (0x10000 ≤ a.toNat ∧ a.toNat < 0x1A218 →
      Records .hazard (a.setWidth 32) s (memWrite a v s))

/-- R69: a read has no side effect other than raising an error. -/
def Obligations.ReadsHaveNoSideEffect : Prop :=
  ∀ (s t : State) (a : Addr) (v : Word), memRead a s = .next (v, t) →
    t = s ∨ (v = 0 ∧ ∃ c info, Records c info s t)

/-- R64, R65, R75: an accepted write to a word of RE, IM, MAG or WIN is what the next read of that word
returns; every byte outside the word, and every register, is unchanged. -/
def Obligations.WrittenWordReadsBack : Prop :=
  ∀ (s : State) (a : Addr) (v : Word), s.busy = false → a.toNat % 4 = 0 →
    0x10000 ≤ a.toNat → a.toNat < 0x1A218 →
    ∃ t, memWrite a v s = t ∧ memRead a t = .next (v, t) ∧ SameButMemory s t ∧
      ∀ b, b < a.toNat ∨ a.toNat + 4 ≤ b → Memory.getByte t.mem b = Memory.getByte s.mem b

/-- R61, R62: an element written by two word writes is the concatenation of its high and its low word,
the low word at the lower address. -/
def Obligations.ElementIsHighAndLowWord : Prop :=
  ∀ (s : State) (base i : Nat) (lo hi : Word), s.busy = false →
    (base = Config.reBase ∧ i < 2048) ∨ (base = Config.imBase ∧ i < 2048) ∨
      (base = Config.magBase ∧ i < 1024) ∨ (base = Config.winBase ∧ i < 67) →
    Memory.readElem
      (memWrite (BitVec.ofNat 18 (base + 8 * i + 4)) hi
        (memWrite (BitVec.ofNat 18 (base + 8 * i)) lo s)).mem base i = some (hi ++ lo)

/-- R51 (a), R65: a host read of an aligned word of RE, IM, MAG or WIN with a byte nothing has written
stops with UNINIT. -/
def Obligations.UnwrittenWordReadFaults : Prop :=
  ∀ (s : State) (a : Addr) (k : Nat), s.busy = false → a.toNat % 4 = 0 →
    0x10000 ≤ a.toNat → a.toNat < 0x1A218 → k < 4 →
    Memory.getByte s.mem (a.toNat + k) = none → memRead a s = .fault .uninit

/-- R48, R49, R60, R61: what the table windows read as, for every contents of the ROMs: the words of
the ROM entries inside the configured length and +0.0 beyond it; no read raises an error. -/
def Obligations.TableWindowsReadTheRoms : Prop :=
  ∀ (s : State) (i : Nat), s.busy = false →
    (i < 1024 →
      ∃ c d : F64,
        c = (if s.n ≠ 0 ∧ i < s.n.toNat / 2 then romEntry s.roms.cos defaultCos s.n.toNat i else 0) ∧
        d = (if s.n ≠ 0 ∧ i < s.n.toNat / 2 then romEntry s.roms.sin defaultSin s.n.toNat i else 0) ∧
        memRead (BitVec.ofNat 18 (0x1C000 + 8 * i)) s = .next (c.extractLsb' 0 32, s) ∧
        memRead (BitVec.ofNat 18 (0x1C000 + 8 * i + 4)) s = .next (c.extractLsb' 32 32, s) ∧
        memRead (BitVec.ofNat 18 (0x1E000 + 8 * i)) s = .next (d.extractLsb' 0 32, s) ∧
        memRead (BitVec.ofNat 18 (0x1E000 + 8 * i + 4)) s = .next (d.extractLsb' 32 32, s)) ∧
    (i < 2048 →
      ∃ b : F64,
        b = (if s.n ≠ 0 ∧ i < s.n.toNat then
          romEntry s.roms.blackman defaultBlackman s.n.toNat i else 0) ∧
        memRead (BitVec.ofNat 18 (0x20000 + 8 * i)) s = .next (b.extractLsb' 0 32, s) ∧
        memRead (BitVec.ofNat 18 (0x20000 + 8 * i + 4)) s = .next (b.extractLsb' 32 32, s))

/-- R48, R49: under the default ROMs, the entries at multiples of π/4, for every accepted length, and
the zero ends of the Blackman window (D5, D6). -/
def Obligations.DefaultTablesAtExactAngles : Prop :=
  ∀ k, 1 ≤ k → k ≤ 11 →
    twcElem Roms.default (2 ^ k) 0 = 0x3FF0000000000000 ∧ twsElem Roms.default (2 ^ k) 0 = 0 ∧
    (2 ≤ k → twcElem Roms.default (2 ^ k) (2 ^ k / 4) = 0 ∧
      twsElem Roms.default (2 ^ k) (2 ^ k / 4) = 0xBFF0000000000000) ∧
    (3 ≤ k → twcElem Roms.default (2 ^ k) (2 ^ k / 8) = 0x3FE6A09E667F3BCD ∧
      twsElem Roms.default (2 ^ k) (2 ^ k / 8) = 0xBFE6A09E667F3BCD ∧
      twcElem Roms.default (2 ^ k) (3 * 2 ^ k / 8) = 0xBFE6A09E667F3BCD ∧
      twsElem Roms.default (2 ^ k) (3 * 2 ^ k / 8) = 0xBFE6A09E667F3BCD) ∧
    blkElem Roms.default (2 ^ k) 0 = 0 ∧ blkElem Roms.default (2 ^ k) (2 ^ k - 1) = 0

/-- R21, R26 to R30, R32 to R42, R65: what the host reads, in any state and at each offset, from `ID`,
the error record, the configuration, the Baseline State and the result registers: the fields of
`RESULT` and `PEAKS`, the words of the others, the halves of the three binary64 pairs, and zeros above
the narrow registers. The reads change nothing. -/
def Obligations.ResultRegistersReadTheirFields : Prop :=
  (∀ s : State,
    memRead 0x000 s = .next (0x53570001, s) ∧ memRead 0x01C s = .next (s.errInfo, s) ∧
    memRead 0x02C s = .next (s.baseLeft, s) ∧ memRead 0x030 s = .next (s.baseRight, s) ∧
    memRead 0x038 s = .next (s.results.freq, s) ∧ memRead 0x03C s = .next (s.results.freqQ10, s) ∧
    memRead 0x040 s = .next (s.results.lband, s) ∧ memRead 0x044 s = .next (s.results.rband, s) ∧
    memRead 0x048 s = .next (s.results.lptr, s) ∧ memRead 0x04C s = .next (s.results.rptr, s) ∧
    memRead 0x054 s = .next (s.results.lstart, s) ∧ memRead 0x058 s = .next (s.results.lend, s) ∧
    memRead 0x05C s = .next (s.results.rstart, s) ∧ memRead 0x060 s = .next (s.results.rend, s) ∧
    memRead 0x064 s = .next (s.results.estBin, s)) ∧
  (∀ s : State, ∃ e c n l : Word,
    memRead 0x014 s = .next (e, s) ∧ memRead 0x018 s = .next (c, s) ∧
    memRead 0x020 s = .next (n, s) ∧ memRead 0x024 s = .next (l, s) ∧
    e.toNat = s.err.toNat ∧ c.toNat = s.errCause.toNat ∧ n.toNat = s.n.toNat ∧
    l.toNat = s.log2n.toNat) ∧
  ∀ s : State, ∃ w p pl ph tl th ql qh : Word,
    memRead 0x034 s = .next (w, s) ∧ memRead 0x050 s = .next (p, s) ∧
    memRead 0x068 s = .next (pl, s) ∧ memRead 0x06C s = .next (ph, s) ∧
    memRead 0x070 s = .next (tl, s) ∧ memRead 0x074 s = .next (th, s) ∧
    memRead 0x078 s = .next (ql, s) ∧ memRead 0x07C s = .next (qh, s) ∧
    w.toNat = 256 * (if s.results.valid then 1 else 0) +
      4 * (match s.results.rule with | .a => 0 | .b => 1 | .c => 2 | .d => 3 | .e => 4) +
      (match s.results.dir with | .none => 0 | .pull => 1 | .push => 2) ∧
    p.toNat = (if s.results.lpeak then 1 else 0) + (if s.results.rpeak then 2 else 0) ∧
    ph ++ pl = s.results.peak ∧ th ++ tl = s.results.thr ∧ qh ++ ql = s.results.pthr

/-! ### Transform engine (40_transform) -/

/-- R88, R89: `CFG` with an accepted length, that is 2^k with 1 ≤ k ≤ 11, sets `N`, `LOG2N` and
`STATUS.CFG_VALID` and nothing else; with any other it clears all three and raises CFG. -/
def Obligations.CfgSetsOrClearsTheConfiguration : Prop :=
  (∀ (s : State) (k : Nat), 1 ≤ k → k ≤ 11 →
    exec (.cfg (2 ^ k)) s = .next { s with
      n := BitVec.ofNat 13 (2 ^ k), log2n := BitVec.ofNat 4 k, cfgValid := true }) ∧
  (∀ (s : State) (n : Nat), (∀ k, 1 ≤ k → k ≤ 11 → n ≠ 2 ^ k) →
    ∃ t, exec (.cfg n) s = .next t ∧
      Records .cfg s.pending { s with n := 0, log2n := 0, cfgValid := false } t)

/-- R90: `ZIM` leaves +0.0 in IM[0..N−1] and changes nothing else. -/
def Obligations.ZimZeroesTheImaginaryChannel : Prop :=
  ∀ s : State, s.cfgValid = true →
    ∃ t, exec .zim s = .next t ∧
      (∀ i < s.n.toNat, Memory.readElem t.mem Config.imBase i = some 0) ∧
      SameOutside s t Config.imBase s.n.toNat ∧ SameButMemory s t

/-- R91: `BLKW` multiplies each RE[i], i < N, by BLK[i], and changes nothing else. -/
def Obligations.BlkwMultipliesByTheWindow : Prop :=
  ∀ s : State, s.cfgValid = true → Written s Config.reBase 0 s.n.toNat →
    ∃ t, exec .blkw s = .next t ∧
      (∀ i < s.n.toNat, ∃ x, Memory.readElem s.mem Config.reBase i = some x ∧
        Memory.readElem t.mem Config.reBase i = some (fmul x (blkElem s.roms s.n.toNat i))) ∧
      SameOutside s t Config.reBase s.n.toNat ∧ SameButMemory s t

/-- R92, R93, R11: the swap loop of `BITREV` puts at every i < N the bits that stood at `rev_m(i)`, in
RE and in IM, and changes nothing else; bit t of `rev_m(i)` is bit m − 1 − t of i. -/
def Obligations.BitrevPermutesByBitReversal : Prop :=
  (∀ s : State, ConfigInv s → s.cfgValid = true →
    Written s Config.reBase 0 s.n.toNat → Written s Config.imBase 0 s.n.toNat →
    ∃ t, exec .bitrev s = .next t ∧
      (∀ i < s.n.toNat,
        Memory.readElem t.mem Config.reBase i =
          Memory.readElem s.mem Config.reBase (revBits s.log2n.toNat i) ∧
        Memory.readElem t.mem Config.imBase i =
          Memory.readElem s.mem Config.imBase (revBits s.log2n.toNat i)) ∧
      SameOutsideSpectrum s t s.n.toNat ∧ SameButMemory s t) ∧
  ∀ m i t : Nat, i < 2 ^ m →
    revBits m i < 2 ^ m ∧ (t < m → (revBits m i).testBit t = i.testBit (m - 1 - t))

/-- R92: two `BITREV` commands restore the state. -/
def Obligations.BitrevTwiceRestores : Prop :=
  ∀ s : State, ConfigInv s → Memory.wf s.mem = true → s.cfgValid = true →
    Written s Config.reBase 0 s.n.toNat → Written s Config.imBase 0 s.n.toNat →
    ∃ t, exec .bitrev s = .next t ∧ exec .bitrev t = .next s

/-- R94, R95: `STAGE st` replaces every pair (g + j, g + j + half) by its butterfly with the table
entry j·ts, each operation rounded on its own, and changes nothing else. -/
def Obligations.StageComputesEveryButterfly : Prop :=
  ∀ (s : State) (st : Nat), ConfigInv s → s.cfgValid = true → st < s.log2n.toNat →
    Written s Config.reBase 0 s.n.toNat → Written s Config.imBase 0 s.n.toNat →
    ∃ t, exec (.stage st) s = .next t ∧
      (∀ g j k u : Nat, ∀ c sn xr xi yr yi : F64, j < 2 ^ st →
        k = g * (2 * 2 ^ st) + j → u = k + 2 ^ st → u < s.n.toNat →
        c = twcElem s.roms s.n.toNat (j * (s.n.toNat / (2 * 2 ^ st))) →
        sn = twsElem s.roms s.n.toNat (j * (s.n.toNat / (2 * 2 ^ st))) →
        Memory.readElem s.mem Config.reBase u = some xr →
        Memory.readElem s.mem Config.imBase u = some xi →
        Memory.readElem s.mem Config.reBase k = some yr →
        Memory.readElem s.mem Config.imBase k = some yi →
        Memory.readElem t.mem Config.reBase u =
          some (fsub yr (fsub (fmul c xr) (fmul sn xi))) ∧
        Memory.readElem t.mem Config.imBase u =
          some (fsub yi (fadd (fmul sn xr) (fmul c xi))) ∧
        Memory.readElem t.mem Config.reBase k =
          some (fadd yr (fsub (fmul c xr) (fmul sn xi))) ∧
        Memory.readElem t.mem Config.imBase k =
          some (fadd yi (fadd (fmul sn xr) (fmul c xi)))) ∧
      SameOutsideSpectrum s t s.n.toNat ∧ SameButMemory s t

/-- R96: `FFT` is `BITREV` followed by `STAGE 0` to `STAGE LOG2N−1`, in every outcome. -/
def Obligations.FftIsBitrevThenStages : Prop :=
  ∀ s : State, ConfigInv s → Memory.wf s.mem = true →
    exec .fft s = (List.range s.log2n.toNat).foldl (fun o st => andThen o (exec (.stage st)))
      (exec .bitrev s)

/-- R96, R97: `FFT` completes on written data, stores in RE and IM what the butterfly network computes
in binary64 from them, and changes nothing else. -/
def Obligations.FftStoresTheButterflyNetwork : Prop :=
  ∀ s : State, ConfigInv s → s.cfgValid = true →
    Written s Config.reBase 0 s.n.toNat → Written s Config.imBase 0 s.n.toNat →
    ∃ re im y t, Memory.readElems s.mem Config.reBase 0 s.n.toNat = some re ∧
      Memory.readElems s.mem Config.imBase 0 s.n.toNat = some im ∧
      y = fftChannels binary64 (twcElem s.roms s.n.toNat) (twsElem s.roms s.n.toNat)
        s.log2n.toNat s.n.toNat ⟨re, im⟩ ∧
      exec .fft s = .next t ∧
      Memory.readElems t.mem Config.reBase 0 s.n.toNat = some y.re ∧
      Memory.readElems t.mem Config.imBase 0 s.n.toNat = some y.im ∧
      SameOutsideSpectrum s t s.n.toNat ∧ SameButMemory s t

/-- R97: in exact arithmetic, with the tables' exact cosines and sines, the butterfly network of `FFT`
computes the unnormalised discrete Fourier transform X[k] = Σ x[n]·e^(−2πi·kn/N). -/
def Obligations.ButterflyNetworkIsTheDft : Prop :=
  ∀ (m : Nat) (re im : List ℝ), 1 ≤ m → re.length = 2 ^ m → im.length = 2 ^ m →
    ∃ y : Channels ℝ,
      y = fftChannels ⟨0, (· + ·), (· - ·), (· * ·)⟩
        (fun i => Real.cos (-(2 * Real.pi * i / 2 ^ m)))
        (fun i => Real.sin (-(2 * Real.pi * i / 2 ^ m))) m (2 ^ m) ⟨re, im⟩ ∧
      y.re.length = 2 ^ m ∧ y.im.length = 2 ^ m ∧
      ∀ k < 2 ^ m,
        y.re.getD k 0 = ∑ n ∈ Finset.range (2 ^ m),
          (re.getD n 0 * Real.cos (2 * Real.pi * (k * n) / 2 ^ m) +
            im.getD n 0 * Real.sin (2 * Real.pi * (k * n) / 2 ^ m)) ∧
        y.im.getD k 0 = ∑ n ∈ Finset.range (2 ^ m),
          (im.getD n 0 * Real.cos (2 * Real.pi * (k * n) / 2 ^ m) -
            re.getD n 0 * Real.sin (2 * Real.pi * (k * n) / 2 ^ m))

/-! ### Magnitude and window (41_magnitude) -/

/-- R99: `MAG` leaves in MAG[k], k < N/2, the rounded root of the rounded sum of the rounded squares,
and changes nothing else. -/
def Obligations.MagComputesTheMagnitudes : Prop :=
  ∀ s : State, s.cfgValid = true →
    Written s Config.reBase 0 (s.n.toNat / 2) → Written s Config.imBase 0 (s.n.toNat / 2) →
    ∃ t, exec .mag s = .next t ∧
      (∀ k < s.n.toNat / 2, ∀ x y : F64,
        Memory.readElem s.mem Config.reBase k = some x →
        Memory.readElem s.mem Config.imBase k = some y →
        Memory.readElem t.mem Config.magBase k =
          some (fsqrt (fadd (fmul x x) (fmul y y)))) ∧
      SameOutside s t Config.magBase (s.n.toNat / 2) ∧ SameButMemory s t

/-- R100 (a) to (d): zeros of either sign give +0.0; the result is never negative and never −0.0, or
it is the canonical NaN; a NaN part gives the canonical NaN, even beside an infinity; an infinite
part beside no NaN gives +∞. -/
def Obligations.MagnitudeCornerCases : Prop :=
  ∀ x y : F64,
    (f64Value x = 0 → f64Value y = 0 → isFinite x = true → isFinite y = true →
      fsqrt (fadd (fmul x x) (fmul y y)) = 0) ∧
    (fsqrt (fadd (fmul x x) (fmul y y)) = 0x7FF8000000000000 ∨
      (isNaN (fsqrt (fadd (fmul x x) (fmul y y))) = false ∧
        (fsqrt (fadd (fmul x x) (fmul y y))).msb = false)) ∧
    (isNaN x = true ∨ isNaN y = true →
      fsqrt (fadd (fmul x x) (fmul y y)) = 0x7FF8000000000000) ∧
    (isNaN x = false → isNaN y = false → isFinite x = false ∨ isFinite y = false →
      fsqrt (fadd (fmul x x) (fmul y y)) = 0x7FF0000000000000)

/-- R101, R102: with the window in range, `EXTRACT` copies MAG[cb − 33 + j] to WIN[j] for j < 67 bit
for bit, and changes nothing else. -/
def Obligations.ExtractCopiesTheWindow : Prop :=
  ∀ s : State, s.cfgValid = true → 33 ≤ s.carrierBin.toNat →
    s.carrierBin.toNat + 33 + 1 ≤ s.n.toNat / 2 →
    Written s Config.magBase (s.carrierBin.toNat - 33) 67 →
    ∃ t, exec .extract s = .next t ∧
      (∀ j < 67, Memory.readElem t.mem Config.winBase j =
        Memory.readElem s.mem Config.magBase (s.carrierBin.toNat - 33 + j)) ∧
      SameOutside s t Config.winBase 67 ∧ SameButMemory s t

/-! ### Band analyzer (42_band_analyzer) -/

/-- R104, R109, R113: `ANALYZE` publishes the peak strength and the two thresholds, initialises the
baseline on the first analysis of a session only, and changes nothing but the result registers and
the Baseline State. -/
def Obligations.AnalyzePublishesThresholdsAndBaseline : Prop :=
  ∀ s : State, Written s Config.winBase 0 67 →
    ∃ t, exec .analyze s = .next t ∧ t.results.valid = true ∧
      t.results.peak = winBin s 33 ∧
      t.results.thr = fmul 0x3FB999999999999A (winBin s 33) ∧
      t.results.pthr = fmul 0x3FD3333333333333 (winBin s 33) ∧
      t = { s with
        results := t.results
        baseInit := true
        baseLeft := if s.baseInit then s.baseLeft else 4
        baseRight := if s.baseInit then s.baseRight else 5 }

/-- R105, R107: the bands. The bins from 32 down to 33 − lBand qualify, the next one does not, and
lPtr = 32 − lBand; the bins from 34 up to 33 + rBand qualify, the next one does not, and
rPtr = 34 + rBand. -/
def Obligations.BandsAreTheQualifyingRuns : Prop :=
  ∀ s : State, Written s Config.winBase 0 67 →
    ∃ t, exec .analyze s = .next t ∧
      (t.results.lband.toNat ≤ 33 ∧
        t.results.lptr.toInt = 32 - (t.results.lband.toNat : Int) ∧
        (∀ i, 33 ≤ i + t.results.lband.toNat → i ≤ 32 →
          fge (winBin s i) t.results.thr = true) ∧
        (t.results.lband.toNat < 33 →
          fge (winBin s (32 - t.results.lband.toNat)) t.results.thr = false)) ∧
      t.results.rband.toNat ≤ 33 ∧
        t.results.rptr.toInt = 34 + (t.results.rband.toNat : Int) ∧
        (∀ i, 34 ≤ i → i ≤ 33 + t.results.rband.toNat →
          fge (winBin s i) t.results.thr = true) ∧
        (t.results.rband.toNat < 33 →
          fge (winBin s (34 + t.results.rband.toNat)) t.results.thr = false)

/-- R106, R108: the peaks. The left scan covers the bins below lPtr; `LSTART` is the highest
qualifying one and `LEND` the lowest. The right scan covers the bins above rPtr up to 66; `RSTART` is
the lowest qualifying one and `REND` the highest. Adjacency is not required, and without a peak both
are −1. -/
def Obligations.PeaksSpanTheQualifyingBins : Prop :=
  ∀ s : State, Written s Config.winBase 0 67 →
    ∃ t, exec .analyze s = .next t ∧
      (t.results.lpeak = true ↔
        ∃ i : Nat, (i : Int) < t.results.lptr.toInt ∧ fge (winBin s i) t.results.pthr = true) ∧
      (t.results.lpeak = true → ∃ i j : Nat,
        t.results.lstart.toInt = i ∧ t.results.lend.toInt = j ∧
        (i : Int) < t.results.lptr.toInt ∧ fge (winBin s i) t.results.pthr = true ∧
        fge (winBin s j) t.results.pthr = true ∧
        ∀ k : Nat, (k : Int) < t.results.lptr.toInt → fge (winBin s k) t.results.pthr = true →
          j ≤ k ∧ k ≤ i) ∧
      (t.results.lpeak = false → t.results.lstart.toInt = -1 ∧ t.results.lend.toInt = -1) ∧
      (t.results.rpeak = true ↔ ∃ i : Nat, t.results.rptr.toInt < (i : Int) ∧ i ≤ 66 ∧
        fge (winBin s i) t.results.pthr = true) ∧
      (t.results.rpeak = true → ∃ i j : Nat,
        t.results.rstart.toInt = i ∧ t.results.rend.toInt = j ∧
        t.results.rptr.toInt < (i : Int) ∧ j ≤ 66 ∧ fge (winBin s i) t.results.pthr = true ∧
        fge (winBin s j) t.results.pthr = true ∧
        ∀ k : Nat, t.results.rptr.toInt < (k : Int) → k ≤ 66 →
          fge (winBin s k) t.results.pthr = true → i ≤ k ∧ k ≤ j) ∧
      (t.results.rpeak = false → t.results.rstart.toInt = -1 ∧ t.results.rend.toInt = -1)

/-- R110, R111: the direction, and the frequency bin with the rule that gives it, from the published
bands and peaks and the baseline in force. -/
def Obligations.DirectionAndBinFollowTheRules : Prop :=
  ∀ s : State, Written s Config.winBase 0 67 →
    ∃ t, exec .analyze s = .next t ∧
      (t.results.dir = .push ↔
        t.baseRight.toNat < t.results.rband.toNat ∨ t.results.rpeak = true) ∧
      (t.results.dir = .pull ↔
        ¬ (t.baseRight.toNat < t.results.rband.toNat ∨ t.results.rpeak = true) ∧
        (t.baseLeft.toNat < t.results.lband.toNat ∨ t.results.lpeak = true)) ∧
      (if t.baseLeft.toNat < t.results.lband.toNat then
        t.results.rule = .a ∧ t.results.estBin.toInt = 33 - (t.results.lband.toNat : Int)
      else if t.baseRight.toNat < t.results.rband.toNat then
        t.results.rule = .b ∧ t.results.estBin.toInt = 33 + (t.results.rband.toNat : Int)
      else if t.results.lpeak = true then
        t.results.rule = .c ∧ t.results.estBin.toInt =
          t.results.lstart.toInt - (t.results.lstart.toInt - t.results.lend.toInt) / 2
      else if t.results.rpeak = true then
        t.results.rule = .d ∧ t.results.estBin.toInt =
          t.results.rstart.toInt + (t.results.rend.toInt - t.results.rstart.toInt) / 2
      else t.results.rule = .e ∧ t.results.estBin.toInt = 33)

/-- R112: the exact frequency times 1024 and the integer frequency of the published bin; the mapping
gives 18500 Hz at bin 33 and is symmetric around it. -/
def Obligations.FrequencyFollowsTheBin : Prop :=
  (∀ s : State, Written s Config.winBase 0 67 →
    ∃ t, exec .analyze s = .next t ∧ t.results.estBin.toNat ≤ 66 ∧
      (t.results.freqQ10.toNat : Int) = ((t.results.estBin.toNat : Int) - 33) * 22050 + 18944000 ∧
      t.results.freq.toNat = t.results.freqQ10.toNat / 1024) ∧
  freqQ10 33 = 18944000 ∧ freqHz 33 = 18500 ∧
  ∀ k : Int, freqQ10 (33 + k) - 18944000 = 18944000 - freqQ10 (33 - k)

/-- R116: the left scans of a mirrored window are the right scans of the window, mirrored. -/
def Obligations.ScansAreMirrorSymmetric : Prop :=
  ∀ w : List F64, w.length = 67 →
    (leftBand w.reverse).1 = (rightBand w).1 ∧
    (leftBand w.reverse).2 = 66 - ((rightBand w).2 : Int) ∧
    (leftPeak w.reverse).found = (rightPeak w).found ∧
    ((rightPeak w).found = true →
      (leftPeak w.reverse).first = 66 - (rightPeak w).first ∧
      (leftPeak w.reverse).last = 66 - (rightPeak w).last)

/-- R114 (b), (f): a NaN at the carrier gives no band, no peak, direction None and 18500 Hz; a flat
window of a finite value p ≥ 0, zeros of both signs among them, gives full bands on both sides,
direction Push, rule a and 17789 Hz. -/
def Obligations.NanCarrierAndFlatWindow : Prop :=
  (∀ s : State, Written s Config.winBase 0 67 → isNaN (winBin s 33) = true →
    ∃ t, exec .analyze s = .next t ∧ t.results.lband = 0 ∧ t.results.rband = 0 ∧
      t.results.lptr = 32 ∧ t.results.rptr = 34 ∧ t.results.lpeak = false ∧
      t.results.rpeak = false ∧ t.results.dir = .none ∧ t.results.rule = .e ∧
      t.results.freq = 18500) ∧
  ∀ (s : State) (p : F64), BaselineInv s → isFinite p = true → 0 ≤ f64Value p →
    (∀ i < 67, Memory.readElem s.mem Config.winBase i = some p) →
    ∃ t, exec .analyze s = .next t ∧ t.results.lband = 33 ∧ t.results.rband = 33 ∧
      t.results.dir = .push ∧ t.results.rule = .a ∧ t.results.estBin = 0 ∧ t.results.freq = 17789

/-- R115: `NEWSES` clears the Baseline State and changes nothing else. -/
def Obligations.NewsesClearsTheBaseline : Prop :=
  ∀ s : State, exec .newses s =
    .next { s with baseInit := false, baseLeft := 0, baseRight := 0 }

/-! ### Sequencing (43_sequencing) -/

/-- R117: `NOP` has no effect of its own; its engine step clears `STATUS.BUSY` and sets
`EVENTS.DONE`. -/
def Obligations.NopOnlyCompletes : Prop :=
  ∀ s : State, exec .nop s = .next s ∧
    (EngineMoves s → s.pending = 0 →
      step s = .next { s with turns := s.turns.tail, busy := false, done := true })

/-- R118: an accepted `PIPE` is the sequence `ZIM`, `FFT`, `MAG`, `EXTRACT`, `ANALYZE`, bit for bit. -/
def Obligations.PipeIsTheCommandSequence : Prop :=
  ∀ s : State, s.cfgValid = true → 33 ≤ s.carrierBin.toNat →
    s.carrierBin.toNat + 33 + 1 ≤ s.n.toNat / 2 →
    exec .pipe s =
      andThen (andThen (andThen (andThen (exec .zim s) (exec .fft)) (exec .mag)) (exec .extract))
        (exec .analyze)

/-- R118: `PIPE` completes when the window is in range and the frame RE[0..N−1] is written, IM written
or not; it writes RE, IM, MAG and WIN inside their lengths, the result registers and the Baseline
State, and nothing else. -/
def Obligations.PipeCompletesOnAWrittenFrame : Prop :=
  ∀ s : State, ConfigInv s → s.cfgValid = true → 33 ≤ s.carrierBin.toNat →
    s.carrierBin.toNat + 33 + 1 ≤ s.n.toNat / 2 → Written s Config.reBase 0 s.n.toNat →
    ∃ t, exec .pipe s = .next t ∧ t.results.valid = true ∧ t.baseInit = true ∧
      t = { s with
        mem := t.mem
        results := t.results
        baseInit := true
        baseLeft := if s.baseInit then s.baseLeft else 4
        baseRight := if s.baseInit then s.baseRight else 5 } ∧
      ∀ a, (a < Config.reBase ∨ Config.reBase + 8 * s.n.toNat ≤ a) →
        (a < Config.imBase ∨ Config.imBase + 8 * s.n.toNat ≤ a) →
        (a < Config.magBase ∨ Config.magBase + 8 * (s.n.toNat / 2) ≤ a) →
        (a < Config.winBase ∨ Config.winBase + 8 * 67 ≤ a) →
        Memory.getByte t.mem a = Memory.getByte s.mem a

/-! ### Binary64 arithmetic (00_scope R13) -/

/-- R13: rounding is to the nearest finite number, with ties to an even encoding, and keeps the sign;
it overflows to the infinity of the sign exactly from half a unit above the largest finite number
on. -/
def Obligations.RoundingIsToNearestEven : Prop :=
  (∀ (neg : Bool) (m : Nat) (q : Int) (r y : F64) (x : ℚ),
    r = roundDyadic neg m q → x = (if neg then -1 else 1) * (m : ℚ) * (2 : ℚ) ^ q →
    isFinite r = true → isFinite y = true →
    r.msb = neg ∧ |x - f64Value r| ≤ |x - f64Value y| ∧
    (|x - f64Value r| = |x - f64Value y| → f64Value y ≠ f64Value r → r.getLsbD 0 = false)) ∧
  ∀ (neg : Bool) (m : Nat) (q : Int),
    (isFinite (roundDyadic neg m q) = false ↔
      ((2 : ℚ) ^ 54 - 1) * (2 : ℚ) ^ 970 ≤ (m : ℚ) * (2 : ℚ) ^ q) ∧
    (isFinite (roundDyadic neg m q) = false →
      roundDyadic neg m q = if neg then 0xFFF0000000000000 else 0x7FF0000000000000)

/-- R13 (log 9): on finite operands, sum, difference and product are the exact results rounded once;
an exact zero sum is +0.0 unless both addends are negative zeros, and the sign of a product is the
exclusive or of the signs. An infinity plus or minus a finite number is the infinity, a finite number
minus an infinity the opposite infinity, two infinities give the infinity they agree on or a NaN, and
an infinite factor gives an infinity of the product's sign, but a NaN beside a zero. -/
def Obligations.ArithmeticRoundsTheExactResultOnce : Prop :=
  (∀ a b : F64, isFinite a = true → isFinite b = true →
    (∃ (neg : Bool) (m : Nat) (q : Int),
      (if neg then -1 else 1) * (m : ℚ) * (2 : ℚ) ^ q = f64Value a * f64Value b ∧
      neg = (a.msb ^^ b.msb) ∧ fmul a b = roundDyadic neg m q) ∧
    (f64Value a + f64Value b ≠ 0 → ∃ (neg : Bool) (m : Nat) (q : Int),
      (if neg then -1 else 1) * (m : ℚ) * (2 : ℚ) ^ q = f64Value a + f64Value b ∧
        fadd a b = roundDyadic neg m q) ∧
    (f64Value a + f64Value b = 0 →
      fadd a b = if a.msb && b.msb then 0x8000000000000000 else 0) ∧
    (f64Value a - f64Value b ≠ 0 → ∃ (neg : Bool) (m : Nat) (q : Int),
      (if neg then -1 else 1) * (m : ℚ) * (2 : ℚ) ^ q = f64Value a - f64Value b ∧
        fsub a b = roundDyadic neg m q) ∧
    (f64Value a - f64Value b = 0 →
      fsub a b = if a.msb && !b.msb then 0x8000000000000000 else 0)) ∧
  (∀ a b : F64, isFinite a = false → isNaN a = false → isFinite b = true →
    fadd a b = a ∧ fadd b a = a ∧ fsub a b = a ∧
    fsub b a = (if a.msb then 0x7FF0000000000000 else 0xFFF0000000000000) ∧
    (f64Value b = 0 → fmul a b = 0x7FF8000000000000 ∧ fmul b a = 0x7FF8000000000000) ∧
    (f64Value b ≠ 0 →
      fmul a b = (if a.msb ^^ b.msb then 0xFFF0000000000000 else 0x7FF0000000000000) ∧
      fmul b a = (if a.msb ^^ b.msb then 0xFFF0000000000000 else 0x7FF0000000000000))) ∧
  ∀ a b : F64, isFinite a = false → isNaN a = false → isFinite b = false → isNaN b = false →
    (a = b → fadd a b = a ∧ fsub a b = 0x7FF8000000000000) ∧
    (a ≠ b → fadd a b = 0x7FF8000000000000 ∧ fsub a b = a) ∧
    fmul a b = (if a.msb ^^ b.msb then 0xFFF0000000000000 else 0x7FF0000000000000)

/-- R13 (log 9): the square root of a positive finite number is a finite number nearest its real
square root, without the sign bit. The root of a zero is that zero, of +∞ it is +∞, of a negative
number and of −∞ the canonical NaN. -/
def Obligations.SquareRootIsNearest : Prop :=
  (∀ x y : F64, isFinite x = true → 0 < f64Value x → isFinite y = true →
    isFinite (fsqrt x) = true ∧ (fsqrt x).msb = false ∧
    |Real.sqrt (f64Value x : ℝ) - (f64Value (fsqrt x) : ℝ)| ≤
      |Real.sqrt (f64Value x : ℝ) - (f64Value y : ℝ)|) ∧
  (∀ x : F64, isFinite x = true → f64Value x = 0 → fsqrt x = x) ∧
  (∀ x : F64, isFinite x = true → f64Value x < 0 → fsqrt x = 0x7FF8000000000000) ∧
  fsqrt 0x7FF0000000000000 = 0x7FF0000000000000 ∧ fsqrt 0xFFF0000000000000 = 0x7FF8000000000000

/-- R13, D3: every NaN result is the canonical quiet NaN, and a NaN operand gives one. -/
def Obligations.NanResultsAreCanonical : Prop :=
  ∀ a b : F64,
    (isNaN a = true ∨ isNaN b = true → fadd a b = 0x7FF8000000000000 ∧
      fsub a b = 0x7FF8000000000000 ∧ fmul a b = 0x7FF8000000000000) ∧
    (isNaN a = true → fsqrt a = 0x7FF8000000000000) ∧
    ∀ r ∈ [fadd a b, fsub a b, fmul a b, fsqrt a], isNaN r = true → r = 0x7FF8000000000000

/-- R13 (log 9): `fge` is the order of the values on finite numbers, so −0 equals +0, and is false
beside a NaN. Among numbers that are no NaN, +∞ is at least all and −∞ at most all, and only they reach
themselves. -/
def Obligations.ComparisonIsTheRealOrder : Prop :=
  ∀ a b : F64,
    (isFinite a = true → isFinite b = true → (fge a b = true ↔ f64Value b ≤ f64Value a)) ∧
    (isNaN a = true ∨ isNaN b = true → fge a b = false) ∧
    (isNaN a = false →
      fge 0x7FF0000000000000 a = true ∧ fge a 0xFFF0000000000000 = true ∧
      (fge a 0x7FF0000000000000 = true ↔ a = 0x7FF0000000000000) ∧
      (fge 0xFFF0000000000000 a = true ↔ a = 0xFFF0000000000000))
end

