-- ==== Sys2Proof/Laws/Memory.lean ====
section
/-! SUPPORT. The laws of the data memory: a read after a write to the same place gives the value
written, a write leaves every other place alone, every operation keeps the canonical form, and two
canonical memories with the same bytes are equal. -/

namespace Sys2Proof.Machine.Memory

@[simp] theorem getByte_nil (a : Nat) : getByte [] a = none := rfl

@[simp] theorem getByte_setByte_same (m : Memory) (a : Nat) (b : Byte) :
    getByte (setByte m a b) a = some b := by
  induction m with
  | nil => simp [setByte, getByte]
  | cons c rest ih =>
    obtain ⟨k, v⟩ := c
    simp only [setByte]
    split
    · simp [getByte]
    · split
      · simp [getByte]
      · rename_i h1 h2
        have : k ≠ a := fun h => h2 h.symm
        simp [getByte, this, ih]

theorem getByte_setByte_other (m : Memory) (a a' : Nat) (b : Byte) (h : a' ≠ a) :
    getByte (setByte m a b) a' = getByte m a' := by
  have h' : a ≠ a' := fun e => h e.symm
  induction m with
  | nil => simp [setByte, getByte, h']
  | cons c rest ih =>
    obtain ⟨k, v⟩ := c
    simp only [setByte]
    split
    · simp [getByte, h']
    · split
      · rename_i _ hk
        subst hk
        simp [getByte, h']
      · simp only [getByte, ih]

theorem getByte_setByte (m : Memory) (a a' : Nat) (b : Byte) :
    getByte (setByte m a b) a' = if a' = a then some b else getByte m a' := by
  split
  · subst a'; simp
  · exact getByte_setByte_other m a a' b ‹_›

/-- The canonical form is that the addresses rise strictly. -/
theorem wf_iff_pairwise (m : Memory) : wf m = true ↔ m.Pairwise (fun c d => c.1 < d.1) := by
  induction m with
  | nil => simp [wf]
  | cons c rest ih =>
    cases rest with
    | nil => simp [wf]
    | cons d rest =>
      obtain ⟨a, x⟩ := c
      obtain ⟨b, y⟩ := d
      simp only [wf, Bool.and_eq_true, decide_eq_true_eq, ih]
      constructor
      · rintro ⟨hab, hp⟩
        refine List.Pairwise.cons ?_ hp
        intro e he
        rcases List.mem_cons.1 he with rfl | he
        · exact hab
        · exact lt_trans hab ((List.pairwise_cons.1 hp).1 e he)
      · intro hp
        exact ⟨(List.pairwise_cons.1 hp).1 (b, y) (by simp), (List.pairwise_cons.1 hp).2⟩

theorem mem_setByte {m : Memory} {a : Nat} {b : Byte} {c : Host.Cell} (h : c ∈ setByte m a b) :
    c = (a, b) ∨ c ∈ m := by
  induction m with
  | nil => simpa [setByte] using h
  | cons d rest ih =>
    obtain ⟨k, v⟩ := d
    simp only [setByte] at h
    split at h
    · simpa using h
    · split at h
      · rcases List.mem_cons.1 h with h | h
        · exact .inl h
        · exact .inr (List.mem_cons_of_mem _ h)
      · rcases List.mem_cons.1 h with h | h
        · exact .inr (h ▸ List.mem_cons_self)
        · exact (ih h).imp id (List.mem_cons_of_mem _)

theorem wf_setByte {m : Memory} (h : wf m = true) (a : Nat) (b : Byte) :
    wf (setByte m a b) = true := by
  rw [wf_iff_pairwise] at *
  induction m with
  | nil => simp [setByte]
  | cons c rest ih =>
    obtain ⟨k, v⟩ := c
    obtain ⟨h1, h2⟩ := List.pairwise_cons.1 h
    simp only [setByte]
    split
    · rename_i hlt
      refine List.Pairwise.cons ?_ h
      intro e he
      rcases List.mem_cons.1 he with rfl | he
      · exact hlt
      · exact lt_trans hlt (h1 e he)
    · split
      · rename_i _ heq
        subst heq
        exact List.Pairwise.cons h1 h2
      · refine List.Pairwise.cons ?_ (ih h2)
        intro e he
        rcases mem_setByte he with rfl | he
        · show k < a
          omega
        · exact h1 e he

theorem getByte_eq_none_of_lt {m : Memory} {a : Nat} (h : ∀ c ∈ m, a < c.1) : getByte m a = none := by
  induction m with
  | nil => rfl
  | cons c rest ih =>
    obtain ⟨k, v⟩ := c
    have hk : k ≠ a := by
      have := h (k, v) (by simp)
      simp at this
      omega
    simp [getByte, hk, ih fun d hd => h d (List.mem_cons_of_mem _ hd)]

/-- Two canonical memories that read the same at every address are the same list. -/
theorem ext_of_wf {m m' : Memory} (h : wf m = true) (h' : wf m' = true)
    (e : ∀ a, getByte m a = getByte m' a) : m = m' := by
  rw [wf_iff_pairwise] at h h'
  induction m generalizing m' with
  | nil =>
    cases m' with
    | nil => rfl
    | cons c rest => simpa [getByte] using e c.1
  | cons c rest ih =>
    cases m' with
    | nil => simpa [getByte] using e c.1
    | cons d rest' =>
      obtain ⟨k, v⟩ := c
      obtain ⟨l, w⟩ := d
      obtain ⟨h1, h2⟩ := List.pairwise_cons.1 h
      obtain ⟨h1', h2'⟩ := List.pairwise_cons.1 h'
      have hkl : k = l := by
        rcases lt_trichotomy k l with hlt | heq | hlt
        · have := e k
          rw [getByte_eq_none_of_lt (m := (l, w) :: rest') (a := k) (by
            intro c hc
            rcases List.mem_cons.1 hc with rfl | hc
            · exact hlt
            · exact lt_trans hlt (h1' c hc))] at this
          simp [getByte] at this
        · exact heq
        · have := e l
          rw [getByte_eq_none_of_lt (m := (k, v) :: rest) (a := l) (by
            intro c hc
            rcases List.mem_cons.1 hc with rfl | hc
            · exact hlt
            · exact lt_trans hlt (h1 c hc))] at this
          simp [getByte] at this
      subst hkl
      have hvw : v = w := by simpa [getByte] using e k
      subst hvw
      congr 1
      refine ih h2 h2' fun a => ?_
      by_cases ha : k = a
      · subst ha
        rw [getByte_eq_none_of_lt h1, getByte_eq_none_of_lt h1']
      · simpa [getByte, ha] using e a

/-! ### Words -/

theorem getByte_writeWord_other (m : Memory) (a a' : Nat) (v : Word) (h : a' < a ∨ a + 4 ≤ a') :
    getByte (writeWord m a v) a' = getByte m a' := by
  simp only [writeWord, getByte_setByte]
  rw [if_neg (by omega), if_neg (by omega), if_neg (by omega), if_neg (by omega)]

theorem wf_writeWord {m : Memory} (h : wf m = true) (a : Nat) (v : Word) :
    wf (writeWord m a v) = true :=
  wf_setByte (wf_setByte (wf_setByte (wf_setByte h _ _) _ _) _ _) _ _

theorem bytes_append (v : Word) :
    v.extractLsb' 24 8 ++ v.extractLsb' 16 8 ++ v.extractLsb' 8 8 ++ v.extractLsb' 0 8 = v := by
  ext i hi
  simp only [BitVec.getElem_append, BitVec.getElem_extractLsb']
  split
  · simp [BitVec.getLsbD_eq_getElem hi]
  · split
    · simp only [show 8 + (i - 8) = i by omega, BitVec.getLsbD_eq_getElem hi]
    · split
      · simp only [show 16 + (i - 8 - 8) = i by omega, BitVec.getLsbD_eq_getElem hi]
      · simp only [show 24 + (i - 8 - 8 - 8) = i by omega, BitVec.getLsbD_eq_getElem hi]

@[simp] theorem readWord_writeWord_same (m : Memory) (a : Nat) (v : Word) :
    readWord (writeWord m a v) a = some v := by
  have h0 : getByte (writeWord m a v) a = some (v.extractLsb' 0 8) := by
    simp [writeWord, getByte_setByte]
  have h1 : getByte (writeWord m a v) (a + 1) = some (v.extractLsb' 8 8) := by
    simp [writeWord, getByte_setByte]
  have h2 : getByte (writeWord m a v) (a + 2) = some (v.extractLsb' 16 8) := by
    simp [writeWord, getByte_setByte]
  have h3 : getByte (writeWord m a v) (a + 3) = some (v.extractLsb' 24 8) := by
    simp [writeWord]
  simp only [readWord, h0, h1, h2, h3]
  exact congrArg some (bytes_append v)

theorem readWord_congr {m m' : Memory} {a : Nat}
    (h : ∀ k < 4, getByte m (a + k) = getByte m' (a + k)) : readWord m a = readWord m' a := by
  have h0 := h 0 (by omega)
  rw [Nat.add_zero] at h0
  simp only [readWord, h0, h 1 (by omega), h 2 (by omega), h 3 (by omega)]

theorem readWord_writeWord_other (m : Memory) (a a' : Nat) (v : Word) (h : a' + 4 ≤ a ∨ a + 4 ≤ a') :
    readWord (writeWord m a v) a' = readWord m a' :=
  readWord_congr fun k hk => getByte_writeWord_other m a (a' + k) v (by omega)

/-! ### Elements -/

theorem words_append (x : F64) : highWord x ++ lowWord x = x := by
  ext i hi
  simp only [highWord, lowWord, BitVec.getElem_append, BitVec.getElem_extractLsb']
  split
  · simp [BitVec.getLsbD_eq_getElem hi]
  · simp only [show 32 + (i - 32) = i by omega, BitVec.getLsbD_eq_getElem hi]

theorem lowWord_append (hi lo : Word) : lowWord (hi ++ lo) = lo := by
  ext i h
  simp only [lowWord, BitVec.getElem_extractLsb', BitVec.getLsbD_append, Nat.zero_add]
  simp [h]

theorem highWord_append (hi lo : Word) : highWord (hi ++ lo) = hi := by
  ext i h
  simp only [highWord, BitVec.getElem_extractLsb', BitVec.getLsbD_append]
  simp [BitVec.getLsbD_eq_getElem h]

theorem getByte_writeElem_other (m : Memory) (base i a : Nat) (x : F64)
    (h : a < base + 8 * i ∨ base + 8 * i + 8 ≤ a) :
    getByte (writeElem m base i x) a = getByte m a := by
  rw [writeElem, getByte_writeWord_other _ _ _ _ (by omega), getByte_writeWord_other _ _ _ _ (by omega)]

theorem wf_writeElem {m : Memory} (h : wf m = true) (base i : Nat) (x : F64) :
    wf (writeElem m base i x) = true :=
  wf_writeWord (wf_writeWord h _ _) _ _

@[simp] theorem readElem_writeElem_same (m : Memory) (base i : Nat) (x : F64) :
    readElem (writeElem m base i x) base i = some x := by
  rw [readElem, writeElem, readWord_writeWord_other _ _ _ _ (by omega), readWord_writeWord_same,
    readWord_writeWord_same]
  exact congrArg some (words_append x)

theorem readElem_congr {m m' : Memory} {base i : Nat}
    (h : ∀ k < 8, getByte m (base + 8 * i + k) = getByte m' (base + 8 * i + k)) :
    readElem m base i = readElem m' base i := by
  have h1 : readWord m (base + 8 * i) = readWord m' (base + 8 * i) :=
    readWord_congr fun k hk => h k (by omega)
  have h2 : readWord m (base + 8 * i + 4) = readWord m' (base + 8 * i + 4) :=
    readWord_congr fun k hk => by
      have := h (4 + k) (by omega)
      simpa [Nat.add_assoc] using this
  simp only [readElem, h1, h2]

theorem readElem_writeElem_other (m : Memory) (base i base' i' : Nat) (x : F64)
    (h : base' + 8 * i' + 8 ≤ base + 8 * i ∨ base + 8 * i + 8 ≤ base' + 8 * i') :
    readElem (writeElem m base i x) base' i' = readElem m base' i' :=
  readElem_congr fun k hk => getByte_writeElem_other m base i _ x (by omega)

/-! ### Runs of elements -/

theorem getByte_writeElems_other (m : Memory) (base i a : Nat) (xs : List F64)
    (h : a < base + 8 * i ∨ base + 8 * (i + xs.length) ≤ a) :
    getByte (writeElems m base i xs) a = getByte m a := by
  induction xs generalizing m i with
  | nil => rfl
  | cons x xs ih =>
    simp only [List.length_cons] at h
    rw [writeElems, ih _ _ (by omega), getByte_writeElem_other _ _ _ _ _ (by omega)]

theorem wf_writeElems {m : Memory} (h : wf m = true) (base i : Nat) (xs : List F64) :
    wf (writeElems m base i xs) = true := by
  induction xs generalizing m i with
  | nil => exact h
  | cons x xs ih => exact ih (wf_writeElem h base i x) (i + 1)

theorem readElem_writeElems_other (m : Memory) (base i base' i' : Nat) (xs : List F64)
    (h : base' + 8 * i' + 8 ≤ base + 8 * i ∨ base + 8 * (i + xs.length) ≤ base' + 8 * i') :
    readElem (writeElems m base i xs) base' i' = readElem m base' i' :=
  readElem_congr fun k hk => getByte_writeElems_other m base i _ xs (by omega)

theorem readElem_writeElems (m : Memory) (base i j : Nat) (xs : List F64) (hj : j < xs.length) :
    readElem (writeElems m base i xs) base (i + j) = some xs[j] := by
  induction xs generalizing m i j with
  | nil => simp at hj
  | cons x xs ih =>
    cases j with
    | zero =>
      rw [writeElems, readElem_writeElems_other _ _ _ _ _ _ (by omega)]
      simp
    | succ j =>
      simp only [List.length_cons] at hj
      have := ih (writeElem m base i x) (i + 1) j (by omega)
      simpa [writeElems, Nat.add_assoc, Nat.add_comm 1 j] using this

/-- A run of elements reads as a list exactly when each element reads as the list's. -/
theorem readElems_eq_some (m : Memory) (base i len : Nat) (xs : List F64) :
    readElems m base i len = some xs ↔
      xs.length = len ∧ ∀ j (hj : j < xs.length), readElem m base (i + j) = some xs[j] := by
  induction len generalizing i xs with
  | zero =>
    simp only [readElems, Option.some.injEq, List.length_eq_zero_iff]
    constructor
    · rintro rfl; simp
    · rintro ⟨rfl, _⟩; rfl
  | succ len ih =>
    simp only [readElems]
    constructor
    · intro h
      split at h
      · rename_i x ys hx hys
        cases h
        obtain ⟨hl, hr⟩ := (ih _ _).1 hys
        refine ⟨by simp [hl], ?_⟩
        intro j hj
        cases j with
        | zero => simpa using hx
        | succ j =>
          have := hr j (by simpa using hj)
          simpa [Nat.add_assoc, Nat.add_comm 1 j] using this
      · cases h
    · rintro ⟨hl, hr⟩
      cases xs with
      | nil => simp at hl
      | cons x ys =>
        have hx : readElem m base i = some x := hr 0 (Nat.succ_pos _)
        have hys : readElems m base (i + 1) len = some ys := by
          refine (ih _ _).2 ⟨by simpa using hl, fun j hj => ?_⟩
          have := hr (j + 1) (by simpa using hj)
          simpa [Nat.add_assoc, Nat.add_comm 1 j] using this
        simp [hx, hys]

/-- A run of elements reads as some list exactly when each element is written. -/
theorem readElems_isSome (m : Memory) (base i len : Nat) :
    (readElems m base i len).isSome = true ↔
      ∀ j < len, (readElem m base (i + j)).isSome = true := by
  induction len generalizing i with
  | zero => simp [readElems]
  | succ len ih =>
    simp only [readElems]
    constructor
    · intro h j hj
      split at h
      · rename_i x ys hx hys
        cases j with
        | zero => simp [hx]
        | succ j =>
          have := (ih (i + 1)).1 (by simp [hys]) j (by omega)
          simpa [Nat.add_assoc, Nat.add_comm 1 j] using this
      · simp at h
    · intro h
      obtain ⟨x, hx⟩ := Option.isSome_iff_exists.1 (h 0 (by omega))
      obtain ⟨ys, hys⟩ := Option.isSome_iff_exists.1 ((ih (i + 1)).2 fun j hj => by
        have := h (j + 1) (by omega)
        simpa [Nat.add_assoc, Nat.add_comm 1 j] using this)
      rw [Nat.add_zero] at hx
      simp [hx, hys]

/-- The memory at reset is canonical. -/
theorem wf_reset : wf State.reset.mem = true := rfl

end Sys2Proof.Machine.Memory
end

