-- ==== Sys2Proof/Laws/State.lean ====
section
/-! SUPPORT. One lemma per field for each named update of the state, so that no proof unfolds a
record update. -/

namespace Sys2Proof.Machine

/-! ### Recording an error -/

@[simp] theorem raise_busy (c : Cause) (w : Word) (s : State) : (raise c w s).busy = s.busy := rfl

@[simp] theorem raise_cfgValid (c : Cause) (w : Word) (s : State) : (raise c w s).cfgValid = s.cfgValid := rfl

@[simp] theorem raise_baseInit (c : Cause) (w : Word) (s : State) : (raise c w s).baseInit = s.baseInit := rfl

@[simp] theorem raise_done (c : Cause) (w : Word) (s : State) : (raise c w s).done = s.done := rfl

@[simp] theorem raise_doneIe (c : Cause) (w : Word) (s : State) : (raise c w s).doneIe = s.doneIe := rfl

@[simp] theorem raise_errIe (c : Cause) (w : Word) (s : State) : (raise c w s).errIe = s.errIe := rfl

@[simp] theorem raise_err (c : Cause) (w : Word) (s : State) :
    (raise c w s).err = s.err ||| c.mask := rfl

@[simp] theorem raise_errCause (c : Cause) (w : Word) (s : State) :
    (raise c w s).errCause = (if s.err = 0 then c.code else s.errCause) := rfl

@[simp] theorem raise_errInfo (c : Cause) (w : Word) (s : State) :
    (raise c w s).errInfo = (if s.err = 0 then w else s.errInfo) := rfl

@[simp] theorem raise_n (c : Cause) (w : Word) (s : State) : (raise c w s).n = s.n := rfl

@[simp] theorem raise_log2n (c : Cause) (w : Word) (s : State) : (raise c w s).log2n = s.log2n := rfl

@[simp] theorem raise_carrierBin (c : Cause) (w : Word) (s : State) : (raise c w s).carrierBin = s.carrierBin := rfl

@[simp] theorem raise_baseLeft (c : Cause) (w : Word) (s : State) : (raise c w s).baseLeft = s.baseLeft := rfl

@[simp] theorem raise_baseRight (c : Cause) (w : Word) (s : State) : (raise c w s).baseRight = s.baseRight := rfl

@[simp] theorem raise_results (c : Cause) (w : Word) (s : State) : (raise c w s).results = s.results := rfl

@[simp] theorem raise_pending (c : Cause) (w : Word) (s : State) : (raise c w s).pending = s.pending := rfl

@[simp] theorem raise_mem (c : Cause) (w : Word) (s : State) : (raise c w s).mem = s.mem := rfl

@[simp] theorem raise_roms (c : Cause) (w : Word) (s : State) : (raise c w s).roms = s.roms := rfl

@[simp] theorem raise_program (c : Cause) (w : Word) (s : State) : (raise c w s).program = s.program := rfl

@[simp] theorem raise_turns (c : Cause) (w : Word) (s : State) : (raise c w s).turns = s.turns := rfl

@[simp] theorem raise_reads (c : Cause) (w : Word) (s : State) : (raise c w s).reads = s.reads := rfl

/-! ### Acknowledging errors -/

@[simp] theorem acknowledge_busy (v : Word) (s : State) : (acknowledge v s).busy = s.busy := rfl

@[simp] theorem acknowledge_cfgValid (v : Word) (s : State) : (acknowledge v s).cfgValid = s.cfgValid := rfl

@[simp] theorem acknowledge_baseInit (v : Word) (s : State) : (acknowledge v s).baseInit = s.baseInit := rfl

@[simp] theorem acknowledge_done (v : Word) (s : State) : (acknowledge v s).done = s.done := rfl

@[simp] theorem acknowledge_doneIe (v : Word) (s : State) : (acknowledge v s).doneIe = s.doneIe := rfl

@[simp] theorem acknowledge_errIe (v : Word) (s : State) : (acknowledge v s).errIe = s.errIe := rfl

@[simp] theorem acknowledge_err (v : Word) (s : State) :
    (acknowledge v s).err = s.err &&& ~~~(v.setWidth 7) := rfl

@[simp] theorem acknowledge_errCause (v : Word) (s : State) :
    (acknowledge v s).errCause = (if s.err &&& ~~~(v.setWidth 7) = 0 then 0 else s.errCause) := rfl

@[simp] theorem acknowledge_errInfo (v : Word) (s : State) :
    (acknowledge v s).errInfo = (if s.err &&& ~~~(v.setWidth 7) = 0 then 0 else s.errInfo) := rfl

@[simp] theorem acknowledge_n (v : Word) (s : State) : (acknowledge v s).n = s.n := rfl

@[simp] theorem acknowledge_log2n (v : Word) (s : State) : (acknowledge v s).log2n = s.log2n := rfl

@[simp] theorem acknowledge_carrierBin (v : Word) (s : State) : (acknowledge v s).carrierBin = s.carrierBin := rfl

@[simp] theorem acknowledge_baseLeft (v : Word) (s : State) : (acknowledge v s).baseLeft = s.baseLeft := rfl

@[simp] theorem acknowledge_baseRight (v : Word) (s : State) : (acknowledge v s).baseRight = s.baseRight := rfl

@[simp] theorem acknowledge_results (v : Word) (s : State) : (acknowledge v s).results = s.results := rfl

@[simp] theorem acknowledge_pending (v : Word) (s : State) : (acknowledge v s).pending = s.pending := rfl

@[simp] theorem acknowledge_mem (v : Word) (s : State) : (acknowledge v s).mem = s.mem := rfl

@[simp] theorem acknowledge_roms (v : Word) (s : State) : (acknowledge v s).roms = s.roms := rfl

@[simp] theorem acknowledge_program (v : Word) (s : State) : (acknowledge v s).program = s.program := rfl

@[simp] theorem acknowledge_turns (v : Word) (s : State) : (acknowledge v s).turns = s.turns := rfl

@[simp] theorem acknowledge_reads (v : Word) (s : State) : (acknowledge v s).reads = s.reads := rfl

/-! ### Completing a command -/

@[simp] theorem complete_busy (s : State) :
    (complete s).busy = false := rfl

@[simp] theorem complete_cfgValid (s : State) : (complete s).cfgValid = s.cfgValid := rfl

@[simp] theorem complete_baseInit (s : State) : (complete s).baseInit = s.baseInit := rfl

@[simp] theorem complete_done (s : State) :
    (complete s).done = true := rfl

@[simp] theorem complete_doneIe (s : State) : (complete s).doneIe = s.doneIe := rfl

@[simp] theorem complete_errIe (s : State) : (complete s).errIe = s.errIe := rfl

@[simp] theorem complete_err (s : State) : (complete s).err = s.err := rfl

@[simp] theorem complete_errCause (s : State) : (complete s).errCause = s.errCause := rfl

@[simp] theorem complete_errInfo (s : State) : (complete s).errInfo = s.errInfo := rfl

@[simp] theorem complete_n (s : State) : (complete s).n = s.n := rfl

@[simp] theorem complete_log2n (s : State) : (complete s).log2n = s.log2n := rfl

@[simp] theorem complete_carrierBin (s : State) : (complete s).carrierBin = s.carrierBin := rfl

@[simp] theorem complete_baseLeft (s : State) : (complete s).baseLeft = s.baseLeft := rfl

@[simp] theorem complete_baseRight (s : State) : (complete s).baseRight = s.baseRight := rfl

@[simp] theorem complete_results (s : State) : (complete s).results = s.results := rfl

@[simp] theorem complete_pending (s : State) : (complete s).pending = s.pending := rfl

@[simp] theorem complete_mem (s : State) : (complete s).mem = s.mem := rfl

@[simp] theorem complete_roms (s : State) : (complete s).roms = s.roms := rfl

@[simp] theorem complete_program (s : State) : (complete s).program = s.program := rfl

@[simp] theorem complete_turns (s : State) : (complete s).turns = s.turns := rfl

@[simp] theorem complete_reads (s : State) : (complete s).reads = s.reads := rfl

/-! ### Storing an array -/

@[simp] theorem storeArray_busy (base : Nat) (xs : List F64) (s : State) : (storeArray base xs s).busy = s.busy := rfl

@[simp] theorem storeArray_cfgValid (base : Nat) (xs : List F64) (s : State) : (storeArray base xs s).cfgValid = s.cfgValid := rfl

@[simp] theorem storeArray_baseInit (base : Nat) (xs : List F64) (s : State) : (storeArray base xs s).baseInit = s.baseInit := rfl

@[simp] theorem storeArray_done (base : Nat) (xs : List F64) (s : State) : (storeArray base xs s).done = s.done := rfl

@[simp] theorem storeArray_doneIe (base : Nat) (xs : List F64) (s : State) : (storeArray base xs s).doneIe = s.doneIe := rfl

@[simp] theorem storeArray_errIe (base : Nat) (xs : List F64) (s : State) : (storeArray base xs s).errIe = s.errIe := rfl

@[simp] theorem storeArray_err (base : Nat) (xs : List F64) (s : State) : (storeArray base xs s).err = s.err := rfl

@[simp] theorem storeArray_errCause (base : Nat) (xs : List F64) (s : State) : (storeArray base xs s).errCause = s.errCause := rfl

@[simp] theorem storeArray_errInfo (base : Nat) (xs : List F64) (s : State) : (storeArray base xs s).errInfo = s.errInfo := rfl

@[simp] theorem storeArray_n (base : Nat) (xs : List F64) (s : State) : (storeArray base xs s).n = s.n := rfl

@[simp] theorem storeArray_log2n (base : Nat) (xs : List F64) (s : State) : (storeArray base xs s).log2n = s.log2n := rfl

@[simp] theorem storeArray_carrierBin (base : Nat) (xs : List F64) (s : State) : (storeArray base xs s).carrierBin = s.carrierBin := rfl

@[simp] theorem storeArray_baseLeft (base : Nat) (xs : List F64) (s : State) : (storeArray base xs s).baseLeft = s.baseLeft := rfl

@[simp] theorem storeArray_baseRight (base : Nat) (xs : List F64) (s : State) : (storeArray base xs s).baseRight = s.baseRight := rfl

@[simp] theorem storeArray_results (base : Nat) (xs : List F64) (s : State) : (storeArray base xs s).results = s.results := rfl

@[simp] theorem storeArray_pending (base : Nat) (xs : List F64) (s : State) : (storeArray base xs s).pending = s.pending := rfl

@[simp] theorem storeArray_mem (base : Nat) (xs : List F64) (s : State) :
    (storeArray base xs s).mem = Memory.writeElems s.mem base 0 xs := rfl

@[simp] theorem storeArray_roms (base : Nat) (xs : List F64) (s : State) : (storeArray base xs s).roms = s.roms := rfl

@[simp] theorem storeArray_program (base : Nat) (xs : List F64) (s : State) : (storeArray base xs s).program = s.program := rfl

@[simp] theorem storeArray_turns (base : Nat) (xs : List F64) (s : State) : (storeArray base xs s).turns = s.turns := rfl

@[simp] theorem storeArray_reads (base : Nat) (xs : List F64) (s : State) : (storeArray base xs s).reads = s.reads := rfl

/-! ### A command word written to `CMD` -/

@[simp] theorem commandWritten_busy (v : Word) (s : State) :
    (commandWritten v s).busy = true := rfl

@[simp] theorem commandWritten_cfgValid (v : Word) (s : State) : (commandWritten v s).cfgValid = s.cfgValid := rfl

@[simp] theorem commandWritten_baseInit (v : Word) (s : State) : (commandWritten v s).baseInit = s.baseInit := rfl

@[simp] theorem commandWritten_done (v : Word) (s : State) : (commandWritten v s).done = s.done := rfl

@[simp] theorem commandWritten_doneIe (v : Word) (s : State) : (commandWritten v s).doneIe = s.doneIe := rfl

@[simp] theorem commandWritten_errIe (v : Word) (s : State) : (commandWritten v s).errIe = s.errIe := rfl

@[simp] theorem commandWritten_err (v : Word) (s : State) : (commandWritten v s).err = s.err := rfl

@[simp] theorem commandWritten_errCause (v : Word) (s : State) : (commandWritten v s).errCause = s.errCause := rfl

@[simp] theorem commandWritten_errInfo (v : Word) (s : State) : (commandWritten v s).errInfo = s.errInfo := rfl

@[simp] theorem commandWritten_n (v : Word) (s : State) : (commandWritten v s).n = s.n := rfl

@[simp] theorem commandWritten_log2n (v : Word) (s : State) : (commandWritten v s).log2n = s.log2n := rfl

@[simp] theorem commandWritten_carrierBin (v : Word) (s : State) : (commandWritten v s).carrierBin = s.carrierBin := rfl

@[simp] theorem commandWritten_baseLeft (v : Word) (s : State) : (commandWritten v s).baseLeft = s.baseLeft := rfl

@[simp] theorem commandWritten_baseRight (v : Word) (s : State) : (commandWritten v s).baseRight = s.baseRight := rfl

@[simp] theorem commandWritten_results (v : Word) (s : State) : (commandWritten v s).results = s.results := rfl

@[simp] theorem commandWritten_pending (v : Word) (s : State) :
    (commandWritten v s).pending = v := rfl

@[simp] theorem commandWritten_mem (v : Word) (s : State) : (commandWritten v s).mem = s.mem := rfl

@[simp] theorem commandWritten_roms (v : Word) (s : State) : (commandWritten v s).roms = s.roms := rfl

@[simp] theorem commandWritten_program (v : Word) (s : State) : (commandWritten v s).program = s.program := rfl

@[simp] theorem commandWritten_turns (v : Word) (s : State) :
    (commandWritten v s).turns = .engine :: s.turns := rfl

@[simp] theorem commandWritten_reads (v : Word) (s : State) : (commandWritten v s).reads = s.reads := rfl

/-! ### The reset input -/

@[simp] theorem resetBlock_busy (s : State) :
    (resetBlock s).busy = State.reset.busy := rfl

@[simp] theorem resetBlock_cfgValid (s : State) :
    (resetBlock s).cfgValid = State.reset.cfgValid := rfl

@[simp] theorem resetBlock_baseInit (s : State) :
    (resetBlock s).baseInit = State.reset.baseInit := rfl

@[simp] theorem resetBlock_done (s : State) :
    (resetBlock s).done = State.reset.done := rfl

@[simp] theorem resetBlock_doneIe (s : State) :
    (resetBlock s).doneIe = State.reset.doneIe := rfl

@[simp] theorem resetBlock_errIe (s : State) :
    (resetBlock s).errIe = State.reset.errIe := rfl

@[simp] theorem resetBlock_err (s : State) :
    (resetBlock s).err = State.reset.err := rfl

@[simp] theorem resetBlock_errCause (s : State) :
    (resetBlock s).errCause = State.reset.errCause := rfl

@[simp] theorem resetBlock_errInfo (s : State) :
    (resetBlock s).errInfo = State.reset.errInfo := rfl

@[simp] theorem resetBlock_n (s : State) :
    (resetBlock s).n = State.reset.n := rfl

@[simp] theorem resetBlock_log2n (s : State) :
    (resetBlock s).log2n = State.reset.log2n := rfl

@[simp] theorem resetBlock_carrierBin (s : State) :
    (resetBlock s).carrierBin = State.reset.carrierBin := rfl

@[simp] theorem resetBlock_baseLeft (s : State) :
    (resetBlock s).baseLeft = State.reset.baseLeft := rfl

@[simp] theorem resetBlock_baseRight (s : State) :
    (resetBlock s).baseRight = State.reset.baseRight := rfl

@[simp] theorem resetBlock_results (s : State) :
    (resetBlock s).results = State.reset.results := rfl

@[simp] theorem resetBlock_pending (s : State) :
    (resetBlock s).pending = State.reset.pending := rfl

@[simp] theorem resetBlock_mem (s : State) :
    (resetBlock s).mem = State.reset.mem := rfl

@[simp] theorem resetBlock_roms (s : State) : (resetBlock s).roms = s.roms := rfl

@[simp] theorem resetBlock_program (s : State) : (resetBlock s).program = s.program := rfl

@[simp] theorem resetBlock_turns (s : State) : (resetBlock s).turns = s.turns := rfl

@[simp] theorem resetBlock_reads (s : State) : (resetBlock s).reads = s.reads := rfl

end Sys2Proof.Machine
end

