-- ==== Sys2Proof/Laws/Ops.lean ====
section
/-! SUPPORT. For each operation the meanings share, one lemma that says everything it can do. -/

namespace Sys2Proof.Machine

theorem andThen_eq_next {o : Result} {f : State → Result} {t : State} :
    andThen o f = .next t ↔ ∃ s, o = .next s ∧ f s = .next t := by
  cases o <;> simp [andThen]

@[simp] theorem andThen_next (s : State) (f : State → Result) : andThen (.next s) f = f s := rfl

@[simp] theorem andThen_fault (r : Fault) (f : State → Result) :
    andThen (.fault r) f = .fault r := rfl

/-- A command that needs a configuration runs its body, or is rejected with NOCFG. -/
theorem requireCfg_eq_next {s t : State} {body : State → Result} :
    requireCfg s body = .next t ↔
      (s.cfgValid = true ∧ body s = .next t) ∨
      (s.cfgValid = false ∧ t = raise .nocfg s.pending s) := by
  cases h : s.cfgValid <;> simp [requireCfg, reject, h, eq_comm]

theorem requireCfg_of_valid {s : State} (h : s.cfgValid = true) (body : State → Result) :
    requireCfg s body = body s := by simp [requireCfg, h]

theorem requireCfg_of_not_valid {s : State} (h : s.cfgValid = false) (body : State → Result) :
    requireCfg s body = .next (raise .nocfg s.pending s) := by simp [requireCfg, reject, h]

/-- A command that reads the window's place runs its body, or is rejected with RANGE. -/
theorem requireWindow_eq_next {s t : State} {body : State → Result} :
    requireWindow s body = .next t ↔
      (windowInRange s = true ∧ body s = .next t) ∨
      (windowInRange s = false ∧ t = raise .range s.pending s) := by
  cases h : windowInRange s <;> simp [requireWindow, reject, h, eq_comm]

/-- A command that reads an array goes on with its values, or stops with UNINIT. -/
theorem withArray_eq_next {base len : Nat} {s t : State} {body : List F64 → Result} :
    withArray base len s body = .next t ↔
      ∃ xs, Memory.readElems s.mem base 0 len = some xs ∧ body xs = .next t := by
  cases h : Memory.readElems s.mem base 0 len <;> simp [withArray, h]

theorem readElems_of_written {s : State} {base i len : Nat} (h : Written s base i len) :
    ∃ xs, Memory.readElems s.mem base i len = some xs ∧ xs.length = len := by
  obtain ⟨xs, hx⟩ := Option.isSome_iff_exists.1 ((Memory.readElems_isSome _ _ _ _).2 h)
  exact ⟨xs, hx, ((Memory.readElems_eq_some _ _ _ _ _).1 hx).1⟩

/-- A command whose array is written goes on with a list of as many values. -/
theorem withArray_of_written {s : State} {base len : Nat} (h : Written s base 0 len)
    (body : List F64 → Result) :
    ∃ xs, xs.length = len ∧ Memory.readElems s.mem base 0 len = some xs ∧
      withArray base len s body = body xs := by
  obtain ⟨xs, hx, hl⟩ := readElems_of_written h
  exact ⟨xs, hl, hx, by simp [withArray, hx]⟩

/-- A command on the spectrum reads both channels and stores both results. -/
theorem onSpectrum_eq_next {f : Channels F64 → Channels F64} {s t : State} :
    onSpectrum f s = .next t ↔
      ∃ re im, Memory.readElems s.mem Config.reBase 0 s.n.toNat = some re ∧
        Memory.readElems s.mem Config.imBase 0 s.n.toNat = some im ∧
        t = storeArray Config.imBase (f ⟨re, im⟩).im (storeArray Config.reBase (f ⟨re, im⟩).re s) := by
  unfold onSpectrum
  rw [withArray_eq_next]
  constructor
  · rintro ⟨re, hre, h⟩
    obtain ⟨im, him, h⟩ := withArray_eq_next.1 h
    exact ⟨re, im, hre, him, (Host.Outcome.next.inj h).symm⟩
  · rintro ⟨re, im, hre, him, rfl⟩
    exact ⟨re, hre, withArray_eq_next.2 ⟨im, him, rfl⟩⟩

/-- Storing an array keeps the canonical form of the memory. -/
theorem storeArray_wf {s : State} (h : Memory.wf s.mem = true) (base : Nat) (xs : List F64) :
    Memory.wf (storeArray base xs s).mem = true :=
  Memory.wf_writeElems h base 0 xs

/-- What a host read can do: it is refused with an error and returns 0, or it returns a value and
changes nothing. -/
theorem memRead_next {a : Addr} {s t : State} {v : Word} (h : memRead a s = .next (v, t)) :
    (∃ c info, accessError .read a s = some (c, info) ∧ v = 0 ∧ t = raise c info s) ∨
    (accessError .read a s = none ∧ t = s) := by
  unfold memRead at h
  split at h
  · rename_i c info he
    cases h
    exact .inl ⟨c, info, he, rfl, rfl⟩
  · rename_i he
    refine .inr ⟨he, ?_⟩
    split at h <;> first
      | (cases h; rfl)
      | (split at h <;> cases h; rfl)

/-- What a host write can do: it is refused with an error, it is an accepted register write, it
stores a word of the data memory, or it changes nothing. -/
theorem memWrite_cases (a : Addr) (v : Word) (s : State) :
    (∃ c info, accessError (.write v) a s = some (c, info) ∧ memWrite a v s = raise c info s) ∨
    (∃ r, locate a = .reg r ∧ memWrite a v s = regWrite r v s) ∨
    (locate a = .data ∧ memWrite a v s = { s with mem := Memory.writeWord s.mem a.toNat v }) ∨
    memWrite a v s = s := by
  unfold memWrite
  cases he : accessError (.write v) a s with
  | some p => exact .inl ⟨p.1, p.2, rfl, rfl⟩
  | none =>
    cases hl : locate a with
    | reg r => exact .inr (.inl ⟨r, rfl, rfl⟩)
    | data => exact .inr (.inr (.inl ⟨rfl, rfl⟩))
    | table t i b => exact .inr (.inr (.inr rfl))
    | unmapped => exact .inr (.inr (.inr rfl))

/-- A read of a register is answered at any time, and changes nothing. -/
theorem memRead_register {a : Addr} {r : Reg} (s : State) (ha : a.toNat % 4 = 0)
    (hl : locate a = .reg r) : memRead a s = .next (regRead r s, s) := by
  simp [memRead, accessError, ha, hl, Access.isWrite, Location.inArrayWindow, busyCheck]

/-- What a host step that does not stop can do. -/
theorem hostStep_next {op : HostOp} {s t : State} (h : hostStep op s = .next t) :
    (∃ a v, op = .wr a v ∧ t = memWrite a v s) ∨
    (∃ a v u, op = .rd a ∧ memRead a s = .next (v, u) ∧ t = { u with reads := v :: u.reads }) ∨
    (∃ a m v w u, op = .poll a m v ∧ memRead a s = .next (w, u) ∧
      t = if w &&& m = v then u else { u with program := .poll a m v :: u.program }) ∨
    (op = .reset ∧ t = resetBlock s) := by
  cases op with
  | wr a v => exact .inl ⟨a, v, rfl, (Host.Outcome.next.inj h).symm⟩
  | rd a =>
    simp only [hostStep] at h
    cases hr : memRead a s with
    | next p => exact .inr (.inl ⟨a, p.1, p.2, rfl, hr, by simpa [hr, eq_comm] using h⟩)
    | fault r => simp [hr] at h
    | refused r => simp [hr] at h
  | poll a m v =>
    simp only [hostStep] at h
    cases hr : memRead a s with
    | next p => exact .inr (.inr (.inl ⟨a, m, v, p.1, p.2, rfl, hr, by simpa [hr, eq_comm] using h⟩))
    | fault r => simp [hr] at h
    | refused r => simp [hr] at h
  | reset => exact .inr (.inr (.inr ⟨rfl, (Host.Outcome.next.inj h).symm⟩))

/-- A command in `PENDING` takes its effect, or is rejected with ILLEGAL. -/
theorem runPending_eq_next {s t : State} :
    runPending s = .next t ↔
      (∃ i, decode s.pending = .ok i ∧ exec i s = .next t) ∨
      (∃ r, decode s.pending = .error r ∧ t = raise .illegal s.pending s) := by
  unfold runPending
  cases h : decode s.pending with
  | ok i => simp
  | error r => simp [reject, eq_comm]

/-- An engine step is the effect of the command in `PENDING`, completed. -/
theorem engineStep_eq_next {s t : State} :
    engineStep s = .next t ↔ ∃ u, runPending s = .next u ∧ t = complete u := by
  rw [engineStep, andThen_eq_next]
  simp [eq_comm]

/-- What a step can do: a host operation, an engine step, or nothing (an idle block with no host
operation left). -/
theorem step_cases (s : State) :
    (∃ op rest ts, s.program = op :: rest ∧
      (s.busy = true → s.turns = .host :: ts) ∧ (s.busy = false → ts = s.turns) ∧
      step s = hostStep op { s with turns := ts, program := rest }) ∨
    (s.busy = true ∧ step s = engineStep { s with turns := s.turns.tail }) ∨
    (s.busy = false ∧ s.program = [] ∧ step s = .next s) := by
  unfold step systemStep
  cases hb : s.busy with
  | false =>
    cases hp : s.program with
    | nil => simp
    | cons op rest => exact .inl ⟨op, rest, s.turns, rfl, by simp, by simp, by simp⟩
  | true =>
    simp only [if_true]
    split
    · rename_i ts op ops ht hp
      exact .inl ⟨op, ops, ts, hp, fun _ => ht, by simp, rfl⟩
    · simp

end Sys2Proof.Machine
end

