-- ==== Sys2Proof/Laws/PerInstr.lean ====
section
/-! SUPPORT. Facts about every command as syntax, one lemma per command. -/

namespace Sys2Proof.Laws.EncodingMatchesTable

/-- The word of a command carries the command's opcode in bits [31:24], and the argument field of a
command without an operand is 0 (30_encoding R77 to R79). -/
def Statement (i : Instr) : Prop :=
  opField (encode i) = i.opcode ∧ argField (encode i) = BitVec.ofNat 24 i.arg

/-- The two fields of an opcode and an argument put together. -/
theorem fields_of_append (i : Instr) : Statement i := by
  constructor
  · ext k hk
    simp only [opField, encode, BitVec.getElem_extractLsb', BitVec.getLsbD_append]
    simp [BitVec.getLsbD_eq_getElem hk]
  · ext k hk
    simp only [argField, encode, BitVec.getElem_extractLsb', BitVec.getLsbD_append, Nat.zero_add]
    simp [hk]

theorem nop : Statement .nop := fields_of_append _

theorem cfg (n : Nat) : Statement (.cfg n) := fields_of_append _

theorem zim : Statement .zim := fields_of_append _

theorem blkw : Statement .blkw := fields_of_append _

theorem bitrev : Statement .bitrev := fields_of_append _

theorem stage (st : Nat) : Statement (.stage st) := fields_of_append _

theorem fft : Statement .fft := fields_of_append _

theorem mag : Statement .mag := fields_of_append _

theorem extract : Statement .extract := fields_of_append _

theorem analyze : Statement .analyze := fields_of_append _

theorem newses : Statement .newses := fields_of_append _

theorem pipe : Statement .pipe := fields_of_append _

end Sys2Proof.Laws.EncodingMatchesTable
end

