-- ==== Sys2Proof/Machine/HostProgram.lean ====
section
/-! DEFINITION. The command syntax (spec 30_encoding R84) and the pseudo-instructions of host programs
with their expansions (R86), as lists of host operations (R85). `LOOP` is the concatenation of the
expansions of its body. -/

namespace Sys2Proof.Machine.HostProgram

/-- `CMD <command>`: write the command's word to `CMD` (R86). -/
def cmd (i : Instr) : List HostOp := [.wr 0x004 (encode i)]

/-- `CMD .word w`: write a raw command word (R84). -/
def cmdWord (w : Word) : List HostOp := [.wr 0x004 w]

/-- `WAIT`: until `STATUS.BUSY` = 0 (R86). -/
def wait : List HostOp := [.poll 0x008 0x1 0x0]

/-- `RUN <command>` (R86). -/
def run (i : Instr) : List HostOp := cmd i ++ wait

/-- `RUN .word w` (R84, R86). -/
def runWord (w : Word) : List HostOp := cmdWord w ++ wait

/-- `WRD a, x`: the low word at `a`, then the high word at `a + 4` (R86). -/
def wrd (a : Addr) (x : F64) : List HostOp := [.wr a (Memory.lowWord x), .wr (a + 4) (Memory.highWord x)]

/-- `RDD a -> name` (R86). -/
def rdd (a : Addr) : List HostOp := [.rd a, .rd (a + 4)]

/-- `CLRERR` (R86). -/
def clrErr : List HostOp := [.wr 0x014 0x7F]

/-- `CLRDONE` (R86). -/
def clrDone : List HostOp := [.wr 0x00C 0x1]

/-- `LOOP name = lo .. hi` with the body's expansion as a function of `name` (R85). -/
def loop (lo hi : Nat) (body : Nat → List HostOp) : List HostOp :=
  (List.range' lo (hi + 1 - lo)).flatMap body

/-- The value of a hexadecimal digit. -/
def hexDigit (c : Char) : Option Nat :=
  if '0' ≤ c ∧ c ≤ '9' then some (c.toNat - '0'.toNat)
  else if 'a' ≤ c ∧ c ≤ 'f' then some (c.toNat - 'a'.toNat + 10)
  else if 'A' ≤ c ∧ c ≤ 'F' then some (c.toNat - 'A'.toNat + 10)
  else none

/-- The number written by digits of a base below 17, after the value `acc` of the digits before. -/
def digits (base : Nat) : List Char → Nat → Option Nat
  | [], acc => some acc
  | c :: cs, acc =>
    match hexDigit c with
    | some d => if d < base then digits base cs (acc * base + d) else none
    | none => none

/-- A hexadecimal number `0x…` (R84); at least one digit. The digits above 9 are accepted in both
cases: DESIGN CHOICE (log 21). -/
def hexNumber : List Char → Option Nat
  | '0' :: 'x' :: c :: cs => digits 16 (c :: cs) 0
  | _ => none

/-- A decimal number, or a hexadecimal number `0x…` (R84). Leading zeros are accepted: DESIGN CHOICE
(log 21). -/
def number : List Char → Option Nat
  | [] => none
  | '0' :: 'x' :: cs => hexNumber ('0' :: 'x' :: cs)
  | cs => digits 10 cs 0

/-- The mnemonics without an operand (R79). -/
def plainMnemonics : List (List Char × Instr) :=
  [(['N', 'O', 'P'], .nop), (['Z', 'I', 'M'], .zim), (['B', 'L', 'K', 'W'], .blkw),
    (['B', 'I', 'T', 'R', 'E', 'V'], .bitrev), (['F', 'F', 'T'], .fft), (['M', 'A', 'G'], .mag),
    (['E', 'X', 'T', 'R', 'A', 'C', 'T'], .extract), (['A', 'N', 'A', 'L', 'Y', 'Z', 'E'], .analyze),
    (['N', 'E', 'W', 'S', 'E', 'S'], .newses), (['P', 'I', 'P', 'E'], .pipe)]

/-- The assembler refuses an operand outside 0..16777215 (R84). -/
def assembleInstr (i : Instr) : Option Word := if i.wellFormed then some (encode i) else none

/-- The word of a command line: a mnemonic, an operand for `CFG` and `STAGE`, or `.word 0x…` (R84).
R84 gives `.word` no decimal form and no width, and says nothing of blanks; DESIGN CHOICE (log 21):
`.word` with a decimal number or with more than 32 bits is refused, exactly one blank stands before an
operand, and any other text is refused. -/
def assemble (line : List Char) : Option Word :=
  match line with
  | 'C' :: 'F' :: 'G' :: ' ' :: cs => (number cs).bind fun n => assembleInstr (.cfg n)
  | 'S' :: 'T' :: 'A' :: 'G' :: 'E' :: ' ' :: cs => (number cs).bind fun n => assembleInstr (.stage n)
  | '.' :: 'w' :: 'o' :: 'r' :: 'd' :: ' ' :: cs =>
    (hexNumber cs).bind fun n => if n < 2 ^ 32 then some (BitVec.ofNat 32 n) else none
  | cs => (plainMnemonics.lookup cs).bind assembleInstr

end Sys2Proof.Machine.HostProgram
end

