-- ==== Sys2Proof/Tests/Slice0.lean ====
section
/-! SUPPORT. Tests of the model against the spec's own words and vectors (30_encoding R79, R84;
95_test_vectors, the vector named in each docstring), and for each statement with hypotheses a named
witness that meets them. -/

namespace Sys2Proof.Tests

open Sys2Proof.Machine

/-! ### Helpers -/

/-- The state after a step, where there is one. -/
def stateOf (o : Result) : Option State :=
  match o with
  | .next s => some s
  | .fault _ => none
  | .refused _ => none

/-- The next state of the step that runs the command word `w`. -/
def ran (w : Word) (s : State) : Option State := stateOf (step (s.withFetchWord 32 w.toNat))

/-- The listed bytes of a word. -/
def wordCells (a : Nat) (v : Word) : Memory :=
  [(a, v.extractLsb' 0 8), (a + 1, v.extractLsb' 8 8), (a + 2, v.extractLsb' 16 8),
    (a + 3, v.extractLsb' 24 8)]

/-- The listed bytes of consecutive elements from byte address `a` on. -/
def elemCells : (a : Nat) → List F64 → Memory
  | _, [] => []
  | a, x :: xs =>
    wordCells a (Memory.lowWord x) ++ wordCells (a + 4) (Memory.highWord x) ++ elemCells (a + 8) xs

/-- Reset, then `CFG 2^k`, with the given memory. -/
def configured (k : Nat) (m : Memory) : State :=
  { State.reset with
    n := BitVec.ofNat 13 (2 ^ k), log2n := BitVec.ofNat 4 k, cfgValid := true, mem := m }

/-- The memory with RE and IM listed from index 0 on. -/
def spectrum (re im : List F64) : Memory :=
  elemCells Config.reBase re ++ elemCells Config.imBase im

/-- RE[0..len−1] after running the command word `w`. -/
def reAfter (w : Word) (len : Nat) (s : State) : Option (List F64) :=
  (ran w s).bind fun t => Memory.readElems t.mem Config.reBase 0 len

/-- IM[0..len−1] after running the command word `w`. -/
def imAfter (w : Word) (len : Nat) (s : State) : Option (List F64) :=
  (ran w s).bind fun t => Memory.readElems t.mem Config.imBase 0 len

/-- The error registers, `STATUS` and `EVENTS` after running the command word `w`. -/
def errorAfter (w : Word) (s : State) : Option (Word × Word × Word × Word × Word) :=
  (ran w s).map fun t =>
    (regRead .err t, regRead .errCause t, regRead .errInfo t, regRead .status t, regRead .events t)

/-- The value a host read returns. -/
def readOf (a : Addr) (s : State) : Option Word :=
  match memRead a s with
  | .next (v, _) => some v
  | .fault _ => none
  | .refused _ => none

/-- A window of +0.0 bins with some bins changed. -/
def window (changes : List (Nat × F64)) : List F64 :=
  changes.foldl (fun w c => w.set c.1 c.2) (List.replicate 67 0)

/-- The binary64 encodings of 0.0 to 7.0 (RE of vector T17). -/
def ramp8 : List F64 :=
  [0, 0x3FF0000000000000, 0x4000000000000000, 0x4008000000000000, 0x4010000000000000,
    0x4014000000000000, 0x4018000000000000, 0x401C000000000000]

/-! ### Well-formedness and encoding -/

theorem test_wellFormed_refuses_cfg_operand : (Instr.cfg 16777216).wellFormed = false := by decide

theorem test_wellFormed_refuses_stage_operand : (Instr.stage 16777216).wellFormed = false := by
  decide

theorem test_assembler_refuses_operand :
    HostProgram.assemble "STAGE 16777216".toList = none := by decide +kernel

/-- R84 gives `.word` the hexadecimal form; refusing the decimal one is the model's choice (log 21). -/
theorem test_assembler_raw_word :
    HostProgram.assemble ".word 0x0C000000".toList = some 0x0C000000 ∧
      HostProgram.assemble ".word 5".toList = none ∧
      HostProgram.assemble ".word 0x".toList = none := by decide +kernel

theorem test_assembler_examples :
    HostProgram.assemble "CFG 2048".toList = some 0x01000800 ∧
      HostProgram.assemble "CFG 0x8".toList = some 0x01000008 ∧
      HostProgram.assemble "PIPE".toList = some 0x0B000000 ∧
      HostProgram.assemble "HALT".toList = none := by decide +kernel

/-- OP 0x00 to 0x0B with ARG 0, but for CFG and STAGE (R79). -/
theorem test_decode_plain :
    decode 0b00000000000000000000000000000000#32 = .ok .nop ∧
      decode 0b00000010000000000000000000000000#32 = .ok .zim ∧
      decode 0b00000011000000000000000000000000#32 = .ok .blkw ∧
      decode 0b00000100000000000000000000000000#32 = .ok .bitrev ∧
      decode 0b00000110000000000000000000000000#32 = .ok .fft ∧
      decode 0b00000111000000000000000000000000#32 = .ok .mag ∧
      decode 0b00001000000000000000000000000000#32 = .ok .extract ∧
      decode 0b00001001000000000000000000000000#32 = .ok .analyze ∧
      decode 0b00001010000000000000000000000000#32 = .ok .newses ∧
      decode 0b00001011000000000000000000000000#32 = .ok .pipe := ⟨rfl, rfl, rfl, rfl, rfl, rfl, rfl, rfl, rfl, rfl⟩

/-- R78: `ARG` is unsigned, neither scaled nor extended. -/
theorem test_decode_operands :
    decode 0b00000001000000000000100000000000#32 = .ok (.cfg 2048) ∧
      decode 0b00000001111111111111111111111111#32 = .ok (.cfg 16777215) ∧
      decode 0b00000101000000000000000000001010#32 = .ok (.stage 10) := ⟨rfl, rfl, rfl⟩

theorem test_decode_illegal :
    decode 0x0C000000 = .error .reservedOpcode ∧ decode 0xFF000000 = .error .reservedOpcode ∧
      decode 0x06000001 = .error .reservedArgument ∧
      decode 0x0B800000 = .error .reservedArgument := ⟨rfl, rfl, rfl, rfl⟩

/-! ### Transform engine -/

/-- Q1. -/
theorem test_nop : ran 0x00000000 State.reset = some { State.reset with done := true } := by
  decide +kernel

/-- T3. -/
theorem test_cfg :
    (ran 0x01000800 State.reset).map (fun t => (t.n, t.log2n, regRead .status t, t.err)) =
      some (2048, 11, 0x2, 0) := by decide +kernel

/-- S1, on a configured block (the last case after T7). -/
theorem test_cfg_rejects :
    (ran 0x010007D0 (configured 3 [])).map (fun t => (t.n, t.log2n, t.cfgValid)) =
        some (0, 0, false) ∧
      errorAfter 0x010007D0 (configured 3 []) = some (0x1, 1, 0x010007D0, 0x8, 0x1) := by
  decide +kernel

/-- T12 with `N` = 2: IM[2] stays 7.0. -/
theorem test_zim :
    imAfter 0x02000000 3
        (configured 1 (elemCells Config.imBase
          [0x4014000000000000, 0x4014000000000000, 0x401C000000000000])) =
      some [0, 0, 0x401C000000000000] := by decide +kernel

/-- T13, third case. -/
theorem test_blkw :
    reAfter 0x03000000 4 (configured 2 (elemCells Config.reBase (List.replicate 4 0xC008000000000000))) =
      some [0x8000000000000000, 0xBFFE3D70A3D70A3E, 0xBFFE3D70A3D70A3E, 0x8000000000000000] := by
  decide +kernel

/-- T15. -/
theorem test_bitrev :
    reAfter 0x04000000 8 (configured 3 (spectrum ramp8 (List.replicate 8 0))) =
      some [0, 0x4010000000000000, 0x4000000000000000, 0x4018000000000000, 0x3FF0000000000000,
        0x4014000000000000, 0x4008000000000000, 0x401C000000000000] := by decide +kernel

/-- T18, from the state after `STAGE 0`: RE = [10, −2, −2, −2], IM = [+0.0, 2, +0.0, −2]. -/
theorem test_stage :
    let s := configured 2 (spectrum
      [0x4010000000000000, 0xC000000000000000, 0x4018000000000000, 0xC000000000000000]
      (List.replicate 4 0))
    reAfter 0x05000001 4 s = some [0x4024000000000000, 0xC000000000000000, 0xC000000000000000,
        0xC000000000000000] ∧
      imAfter 0x05000001 4 s = some [0, 0x4000000000000000, 0, 0xC000000000000000] := by
  decide +kernel

/-- `STAGE` out of range (after T19). -/
theorem test_stage_range :
    errorAfter 0x05000003 (configured 3 []) = some (0x8, 4, 0x05000003, 0xA, 0x1) := by
  decide +kernel

/-- T17 after `STAGE 2`: IM = [+0.0, 4 + 4√2, 4, 4√2 − 4, +0.0, …], rounded. -/
theorem test_fft :
    imAfter 0x06000000 8 (configured 3 (spectrum ramp8 (List.replicate 8 0))) =
      some [0, 0x4023504F333F9DE6, 0x4010000000000000, 0x3FFA827999FCEF34, 0, 0xBFFA827999FCEF34,
        0xC010000000000000, 0xC023504F333F9DE6] := by decide +kernel

/-- T31: the signs of zero. -/
theorem test_fft_zero_signs :
    let s := configured 1 (spectrum (List.replicate 2 0x8000000000000000)
      (List.replicate 2 0x8000000000000000))
    reAfter 0x06000000 2 s = some [0, 0x8000000000000000] ∧
      imAfter 0x06000000 2 s = some [0x8000000000000000, 0] := by decide +kernel

/-! ### Magnitude and window -/

/-- M2 and M8 as bins 0 and 1 of `N` = 4; the length is halved. -/
theorem test_mag :
    ((ran 0x07000000 (configured 2 (spectrum [0xC014000000000000, 0x1EB67E9C127B6E74]
        [0x4028000000000000, 0]))).bind
        fun t => Memory.readElems t.mem Config.magBase 0 2) =
      some [0x402A000000000000, 0x1EB67E93DDBC0E73] := by decide +kernel

/-- M4 and M5: a NaN beside an infinity, an infinity beside a number. -/
theorem test_mag_specials :
    magnitude 0x7FF8000000000000 0x7FF0000000000000 = 0x7FF8000000000000 ∧
      magnitude 0x7FF0000000000000 0x3FF0000000000000 = 0x7FF0000000000000 := by decide +kernel

/-- W3. -/
theorem test_extract_range :
    errorAfter 0x08000000 { configured 11 [] with carrierBin := 991 } =
      some (0x8, 4, 0x08000000, 0xA, 0x1) := by decide +kernel

/-! ### Band analyzer -/

/-- BA6: a peak run with a gap. -/
theorem test_analyze_gap :
    let r := analysisResults (window [(33, 0x4024000000000000), (20, 0x4008000000000000),
      (19, 0x4008000000000000), (15, 0x4014000000000000)]) 4 5
    (r.lstart, r.lend, r.rstart, r.estBin, r.freq, resultWord r) =
      (20, 15, 0xFFFFFFFF, 18, 18177, 0x109) := by decide +kernel

/-- BA20: negative thresholds. -/
theorem test_analyze_negative_carrier :
    let r := analysisResults (window [(33, 0xC024000000000000), (32, 0xC000000000000000)]) 4 5
    (r.lband, r.lptr, r.rband, r.rptr, r.lstart, r.lend, r.freqQ10, resultWord r) =
      (0, 32, 33, 67, 31, 0, 19671650, 0x106) := by decide +kernel

/-- Q3. -/
theorem test_newses :
    (ran 0x0A000000 { State.reset with baseInit := true, baseLeft := 4, baseRight := 5 }).map
        (fun t => (t.baseInit, t.baseLeft, t.baseRight)) = some (false, 0, 0) := by decide +kernel

/-! ### Sequencing, errors and the bus -/

/-- Q7. -/
theorem test_pipe_range :
    errorAfter 0x0B000000 (configured 3 []) = some (0x8, 4, 0x0B000000, 0xA, 0x1) := by
  decide +kernel

/-- Q8. -/
theorem test_pipe_nocfg :
    errorAfter 0x0B000000 State.reset = some (0x2, 2, 0x0B000000, 0x8, 0x1) := by decide +kernel

/-- R130: the first error's cause and information stay when a second one is raised; R26: a write of
0x7F clears them. -/
theorem test_first_error_stays :
    let s := raise .bus 0x80 (raise .nocfg 0x06000000 State.reset)
    (s.err, s.errCause, s.errInfo) = (0x42, 2, 0x06000000) ∧
      memWrite 0x014 0x7F s = State.reset := by decide +kernel

/-- T11: TWC[1] high and TWS[2] high after `CFG 8`; TWC[4] is beyond N/2. -/
theorem test_table_words :
    readOf 0x1C00C (configured 3 []) = some 0x3FE6A09E ∧
      readOf 0x1E014 (configured 3 []) = some 0xBFF00000 ∧
      readOf 0x1C020 (configured 3 []) = some 0 := by decide +kernel

theorem test_decodeTableWord :
    decodeTableWord 32 0x05000003 = some (.stage 3) ∧ decodeTableWord 32 0x0C000000 = none := by
  decide +kernel

/-! ### Witnesses: lemmas on stored arrays -/

/-- Elements just stored are written. -/
theorem written_of_writeElems {s : State} {m : Memory} {base : Nat} {xs : List F64}
    (h : s.mem = Memory.writeElems m base 0 xs) {i len : Nat} (hl : i + len ≤ xs.length) :
    Written s base i len := by
  intro j hj
  have := Memory.readElem_writeElems m base 0 (i + j) xs (by omega)
  rw [Nat.zero_add] at this
  rw [h, this]
  rfl

/-- Storing other elements leaves elements written. -/
theorem written_of_writeElems_other {s t : State} {base base' i len : Nat} {xs : List F64}
    (h : s.mem = Memory.writeElems t.mem base' 0 xs) (hw : Written t base i len)
    (hd : base + 8 * (i + len) ≤ base' ∨ base' + 8 * xs.length ≤ base) : Written s base i len := by
  intro j hj
  rw [h, Memory.readElem_writeElems_other _ _ _ _ _ _ (by omega)]
  exact hw j hj

/-- `s` with the first `len` elements of the array at `base` all `x`, and nothing else written.
Irreducible, so that no proof unfolds a long memory. -/
@[irreducible] def filled (s : State) (base len : Nat) (x : F64) : State :=
  { s with mem := Memory.writeElems [] base 0 (List.replicate len x) }

theorem filled_same_but_memory (s : State) (base len : Nat) (x : F64) :
    SameButMemory s (filled s base len x) := by
  unfold filled SameButMemory
  rfl

theorem filled_written (s : State) (base len : Nat) (x : F64) (i l : Nat) (h : i + l ≤ len) :
    Written (filled s base len x) base i l := by
  unfold filled
  exact written_of_writeElems (xs := List.replicate len x) rfl (by simpa using h)

theorem filled_readElem (s : State) (base len : Nat) (x : F64) (i : Nat) (h : i < len) :
    Memory.readElem (filled s base len x).mem base i = some x := by
  unfold filled
  have := Memory.readElem_writeElems [] base 0 i (List.replicate len x) (by simpa using h)
  simpa using this

/-- Length 2^k configured, RE[0..2^k−1] and IM[0..2^k−1] all 1.0, nothing else written. -/
@[irreducible] def onesState (k : Nat) : State :=
  configured k
    (Memory.writeElems
      (Memory.writeElems [] Config.reBase 0 (List.replicate (2 ^ k) 0x3FF0000000000000))
      Config.imBase 0 (List.replicate (2 ^ k) 0x3FF0000000000000))

theorem configured_n (k : Nat) (m : Memory) (h : k ≤ 11) : (configured k m).n.toNat = 2 ^ k := by
  have hp : 2 ^ k ≤ 2048 := Nat.pow_le_pow_right (by decide) h
  exact Nat.mod_eq_of_lt (by omega)

theorem configured_log2n (k : Nat) (m : Memory) (h : k ≤ 11) : (configured k m).log2n.toNat = k :=
  Nat.mod_eq_of_lt (by omega)

theorem configured_configInv (k : Nat) (m : Memory) (h1 : 1 ≤ k) (h2 : k ≤ 11) :
    ConfigInv (configured k m) := by
  refine ⟨fun _ => ?_, fun h => by simp [configured] at h⟩
  rw [configured_n k m h2, configured_log2n k m h2]
  exact ⟨h1, h2, rfl⟩

/-- The hypotheses of the statements about `BLKW`, `BITREV`, `STAGE`, `FFT` and `MAG`, at every
length. -/
theorem onesState_facts (k : Nat) (h1 : 1 ≤ k) (h2 : k ≤ 11) :
    ConfigInv (onesState k) ∧ (onesState k).cfgValid = true ∧ (onesState k).log2n.toNat = k ∧
      (onesState k).n.toNat = 2 ^ k ∧ Memory.wf (onesState k).mem = true ∧
      Written (onesState k) Config.reBase 0 (onesState k).n.toNat ∧
      Written (onesState k) Config.imBase 0 (onesState k).n.toNat := by
  have hp : 2 ^ k ≤ 2048 := Nat.pow_le_pow_right (by decide) h2
  unfold onesState
  refine ⟨configured_configInv k _ h1 h2, rfl, configured_log2n k _ h2, configured_n k _ h2,
    Memory.wf_writeElems (Memory.wf_writeElems rfl _ _ _) _ _ _, ?_, ?_⟩
  · rw [configured_n k _ h2]
    refine written_of_writeElems_other (t := configured k
      (Memory.writeElems [] Config.reBase 0 (List.replicate (2 ^ k) 0x3FF0000000000000)))
      rfl (written_of_writeElems rfl (by simp)) (.inl ?_)
    simp only [Config.reBase, Config.imBase]
    omega
  · rw [configured_n k _ h2]
    exact written_of_writeElems rfl (by simp)

/-- WIN holds 67 times the value `x`. -/
def flatWindow (x : F64) : State := filled State.reset Config.winBase 67 x

/-- Every word of the four data arrays is written. -/
def fullMemory : State := filled State.reset Config.reBase 5187 0

theorem written_flatWindow (x : F64) : Written (flatWindow x) Config.winBase 0 67 :=
  filled_written _ _ _ _ _ _ (by decide)

theorem winBin_flatWindow (x : F64) (i : Nat) (hi : i < 67) : winBin (flatWindow x) i = x := by
  simp [winBin, flatWindow, filled_readElem _ _ _ _ _ hi]

theorem written_mono {s : State} {base len len' : Nat} (h : Written s base 0 len) (hl : len' ≤ len) :
    Written s base 0 len' := fun j hj => h j (by omega)

theorem isSome_readWord {m : Memory} {a : Nat} (h : (Memory.readWord m a).isSome = true) (k : Nat)
    (hk : k < 4) : (Memory.getByte m (a + k)).isSome = true := by
  unfold Memory.readWord at h
  split at h
  · rename_i h0 h1 h2 h3
    interval_cases k <;> simp [h0, h1, h2, h3]
  · simp at h

theorem isSome_readElem {m : Memory} {base i : Nat} (h : (Memory.readElem m base i).isSome = true)
    (k : Nat) (hk : k < 8) : (Memory.getByte m (base + 8 * i + k)).isSome = true := by
  unfold Memory.readElem at h
  split at h
  · rename_i h0 h1
    by_cases h4 : k < 4
    · exact isSome_readWord (by simp [h0]) k h4
    · have := isSome_readWord (m := m) (a := base + 8 * i + 4) (by simp [h1]) (k - 4) (by omega)
      rwa [show base + 8 * i + 4 + (k - 4) = base + 8 * i + k by omega] at this
  · simp at h

/-- Every byte of the data windows is written in `fullMemory`. -/
theorem fullMemory_written (a : Nat) (h : inDataWindow a = true) :
    (Memory.getByte fullMemory.mem a).isSome = true := by
  simp only [inDataWindow, Bool.and_eq_true, decide_eq_true_eq] at h
  have hl : 0x10000 ≤ a := h.1
  have hw : Written fullMemory Config.reBase 0 5187 :=
    filled_written _ _ _ _ _ _ (by decide)
  have ha : 0x10000 + 8 * (0 + (a - 0x10000) / 8) + (a - 0x10000) % 8 = a := by omega
  have := isSome_readElem (hw ((a - 0x10000) / 8) (by omega)) ((a - 0x10000) % 8) (by omega)
  rw [Config.reBase, ha] at this
  exact this

/-- A host program is waiting, and the block is idle. -/
def hostReady (op : HostOp) : State := { State.reset with program := [op, .rd 0x000] }

/-- A command is in flight, and the next turn is `g`'s. -/
def inFlight (g : Agent) (w : Word) : State :=
  { State.reset with busy := true, pending := w, turns := [g], program := [.rd 0x008] }

/-! ### Witnesses: encoding -/

theorem witness_DecodeOfEncodeIsTheCommand :
    (Instr.cfg 0).wellFormed = true ∧ (Instr.cfg 16777215).wellFormed = true ∧
      (Instr.stage 16777215).wellFormed = true ∧ Instr.pipe.wellFormed = true := by decide

theorem witness_EncodeOfDecodeIsTheWord :
    decode 0x01FFFFFF = .ok (.cfg 16777215) ∧ decode 0x05000000 = .ok (.stage 0) := ⟨rfl, rfl⟩

theorem witness_IllegalWordsAreRejected :
    (EngineMoves (inFlight .engine 0x0C000000) ∧
        decode (inFlight .engine 0x0C000000).pending = .error .reservedOpcode) ∧
      EngineMoves (inFlight .engine 0x0B000001) ∧
      decode (inFlight .engine 0x0B000001).pending = .error .reservedArgument :=
  ⟨⟨by decide, rfl⟩, by decide, rfl⟩

/-! ### Witnesses: the step -/

theorem witness_StepRunsTheDecodedCommand :
    EngineMoves (inFlight .engine 0x05000003) ∧
      decode (inFlight .engine 0x05000003).pending = .ok (.stage 3) := ⟨by decide, rfl⟩

/-- The engine moves when the turns are used up, and when it is the turn of a host that has nothing
to do. -/
theorem witness_EngineMoves_without_turns :
    EngineMoves { inFlight .host 0 with turns := [] } ∧
      EngineMoves { inFlight .host 0 with program := [] } := by decide

theorem witness_StepMakesTheHostAccess :
    HostMoves (hostReady (.wr 0x004 0)) ∧ HostMoves (inFlight .host 0) ∧
      HostMoves (hostReady .reset) := by decide

theorem witness_StepMakesTheHostAccess_read :
    HostMoves (hostReady (.rd 0x000)) ∧
      memRead 0x000 { hostReady (.rd 0x000) with program := [.rd 0x000] } =
        .next (0x53570001, { hostReady (.rd 0x000) with program := [.rd 0x000] }) :=
  ⟨by decide, rfl⟩

theorem witness_StepMakesTheHostAccess_fault :
    HostMoves (hostReady (.poll 0x10000 1 0)) ∧
      memRead 0x10000 { hostReady (.poll 0x10000 1 0) with program := [.rd 0x000] } =
        .fault .uninit := ⟨by decide, rfl⟩

theorem witness_StepMakesTheHostAccess_idle :
    State.reset.busy = false ∧ State.reset.program = [] := by decide

theorem witness_EngineStepCompletesAndSparesHostRegisters :
    EngineMoves (inFlight .engine 0x06000000) ∧
      ∃ t, step (inFlight .engine 0x06000000) = .next t := ⟨by decide, _, rfl⟩

theorem witness_BusyWindowEnds : (inFlight .host 0).busy = true := by decide

theorem witness_WrittenMemoryNeverStops :
    ConfigInv fullMemory ∧
      ∀ a, inDataWindow a = true → (Memory.getByte fullMemory.mem a).isSome = true :=
  ⟨by
    rw [fullMemory, filled_same_but_memory State.reset Config.reBase 5187 0]
    exact ⟨fun h => absurd h (by decide), fun _ => ⟨rfl, rfl⟩⟩, fullMemory_written⟩

/-! ### Witnesses: invariants -/

/-- A configured block with one word of RE written, an error recorded, a session begun and a command
in flight. -/
def soundState : State :=
  { configured 3 (wordCells 0x10000 7) with
    busy := true, pending := 0x0A000000, err := 0x42, errCause := 2, errInfo := 0x06000000,
    baseInit := true, baseLeft := 4, baseRight := 5,
    results := analysisResults (window [(33, 0x4024000000000000), (20, 0x4008000000000000)]) 4 5 }

theorem witness_EveryStepKeepsTheInvariant :
    Inv soundState ∧ ∃ t, step soundState = .next t := by
  refine ⟨⟨⟨by decide +kernel, by decide +kernel⟩, ⟨?_, ?_⟩, .inr ?_, ⟨?_, ?_⟩, ?_, ?_⟩, _, rfl⟩
  · exact fun _ => by decide +kernel
  · exact fun h => absurd h (by decide)
  · decide +kernel
  · exact fun h => absurd h (by decide +kernel)
  · exact fun _ => by decide +kernel
  · exact fun h => absurd h (by decide +kernel)
  · exact fun _ => ⟨by decide +kernel, by decide +kernel, by decide +kernel⟩

theorem witness_EveryStepKeepsMemoryCanonical :
    Memory.wf soundState.mem = true ∧ ∃ t, step soundState = .next t := ⟨by decide +kernel, _, rfl⟩

/-! ### Witnesses: errors -/

theorem witness_StatusShowsFlagsAndInterrupt : 5 ≤ 5 ∧ 5 ≤ 31 := by decide

/-- A write to `ERR` that leaves no bit, and one that leaves a bit. -/
theorem witness_ErrWriteClearsBits :
    (memWrite 0x014 0x7F soundState).err = 0 ∧ (memWrite 0x014 0x40 soundState).err ≠ 0 := by
  decide +kernel

theorem witness_CmdWriteLatchesOrIsRefused :
    soundState.busy = true ∧ State.reset.busy = false := by decide

theorem witness_HostRegisterWrites :
    soundState.busy = true ∧ State.reset.busy = false := by decide

theorem witness_CommandsWithoutConfigurationAreRejected :
    State.reset.cfgValid = false ∧
      Instr.zim ∈ [Instr.zim, .blkw, .bitrev, .fft, .mag, .extract, .pipe] ∧
      ∃ st, Instr.stage 20 = .stage st := ⟨by decide, by decide, _, rfl⟩

/-- The first stage number out of range, and the windows W7, W3 and W6 just out of range. -/
theorem witness_OutOfRangeCommandsAreRejected :
    (configured 3 []).cfgValid = true ∧ (configured 3 []).log2n.toNat ≤ 3 ∧
      (configured 11 []).cfgValid = true ∧
      ¬ (33 ≤ ({ configured 11 [] with carrierBin := 32 } : State).carrierBin.toNat ∧
        ({ configured 11 [] with carrierBin := 32 } : State).carrierBin.toNat + 33 + 1 ≤
          (configured 11 []).n.toNat / 2) ∧
      ¬ (33 ≤ ({ configured 11 [] with carrierBin := 991 } : State).carrierBin.toNat ∧
        ({ configured 11 [] with carrierBin := 991 } : State).carrierBin.toNat + 33 + 1 ≤
          (configured 11 []).n.toNat / 2) ∧
      ¬ (33 ≤ ({ configured 8 [] with carrierBin := 95 } : State).carrierBin.toNat ∧
        ({ configured 8 [] with carrierBin := 95 } : State).carrierBin.toNat + 33 + 1 ≤
          (configured 8 []).n.toNat / 2) := by decide

/-- An empty memory has no written element. -/
theorem not_written_empty {s : State} (h : s.mem = []) (base i len : Nat) (hl : 0 < len) :
    ¬ Written s base i len := by
  intro hw
  have := hw 0 hl
  simp [h, Memory.readElem, Memory.readWord] at this

theorem witness_UnwrittenOperandsStopCommands :
    ConfigInv (configured 1 []) ∧ (configured 1 []).cfgValid = true ∧
      ¬ Written (configured 1 []) Config.reBase 0 2 ∧
      ¬ (Written (configured 1 []) Config.reBase 0 2 ∧ Written (configured 1 []) Config.imBase 0 2) ∧
      0 < (configured 1 []).log2n.toNat ∧
      ¬ (Written (configured 1 []) Config.reBase 0 1 ∧ Written (configured 1 []) Config.imBase 0 1) ∧
      ¬ Written (configured 1 []) Config.winBase 0 67 :=
  ⟨configured_configInv 1 [] (by decide) (by decide), rfl,
    not_written_empty rfl _ _ _ (by decide), fun h => not_written_empty rfl _ _ _ (by decide) h.1,
    by decide, fun h => not_written_empty rfl _ _ _ (by decide) h.1,
    not_written_empty rfl _ _ _ (by decide)⟩

theorem witness_UnwrittenOperandsStopCommands_window :
    ConfigInv (configured 11 []) ∧ (configured 11 []).cfgValid = true ∧
      windowInRange (configured 11 []) = true ∧
      ¬ Written (configured 11 []) Config.magBase (859 - 33) 67 ∧
      ¬ Written (configured 11 []) Config.reBase 0 2048 :=
  ⟨configured_configInv 11 [] (by decide) (by decide), rfl, by decide,
    not_written_empty rfl _ _ _ (by decide), not_written_empty rfl _ _ _ (by decide)⟩

/-! ### Witnesses: the bus -/

theorem witness_MisalignedAccessIsABusError :
    (0x00001 : Addr).toNat % 4 ≠ 0 ∧ (0x3FFFF : Addr).toNat % 4 ≠ 0 := by decide

/-- The first and the last word of each unmapped range. -/
theorem witness_UnmappedAccessIsABusError :
    ∀ a ∈ [0x00080#18, 0x0FFFC#18, 0x1A218#18, 0x1BFFC#18, 0x24000#18, 0x3FFFC#18],
      a.toNat % 4 = 0 ∧ ((0x00080 ≤ a.toNat ∧ a.toNat ≤ 0x0FFFF) ∨
        (0x1A218 ≤ a.toNat ∧ a.toNat ≤ 0x1BFFF) ∨ 0x24000 ≤ a.toNat) := by simp

/-- The first and the last read-only register, and the first and the last table word. -/
theorem witness_ReadOnlyWriteIsABusError :
    ∀ a ∈ [0x00000#18, 0x0007C#18, 0x1C000#18, 0x23FFC#18],
      a.toNat % 4 = 0 ∧
        ((a.toNat < 0x080 ∧ a.toNat ∉ [0x004, 0x00C, 0x010, 0x014, 0x028]) ∨
          (0x1C000 ≤ a.toNat ∧ a.toNat < 0x24000)) := by simp

/-- The first and the last word of each window. -/
theorem witness_ArrayAccessWhileBusyIsAHazard :
    soundState.busy = true ∧
      (∀ a ∈ [0x10000#18, 0x1A214#18, 0x1C000#18, 0x23FFC#18],
        a.toNat % 4 = 0 ∧ ((0x10000 ≤ a.toNat ∧ a.toNat < 0x1A218) ∨
          (0x1C000 ≤ a.toNat ∧ a.toNat < 0x24000))) := ⟨rfl, by simp⟩

/-- A read that changes nothing, and one that raises an error. -/
theorem witness_ReadsHaveNoSideEffect :
    memRead 0x000 State.reset = .next (0x53570001, State.reset) ∧
      memRead 0x080 State.reset = .next (0, raise .bus 0x80 State.reset) := ⟨rfl, rfl⟩

theorem witness_WrittenWordReadsBack :
    State.reset.busy = false ∧ ∀ a ∈ [0x10000#18, 0x1A214#18],
      a.toNat % 4 = 0 ∧ 0x10000 ≤ a.toNat ∧ a.toNat < 0x1A218 := ⟨rfl, by simp⟩

theorem witness_ElementIsHighAndLowWord :
    State.reset.busy = false ∧
      ∀ p ∈ [(Config.reBase, 2047), (Config.imBase, 0), (Config.imBase, 2047), (Config.magBase, 0),
        (Config.magBase, 1023), (Config.winBase, 0), (Config.winBase, 66)],
        (p.1 = Config.reBase ∧ p.2 < 2048) ∨ (p.1 = Config.imBase ∧ p.2 < 2048) ∨
          (p.1 = Config.magBase ∧ p.2 < 1024) ∨ (p.1 = Config.winBase ∧ p.2 < 67) := by decide

theorem witness_UnwrittenWordReadFaults :
    State.reset.busy = false ∧ ∀ a ∈ [0x10000#18, 0x1A214#18], a.toNat % 4 = 0 ∧
      0x10000 ≤ a.toNat ∧ a.toNat < 0x1A218 ∧ 3 < 4 ∧
      Memory.getByte State.reset.mem (a.toNat + 3) = none := ⟨rfl, by simp [State.reset]⟩

theorem witness_TableWindowsReadTheRoms :
    (configured 11 []).busy = false ∧ 1023 < 1024 ∧ 2047 < 2048 := by decide

theorem witness_DefaultTablesAtExactAngles :
    (1 ≤ 1 ∧ 1 ≤ 11) ∧ (1 ≤ 2 ∧ 2 ≤ 11 ∧ 2 ≤ 2) ∧ (1 ≤ 11 ∧ 11 ≤ 11 ∧ 3 ≤ 11) := by decide

/-! ### Witnesses: the commands -/

/-- The smallest and the largest length, and lengths that are not accepted. -/
theorem witness_CfgSetsOrClearsTheConfiguration :
    (1 ≤ 1 ∧ 1 ≤ 11) ∧ (1 ≤ 11 ∧ 11 ≤ 11) ∧
      ∀ n ∈ [0, 1, 3, 4096, 16777215], ∀ k, 1 ≤ k → k ≤ 11 → n ≠ 2 ^ k := by
  refine ⟨by decide, by decide, fun n hn k h1 h2 => ?_⟩
  interval_cases k <;> fin_cases hn <;> decide

theorem witness_ZimZeroesTheImaginaryChannel :
    (configured 1 []).cfgValid = true ∧ (configured 11 []).cfgValid = true := by decide

theorem witness_BlkwMultipliesByTheWindow :
    (onesState 11).cfgValid = true ∧
      Written (onesState 11) Config.reBase 0 (onesState 11).n.toNat := by
  have h := onesState_facts 11 (by decide) (by decide)
  exact ⟨h.2.1, h.2.2.2.2.2.1⟩

theorem witness_BitrevPermutesByBitReversal :
    (ConfigInv (onesState 1) ∧ (onesState 1).cfgValid = true ∧
      Written (onesState 1) Config.reBase 0 (onesState 1).n.toNat ∧
      Written (onesState 1) Config.imBase 0 (onesState 1).n.toNat) ∧ 2047 < 2 ^ 11 ∧ 10 < 11 := by
  have h := onesState_facts 1 (by decide) (by decide)
  exact ⟨⟨h.1, h.2.1, h.2.2.2.2.2⟩, by decide, by decide⟩

theorem witness_BitrevTwiceRestores :
    ConfigInv (onesState 11) ∧ Memory.wf (onesState 11).mem = true ∧
      (onesState 11).cfgValid = true ∧
      Written (onesState 11) Config.reBase 0 (onesState 11).n.toNat ∧
      Written (onesState 11) Config.imBase 0 (onesState 11).n.toNat := by
  have h := onesState_facts 11 (by decide) (by decide)
  exact ⟨h.1, h.2.2.2.2.1, h.2.1, h.2.2.2.2.2⟩

/-- The last butterfly of the last stage of the longest transform: j = 1023, g = 0. -/
theorem witness_StageComputesEveryButterfly :
    ConfigInv (onesState 11) ∧ (onesState 11).cfgValid = true ∧ 10 < (onesState 11).log2n.toNat ∧
      Written (onesState 11) Config.reBase 0 (onesState 11).n.toNat ∧
      Written (onesState 11) Config.imBase 0 (onesState 11).n.toNat ∧
      1023 < 2 ^ 10 ∧ 0 * (2 * 2 ^ 10) + 1023 + 2 ^ 10 < (onesState 11).n.toNat := by
  have h := onesState_facts 11 (by decide) (by decide)
  refine ⟨h.1, h.2.1, ?_, h.2.2.2.2.2.1, h.2.2.2.2.2.2, by decide, ?_⟩
  · rw [h.2.2.1]; decide
  · rw [h.2.2.2.1]; decide

theorem witness_FftIsBitrevThenStages :
    ConfigInv (onesState 11) ∧ Memory.wf (onesState 11).mem = true :=
  ⟨witness_BitrevTwiceRestores.1, witness_BitrevTwiceRestores.2.1⟩

theorem witness_FftStoresTheButterflyNetwork :
    ConfigInv (onesState 1) ∧ (onesState 1).cfgValid = true ∧
      Written (onesState 1) Config.reBase 0 (onesState 1).n.toNat ∧
      Written (onesState 1) Config.imBase 0 (onesState 1).n.toNat :=
  witness_BitrevPermutesByBitReversal.1

theorem witness_ButterflyNetworkIsTheDft :
    1 ≤ 1 ∧ ([1, 2] : List ℝ).length = 2 ^ 1 ∧ ([0, 0] : List ℝ).length = 2 ^ 1 := by simp

theorem witness_MagComputesTheMagnitudes :
    (onesState 1).cfgValid = true ∧
      Written (onesState 1) Config.reBase 0 ((onesState 1).n.toNat / 2) ∧
      Written (onesState 1) Config.imBase 0 ((onesState 1).n.toNat / 2) := by
  have h := witness_BitrevPermutesByBitReversal.1
  exact ⟨h.2.1, written_mono h.2.2.1 (Nat.div_le_self _ _), written_mono h.2.2.2 (Nat.div_le_self _ _)⟩

/-- Both zeros; a NaN beside an infinity; an infinity beside a number. -/
theorem witness_MagnitudeCornerCases :
    (f64Value 0 = 0 ∧ f64Value 0x8000000000000000 = 0 ∧ isFinite 0 = true ∧
        isFinite 0x8000000000000000 = true) ∧
      isNaN 0x7FF8000000000000 = true ∧
      isNaN 0xFFF0000000000000 = false ∧ isNaN 0x3FF0000000000000 = false ∧
      isFinite 0xFFF0000000000000 = false := by
  refine ⟨⟨?_, ?_, by decide, by decide⟩, by decide, by decide, by decide, by decide⟩
  · rw [f64Value, show classify 0 = .finite false 0 (-1074) from rfl]; norm_num
  · rw [f64Value, show classify 0x8000000000000000 = .finite true 0 (-1074) from rfl]; norm_num

/-- The window of W5: `N` = 256, carrier bin 94, the highest in range. -/
def windowState : State :=
  filled { configured 8 [] with carrierBin := 94 } Config.magBase 128 0x3FF0000000000000

theorem witness_ExtractCopiesTheWindow :
    windowState.cfgValid = true ∧ 33 ≤ windowState.carrierBin.toNat ∧
      windowState.carrierBin.toNat + 33 + 1 ≤ windowState.n.toNat / 2 ∧
      Written windowState Config.magBase (windowState.carrierBin.toNat - 33) 67 := by
  have hc : windowState.carrierBin = 94 := by
    rw [windowState, filled_same_but_memory { configured 8 [] with carrierBin := 94 }]
  have hn : windowState.n = 256 := by
    rw [windowState, filled_same_but_memory { configured 8 [] with carrierBin := 94 }]; rfl
  refine ⟨?_, by rw [hc]; decide, by rw [hc, hn]; decide, ?_⟩
  · rw [windowState, filled_same_but_memory { configured 8 [] with carrierBin := 94 }]; rfl
  · rw [hc]
    exact filled_written _ _ _ _ _ _ (by decide)

/-- The hypothesis of the statements about `ANALYZE`. -/
theorem witness_AnalyzePublishesThresholdsAndBaseline :
    Written (flatWindow 0x4024000000000000) Config.winBase 0 67 := written_flatWindow _

theorem witness_BandsAreTheQualifyingRuns :
    Written (flatWindow 0) Config.winBase 0 67 := written_flatWindow _

theorem witness_PeaksSpanTheQualifyingBins :
    Written (flatWindow 0xC024000000000000) Config.winBase 0 67 := written_flatWindow _

theorem witness_DirectionAndBinFollowTheRules :
    Written (flatWindow 0x3FF0000000000000) Config.winBase 0 67 := written_flatWindow _

theorem witness_FrequencyFollowsTheBin :
    Written (flatWindow 0x7FF0000000000000) Config.winBase 0 67 := written_flatWindow _

/-- The window of BA24, with a right peak. -/
theorem witness_ScansAreMirrorSymmetric :
    let w := window [(33, 0x4024000000000000), (40, 0x4000000000000000), (41, 0x4000000000000000),
      (55, 0x4010000000000000), (57, 0x400C000000000000)]
    w.length = 67 ∧ (rightPeak w).found = true := by decide +kernel

theorem witness_NanCarrierAndFlatWindow_nan :
    Written (flatWindow 0x7FF8000000000000) Config.winBase 0 67 ∧
      isNaN (winBin (flatWindow 0x7FF8000000000000) 33) = true :=
  ⟨written_flatWindow _, by rw [winBin_flatWindow _ _ (by decide)]; decide⟩

/-- The flat window of −0.0. -/
theorem witness_NanCarrierAndFlatWindow_flat :
    BaselineInv (flatWindow 0x8000000000000000) ∧ isFinite 0x8000000000000000 = true ∧
      0 ≤ f64Value 0x8000000000000000 ∧
      ∀ i < 67, Memory.readElem (flatWindow 0x8000000000000000).mem Config.winBase i =
        some 0x8000000000000000 := by
  refine ⟨?_, by decide, ?_, fun i hi => filled_readElem _ _ _ _ _ hi⟩
  · rw [flatWindow, filled_same_but_memory State.reset Config.winBase 67 0x8000000000000000]
    exact .inl ⟨rfl, rfl, rfl⟩
  · rw [f64Value, show classify 0x8000000000000000 = .finite true 0 (-1074) from rfl]
    norm_num

theorem witness_NopOnlyCompletes :
    EngineMoves (inFlight .engine 0) ∧ (inFlight .engine 0).pending = 0 := by decide

/-- The window of W4: `N` = 256, carrier bin 33, the lowest in range; RE is written and IM not. -/
def pipeState : State :=
  filled { configured 8 [] with carrierBin := 33 } Config.reBase 256 0x3FF0000000000000

theorem witness_PipeCompletesOnAWrittenFrame :
    ConfigInv pipeState ∧ pipeState.cfgValid = true ∧ 33 ≤ pipeState.carrierBin.toNat ∧
      pipeState.carrierBin.toNat + 33 + 1 ≤ pipeState.n.toNat / 2 ∧
      Written pipeState Config.reBase 0 pipeState.n.toNat := by
  have hs : SameButMemory { configured 8 [] with carrierBin := 33 } pipeState :=
    filled_same_but_memory _ _ _ _
  have hn : pipeState.n.toNat = 256 := by rw [hs]; rfl
  refine ⟨?_, by rw [hs]; rfl, by rw [hs]; decide, by rw [hn, hs]; decide, ?_⟩
  · rw [hs]
    exact configured_configInv 8 pipeState.mem (by decide) (by decide)
  · rw [hn]
    exact filled_written _ _ _ _ _ _ (by decide)

theorem witness_PipeIsTheCommandSequence :
    pipeState.cfgValid = true ∧ 33 ≤ pipeState.carrierBin.toNat ∧
      pipeState.carrierBin.toNat + 33 + 1 ≤ pipeState.n.toNat / 2 :=
  ⟨witness_PipeCompletesOnAWrittenFrame.2.1, witness_PipeCompletesOnAWrittenFrame.2.2.1,
    witness_PipeCompletesOnAWrittenFrame.2.2.2.1⟩

/-! ### Witnesses: arithmetic -/

/-- Half of the last place below 1: the tie 2^53 + 1 at 2^-53. -/
theorem witness_RoundingIsToNearestEven :
    roundDyadic false (2 ^ 53 + 1) (-53) = 0x3FF0000000000000 ∧
      isFinite 0x3FF0000000000000 = true ∧ isFinite 0x3FF0000000000001 = true ∧
      isFinite (roundDyadic true (2 ^ 54 - 1) 970) = false ∧
      isFinite (roundDyadic true (2 ^ 54 - 2) 970) = true := by decide +kernel

/-- A sum that is not zero (1 + 1) and one that is (1 − 1). -/
theorem witness_ArithmeticRoundsTheExactResultOnce :
    (isFinite 0x3FF0000000000000 = true ∧ isFinite 0xBFF0000000000000 = true) ∧
      f64Value 0x3FF0000000000000 + f64Value 0x3FF0000000000000 ≠ 0 ∧
      f64Value 0x3FF0000000000000 + f64Value 0xBFF0000000000000 = 0 := by
  refine ⟨by decide, ?_⟩
  rw [f64Value, f64Value,
    show classify 0x3FF0000000000000 = .finite false (2 ^ 52) (-52) from rfl,
    show classify 0xBFF0000000000000 = .finite true (2 ^ 52) (-52) from rfl]
  norm_num

/-- Both infinities beside a zero, a number and each other. -/
theorem witness_ArithmeticRoundsTheExactResultOnce_infinite :
    (isFinite 0x7FF0000000000000 = false ∧ isNaN 0x7FF0000000000000 = false) ∧
      (isFinite 0xFFF0000000000000 = false ∧ isNaN 0xFFF0000000000000 = false) ∧
      (isFinite 0 = true ∧ f64Value 0 = 0) ∧
      (isFinite 0x3FF0000000000000 = true ∧ f64Value 0x3FF0000000000000 ≠ 0) ∧
      (0x7FF0000000000000 : F64) ≠ 0xFFF0000000000000 := by
  refine ⟨by decide, by decide, ⟨by decide, ?_⟩, ⟨by decide, ?_⟩, by decide⟩
  · rw [f64Value, show classify 0 = .finite false 0 (-1074) from rfl]; norm_num
  · rw [f64Value, show classify 0x3FF0000000000000 = .finite false (2 ^ 52) (-52) from rfl]; norm_num

/-- −0.0, and the negative number of least magnitude. -/
theorem witness_SquareRootIsNearest_other :
    (isFinite 0x8000000000000000 = true ∧ f64Value 0x8000000000000000 = 0) ∧
      isFinite 0x8000000000000001 = true ∧ f64Value 0x8000000000000001 < 0 := by
  refine ⟨⟨by decide, ?_⟩, by decide, ?_⟩
  · rw [f64Value, show classify 0x8000000000000000 = .finite true 0 (-1074) from rfl]; norm_num
  · rw [f64Value, show classify 0x8000000000000001 = .finite true 1 (-1074) from rfl]; norm_num

theorem witness_SquareRootIsNearest :
    isFinite 0x3FF0000000000000 = true ∧ 0 < f64Value 0x3FF0000000000000 := by
  refine ⟨by decide, ?_⟩
  rw [f64Value, show classify 0x3FF0000000000000 = .finite false (2 ^ 52) (-52) from rfl]
  norm_num

theorem witness_NanResultsAreCanonical :
    isNaN 0x7FF8000000000000 = true ∧ isNaN 0xFFF0000000000001 = true ∧
      isNaN (fsqrt 0xBFF0000000000000) = true := by decide +kernel

theorem witness_ComparisonIsTheRealOrder :
    (isFinite 0 = true ∧ isFinite 0x8000000000000000 = true) ∧ isNaN 0x7FF0000000000001 = true ∧
      isNaN 0x7FF0000000000000 = false ∧ isNaN 0xFFF0000000000000 = false := by decide

/-! ### A test through the laws of the memory -/

/-- W5, for every contents of MAG: `EXTRACT` at carrier bin 94 leaves WIN[66] = MAG[127] and WIN[0] =
MAG[61]. -/
theorem test_extract (mags : List F64) (hl : mags.length = 128) (s : State)
    (hs : s = { configured 8 (Memory.writeElems [] Config.magBase 0 mags) with carrierBin := 94 }) :
    ∃ t, exec .extract s = .next t ∧
      Memory.readElem t.mem Config.winBase 66 = mags[127]? ∧
      Memory.readElem t.mem Config.winBase 0 = mags[61]? := by
  have hm : s.mem = Memory.writeElems [] Config.magBase 0 mags := by rw [hs]; rfl
  have hw : Written s Config.magBase 61 67 := written_of_writeElems hm (by omega)
  obtain ⟨xs, hx, hxl⟩ := readElems_of_written hw
  have he := ((Memory.readElems_eq_some _ _ _ _ _).1 hx).2
  have hr (j : Nat) (hj : j < 67) :
      Memory.readElem (storeArray Config.winBase xs s).mem Config.winBase j = mags[61 + j]? := by
    have h1 := Memory.readElem_writeElems s.mem Config.winBase 0 j xs (by omega)
    have h2 := he j (by omega)
    have h3 := Memory.readElem_writeElems [] Config.magBase 0 (61 + j) mags (by omega)
    rw [Nat.zero_add] at h1 h3
    rw [hm, h3] at h2
    rw [List.getElem?_eq_getElem (by omega), h2]
    exact h1
  refine ⟨storeArray Config.winBase xs s, ?_, hr 66 (by omega), hr 0 (by omega)⟩
  have h1 : s.cfgValid = true := by rw [hs]; rfl
  have h2 : windowInRange s = true := by
    rw [windowInRange, show s.carrierBin = 94 by rw [hs], show s.n = 256 by rw [hs]; rfl]; decide
  have h3 : windowStart s = 61 := by rw [hs]; rfl
  show execExtract s = _
  rw [execExtract, requireCfg_of_valid h1, requireWindow, if_pos h2, extractBody, h3]
  simp only [Config.winLen, hx]

end Sys2Proof.Tests
end

/-! ## Binary64 encodings

The proofs about arithmetic see an encoding as a sign and a magnitude, its low 63 bits. A finite
magnitude `g` stands for `units g` units of 2^-1074, the least positive number; `units` is strictly
increasing, so the order of the magnitudes is the order of the values (spec 00_scope R13, log 9). -/

namespace Sys2Proof.Machine

/-! ### Sign and magnitude -/

/-- The low 63 bits: exponent field and fraction. -/
def magnitudeBits (x : F64) : Nat := x.toNat % 2 ^ 63

theorem magnitudeBits_lt (x : F64) : magnitudeBits x < 2 ^ 63 := Nat.mod_lt _ (by norm_num)

theorem expField_eq (x : F64) : expField x = magnitudeBits x / 2 ^ 52 := by
  rw [expField, magnitudeBits, BitVec.extractLsb'_toNat, Nat.shiftRight_eq_div_pow]
  omega

theorem fracField_eq (x : F64) : fracField x = magnitudeBits x % 2 ^ 52 := by
  rw [fracField, magnitudeBits, BitVec.extractLsb'_toNat, Nat.shiftRight_eq_div_pow]
  omega

@[simp] theorem msb_packSign (neg : Bool) {g : Nat} (hg : g < 2 ^ 63) :
    (packSign neg g).msb = neg := by
  rw [BitVec.msb_eq_decide, packSign, BitVec.toNat_ofNat]
  cases neg <;> simp <;> omega

@[simp] theorem magnitudeBits_packSign (neg : Bool) {g : Nat} (hg : g < 2 ^ 63) :
    magnitudeBits (packSign neg g) = g := by
  rw [magnitudeBits, packSign, BitVec.toNat_ofNat]
  cases neg <;> simp <;> omega

theorem getLsbD_zero_packSign (neg : Bool) (g : Nat) :
    (packSign neg g).getLsbD 0 = decide (g % 2 = 1) := by
  rw [packSign, BitVec.getLsbD_ofNat]
  cases neg <;> simp [Nat.testBit_zero]
  omega

/-- Every encoding is a sign and a magnitude put together. -/
theorem packSign_magnitudeBits (x : F64) : packSign x.msb (magnitudeBits x) = x := by
  have hx := x.isLt
  apply BitVec.eq_of_toNat_eq
  rw [packSign, magnitudeBits, BitVec.toNat_ofNat, BitVec.msb_eq_decide]
  split <;> rename_i h <;> simp at h <;> omega

theorem eq_packSign_of_magnitudeBits {x : F64} {g : Nat} (h : magnitudeBits x = g) :
    x = packSign x.msb g := by
  rw [← h, packSign_magnitudeBits]

theorem isFinite_iff (x : F64) : isFinite x = true ↔ magnitudeBits x < 0x7FF * 2 ^ 52 := by
  have := magnitudeBits_lt x
  rw [isFinite, expField_eq, bne_iff_ne]
  omega

theorem isNaN_iff (x : F64) : isNaN x = true ↔ 0x7FF * 2 ^ 52 < magnitudeBits x := by
  have := magnitudeBits_lt x
  rw [isNaN, expField_eq, fracField_eq, Bool.and_eq_true, beq_iff_eq, bne_iff_ne]
  omega

theorem isNaN_packSign {neg : Bool} {g : Nat} (hg : g ≤ 0x7FF * 2 ^ 52) :
    isNaN (packSign neg g) = false := by
  rw [← Bool.not_eq_true, isNaN_iff, magnitudeBits_packSign _ (by omega)]
  omega

theorem infOf_eq (neg : Bool) :
    infOf neg = if neg then 0xFFF0000000000000 else 0x7FF0000000000000 := by
  cases neg <;> rfl

theorem zeroOf_eq (neg : Bool) : zeroOf neg = if neg then 0x8000000000000000 else 0 := by
  cases neg <;> rfl

/-- An operand that is neither finite nor a NaN is an infinity. -/
theorem eq_infOf {x : F64} (hf : isFinite x = false) (hn : isNaN x = false) : x = infOf x.msb := by
  apply eq_packSign_of_magnitudeBits
  rw [← Bool.not_eq_true, isFinite_iff] at hf
  rw [← Bool.not_eq_true, isNaN_iff] at hn
  omega

theorem isNaN_of_isFinite {x : F64} (hf : isFinite x = true) : isNaN x = false := by
  rw [isFinite_iff] at hf
  rw [← Bool.not_eq_true, isNaN_iff]
  omega

/-! ### The negation -/

@[simp] theorem msb_fneg (x : F64) : (fneg x).msb = !x.msb := by
  rw [fneg, BitVec.msb_xor, show (0x8000000000000000 : F64).msb = true from rfl, Bool.xor_true]

@[simp] theorem magnitudeBits_fneg (x : F64) : magnitudeBits (fneg x) = magnitudeBits x := by
  rw [magnitudeBits, fneg, BitVec.toNat_xor, Nat.xor_mod_two_pow, magnitudeBits,
    show (0x8000000000000000 : F64).toNat % 2 ^ 63 = 0 from rfl, Nat.xor_zero]

@[simp] theorem isFinite_fneg (x : F64) : isFinite (fneg x) = isFinite x := by
  rw [Bool.eq_iff_iff, isFinite_iff, isFinite_iff, magnitudeBits_fneg]

@[simp] theorem isNaN_fneg (x : F64) : isNaN (fneg x) = isNaN x := by
  rw [Bool.eq_iff_iff, isNaN_iff, isNaN_iff, magnitudeBits_fneg]

/-! ### The value of a magnitude -/

/-- The significand of a finite magnitude. -/
def magnitudeSig (g : Nat) : Nat := if g / 2 ^ 52 = 0 then g % 2 ^ 52 else 2 ^ 52 + g % 2 ^ 52

/-- The exponent of a finite magnitude. -/
def magnitudeExp (g : Nat) : Int := if g / 2 ^ 52 = 0 then -1074 else (g / 2 ^ 52 : Nat) - 1075

/-- The value of a magnitude, counted in units of 2^-1074. -/
def units (g : Nat) : Nat := magnitudeSig g * 2 ^ (g / 2 ^ 52 - 1)

theorem magnitudeSig_lt (g : Nat) : magnitudeSig g < 2 ^ 53 := by
  unfold magnitudeSig
  split <;> omega

theorem magnitudeExp_eq (g : Nat) : magnitudeExp g = ((g / 2 ^ 52 - 1 : Nat) : Int) - 1074 := by
  unfold magnitudeExp
  split <;> omega

@[simp] theorem units_zero : units 0 = 0 := by simp [units, magnitudeSig]

/-- The next magnitude is one last place further, across the ends of the binades too. -/
theorem units_succ (g : Nat) : units (g + 1) = units g + 2 ^ (g / 2 ^ 52 - 1) := by
  unfold units magnitudeSig
  rcases Nat.lt_or_ge (g % 2 ^ 52 + 1) (2 ^ 52) with h | h
  · rw [show (g + 1) / 2 ^ 52 = g / 2 ^ 52 by omega,
      show (g + 1) % 2 ^ 52 = g % 2 ^ 52 + 1 by omega]
    split <;> ring
  · rw [show (g + 1) / 2 ^ 52 = g / 2 ^ 52 + 1 by omega, show (g + 1) % 2 ^ 52 = 0 by omega,
      show g % 2 ^ 52 = 2 ^ 52 - 1 by omega]
    rcases Nat.eq_zero_or_pos (g / 2 ^ 52) with h0 | h0
    · rw [if_pos h0, if_neg (by omega), h0]
      norm_num
    · obtain ⟨e, he⟩ := Nat.exists_eq_add_of_lt h0
      rw [if_neg (by omega), if_neg (by omega), he]
      simp only [Nat.zero_add, Nat.add_sub_cancel, Nat.pow_succ]
      omega

theorem units_strictMono : StrictMono units :=
  strictMono_nat_of_lt_succ fun g => by
    rw [units_succ]
    exact Nat.lt_add_of_pos_right (by positivity)

/-- What the magnitude with the significand `s` at the last place `2^T` stands for: a significand up
to 2^53 carries into the exponent field as it should. -/
theorem units_carry {s T : Nat} (hs : s ≤ 2 ^ 53) (hT : T = 0 ∨ 2 ^ 52 ≤ s) :
    units (T * 2 ^ 52 + s) = s * 2 ^ T := by
  unfold units magnitudeSig
  rcases Nat.lt_or_ge s (2 ^ 52) with h | h
  · have hT : T = 0 := by omega
    subst hT
    simp only [Nat.zero_mul, Nat.zero_add, Nat.div_eq_of_lt h, Nat.mod_eq_of_lt h, if_true]
  · rcases Nat.eq_or_lt_of_le hs with rfl | h'
    · rw [show (T * 2 ^ 52 + 2 ^ 53) / 2 ^ 52 = T + 2 by omega,
        show (T * 2 ^ 52 + 2 ^ 53) % 2 ^ 52 = 0 by omega, if_neg (by omega),
        show T + 2 - 1 = T + 1 by omega, Nat.pow_succ]
      omega
    · rw [show (T * 2 ^ 52 + s) / 2 ^ 52 = T + 1 by omega,
        show (T * 2 ^ 52 + s) % 2 ^ 52 = s - 2 ^ 52 by omega, if_neg (by omega),
        show 2 ^ 52 + (s - 2 ^ 52) = s by omega, Nat.add_sub_cancel]

/-- Numbers are multiples of `2^T` units, but for those below 2^52 times that. -/
theorem units_dvd_or_lt (g T : Nat) : 2 ^ T ∣ units g ∨ 0 < T ∧ units g < 2 ^ 52 * 2 ^ T := by
  rcases Nat.lt_or_ge (g / 2 ^ 52 - 1) T with h | h
  · refine .inr ⟨by omega, ?_⟩
    calc units g < 2 ^ 53 * 2 ^ (g / 2 ^ 52 - 1) :=
          Nat.mul_lt_mul_of_pos_right (magnitudeSig_lt g) (by positivity)
      _ = 2 ^ 52 * 2 ^ (g / 2 ^ 52 - 1 + 1) := by ring
      _ ≤ 2 ^ 52 * 2 ^ T := Nat.mul_le_mul_left _ (Nat.pow_le_pow_right (by norm_num) h)
  · exact .inl ((pow_dvd_pow 2 h).trans (Nat.dvd_mul_left _ _))

/-! ### The class and the value of an encoding -/

theorem classify_of_isNaN {x : F64} (h : isNaN x = true) : classify x = .nan := by
  rw [isNaN, Bool.and_eq_true, beq_iff_eq, bne_iff_ne] at h
  rw [classify, if_pos h.1, if_neg h.2]

@[simp] theorem classify_infOf (neg : Bool) : classify (infOf neg) = .inf neg := by
  cases neg <;> rfl

theorem classify_of_isFinite {x : F64} (h : isFinite x = true) :
    classify x =
      .finite x.msb (magnitudeSig (magnitudeBits x)) (magnitudeExp (magnitudeBits x)) := by
  rw [isFinite, bne_iff_ne] at h
  rw [classify, if_neg h, expField_eq, fracField_eq, signBit, magnitudeSig, magnitudeExp]
  split <;> rfl

/-- The integer of a sign and an absolute value. -/
def withSign (neg : Bool) (n : Nat) : Int := if neg then -n else n

@[simp] theorem withSign_true (n : Nat) : withSign true n = -n := rfl

@[simp] theorem withSign_false (n : Nat) : withSign false n = n := rfl

theorem withSign_cast {K : Type*} [Ring K] (neg : Bool) (n : Nat) :
    (withSign neg n : K) = (if neg then -1 else 1) * (n : K) := by
  cases neg <;> simp

theorem withSign_not (neg : Bool) (n : Nat) : withSign (!neg) n = -withSign neg n := by
  cases neg <;> simp

@[simp] theorem withSign_eq_zero (neg : Bool) (n : Nat) : withSign neg n = 0 ↔ n = 0 := by
  cases neg <;> simp

/-- The value of a finite encoding, counted in units of 2^-1074. -/
def signedUnits (x : F64) : Int := withSign x.msb (units (magnitudeBits x))

theorem magnitudeSig_mul_zpow (g : Nat) :
    (magnitudeSig g : ℚ) * 2 ^ magnitudeExp g = units g * 2 ^ (-1074 : Int) := by
  rw [magnitudeExp_eq, units, sub_eq_add_neg, zpow_add₀ two_ne_zero, zpow_natCast, ← mul_assoc,
    Nat.cast_mul, Nat.cast_pow, Nat.cast_ofNat]

theorem f64Value_of_isFinite {x : F64} (h : isFinite x = true) :
    f64Value x = signedUnits x * 2 ^ (-1074 : Int) := by
  rw [f64Value, classify_of_isFinite h]
  simp only
  rw [mul_assoc, magnitudeSig_mul_zpow, signedUnits, withSign_cast, mul_assoc]

theorem f64Value_fneg {x : F64} (h : isFinite x = true) : f64Value (fneg x) = -f64Value x := by
  rw [f64Value_of_isFinite h, f64Value_of_isFinite (by simpa using h), signedUnits, msb_fneg,
    magnitudeBits_fneg, withSign_not, signedUnits, Int.cast_neg, neg_mul]

theorem units_eq_zero (g : Nat) : units g = 0 ↔ g = 0 := by
  simpa using units_strictMono.injective.eq_iff (a := g) (b := 0)

/-- Only the two zeros have the value 0. -/
theorem f64Value_eq_zero {x : F64} (h : isFinite x = true) :
    f64Value x = 0 ↔ magnitudeBits x = 0 := by
  rw [f64Value_of_isFinite h, mul_eq_zero, or_iff_left (by positivity), Int.cast_eq_zero,
    signedUnits, withSign_eq_zero, units_eq_zero]

theorem magnitudeSig_eq_zero (g : Nat) : magnitudeSig g = 0 ↔ g = 0 := by
  rw [← units_eq_zero g, units, Nat.mul_eq_zero, or_iff_left (by positivity)]

end Sys2Proof.Machine

/-! ## Comparison, NaN results and arithmetic on binary64 (00_scope R13, 92_eei_decisions D3) -/

namespace Sys2Proof.Machine

/-! ### The order -/

theorem orderKey_eq (x : F64) : orderKey x = withSign x.msb (magnitudeBits x) := by
  rw [orderKey, signBit, withSign, BitVec.extractLsb'_toNat, Nat.shiftRight_zero, magnitudeBits]

/-- A strictly increasing function that keeps 0 keeps the order of signed numbers. -/
theorem withSign_le_withSign_iff {f : Nat → Nat} (hf : StrictMono f) (h0 : f 0 = 0)
    (n₁ n₂ : Bool) (k l : Nat) :
    withSign n₁ (f k) ≤ withSign n₂ (f l) ↔ withSign n₁ k ≤ withSign n₂ l := by
  have hk : f k = 0 ↔ k = 0 := by rw [← hf.injective.eq_iff (a := k), h0]
  have hl : f l = 0 ↔ l = 0 := by rw [← hf.injective.eq_iff (a := l), h0]
  have hkl := hf.le_iff_le (a := k) (b := l)
  have hlk := hf.le_iff_le (a := l) (b := k)
  cases n₁ <;> cases n₂ <;> simp only [withSign_true, withSign_false] <;> omega

theorem fge_iff {a b : F64} (ha : isNaN a = false) (hb : isNaN b = false) :
    fge a b = true ↔ orderKey b ≤ orderKey a := by
  simp [fge, ha, hb]

theorem fge_iff_f64Value_le {a b : F64} (ha : isFinite a = true) (hb : isFinite b = true) :
    fge a b = true ↔ f64Value b ≤ f64Value a := by
  rw [fge_iff (isNaN_of_isFinite ha) (isNaN_of_isFinite hb), f64Value_of_isFinite ha,
    f64Value_of_isFinite hb, mul_le_mul_iff_left₀ (by positivity), Int.cast_le, signedUnits,
    signedUnits, withSign_le_withSign_iff units_strictMono units_zero, orderKey_eq, orderKey_eq]

theorem orderKey_infOf (neg : Bool) : orderKey (infOf neg) = withSign neg (0x7FF * 2 ^ 52) := by
  cases neg <;> rfl

/-- What is no NaN lies between the infinities, and only they reach themselves. -/
theorem orderKey_bounds {x : F64} (h : isNaN x = false) :
    (orderKey (infOf true) ≤ orderKey x ∧ orderKey x ≤ orderKey (infOf false)) ∧
      (orderKey (infOf false) ≤ orderKey x ↔ x = infOf false) ∧
      (orderKey x ≤ orderKey (infOf true) ↔ x = infOf true) := by
  have hx : magnitudeBits x ≤ 0x7FF * 2 ^ 52 := by
    rw [← Bool.not_eq_true, isNaN_iff] at h
    omega
  have heq : ∀ neg, x.msb = neg → magnitudeBits x = 0x7FF * 2 ^ 52 → x = infOf neg :=
    fun neg hneg hg => hneg ▸ eq_packSign_of_magnitudeBits hg
  simp only [orderKey_eq x, orderKey_infOf]
  refine ⟨?_, ⟨fun h => ?_, ?_⟩, ⟨fun h => ?_, ?_⟩⟩
  · cases x.msb <;> simp only [withSign_true, withSign_false] <;> omega
  · cases hm : x.msb <;> rw [hm] at h <;>
      simp only [withSign_true, withSign_false] at h
    · exact heq false hm (by omega)
    · omega
  · rintro rfl
    rfl
  · cases hm : x.msb <;> rw [hm] at h <;>
      simp only [withSign_true, withSign_false] at h
    · omega
    · exact heq true hm (by omega)
  · rintro rfl
    rfl

/-- Settles O59: magnitudes and values are ordered alike, and the infinities bound both. -/
theorem comparisonIsTheRealOrder : Obligations.ComparisonIsTheRealOrder := by
  intro a b
  refine ⟨fge_iff_f64Value_le, ?_, fun ha => ?_⟩
  · rintro (h | h) <;> simp [fge, h]
  · obtain ⟨⟨hlow, hhigh⟩, htop, hbot⟩ := orderKey_bounds ha
    exact ⟨(fge_iff rfl ha).2 hhigh, (fge_iff ha rfl).2 hlow, (fge_iff ha rfl).trans htop,
      (fge_iff rfl ha).trans hbot⟩

/-! ### Results by the classes of the operands -/

/-- The only NaN a result may be is the canonical one (D3). -/
def NanIsCanonical (r : F64) : Prop := isNaN r = true → r = canonicalNaN

theorem nanIsCanonical_canonicalNaN : NanIsCanonical canonicalNaN := fun _ => rfl

theorem nanIsCanonical_packSign {neg : Bool} {g : Nat} (hg : g ≤ 0x7FF * 2 ^ 52) :
    NanIsCanonical (packSign neg g) := fun h => by simp [isNaN_packSign hg] at h

theorem nanIsCanonical_infOf (neg : Bool) : NanIsCanonical (infOf neg) :=
  nanIsCanonical_packSign le_rfl

theorem nanIsCanonical_zeroOf (neg : Bool) : NanIsCanonical (zeroOf neg) :=
  nanIsCanonical_packSign (Nat.zero_le _)

theorem nanIsCanonical_ite {p : Prop} [Decidable p] {x y : F64} (hx : NanIsCanonical x)
    (hy : NanIsCanonical y) : NanIsCanonical (if p then x else y) := by
  split <;> assumption

/-- A rounded result is an infinity at most. -/
theorem nanIsCanonical_roundDyadic (neg : Bool) (m : Nat) (q : Int) :
    NanIsCanonical (roundDyadic neg m q) :=
  nanIsCanonical_ite (nanIsCanonical_zeroOf _) (nanIsCanonical_packSign (min_le_right _ _))

theorem nanIsCanonical_fadd (a b : F64) : NanIsCanonical (fadd a b) := by
  rw [fadd]
  split
  · exact nanIsCanonical_canonicalNaN
  · exact nanIsCanonical_canonicalNaN
  · exact nanIsCanonical_ite (nanIsCanonical_infOf _) nanIsCanonical_canonicalNaN
  · exact nanIsCanonical_infOf _
  · exact nanIsCanonical_infOf _
  · exact nanIsCanonical_ite (nanIsCanonical_zeroOf _) (nanIsCanonical_roundDyadic _ _ _)

theorem nanIsCanonical_fmul (a b : F64) : NanIsCanonical (fmul a b) := by
  rw [fmul]
  split
  · exact nanIsCanonical_canonicalNaN
  · exact nanIsCanonical_canonicalNaN
  · exact nanIsCanonical_infOf _
  · exact nanIsCanonical_ite nanIsCanonical_canonicalNaN (nanIsCanonical_infOf _)
  · exact nanIsCanonical_ite nanIsCanonical_canonicalNaN (nanIsCanonical_infOf _)
  · exact nanIsCanonical_roundDyadic _ _ _

theorem nanIsCanonical_fsqrt (a : F64) : NanIsCanonical (fsqrt a) := by
  rw [fsqrt]
  split
  · exact nanIsCanonical_canonicalNaN
  · exact nanIsCanonical_ite nanIsCanonical_canonicalNaN (nanIsCanonical_infOf _)
  · exact nanIsCanonical_ite (nanIsCanonical_zeroOf _)
      (nanIsCanonical_ite nanIsCanonical_canonicalNaN (nanIsCanonical_roundDyadic _ _ _))

theorem fadd_of_isNaN {a b : F64} (h : isNaN a = true ∨ isNaN b = true) :
    fadd a b = canonicalNaN := by
  rcases h with h | h <;> rw [fadd, classify_of_isNaN h]
  cases classify a <;> rfl

theorem fmul_of_isNaN {a b : F64} (h : isNaN a = true ∨ isNaN b = true) :
    fmul a b = canonicalNaN := by
  rcases h with h | h <;> rw [fmul, classify_of_isNaN h]
  cases classify a <;> rfl

theorem fsub_of_isNaN {a b : F64} (h : isNaN a = true ∨ isNaN b = true) :
    fsub a b = canonicalNaN :=
  fadd_of_isNaN (by rwa [isNaN_fneg])

theorem fsqrt_of_isNaN {a : F64} (h : isNaN a = true) : fsqrt a = canonicalNaN := by
  rw [fsqrt, classify_of_isNaN h]

/-- Settles O58, by the classes of the operands: no rounded result, infinity or zero is a NaN. -/
theorem nanResultsAreCanonical : Obligations.NanResultsAreCanonical := by
  intro a b
  refine ⟨fun h => ⟨fadd_of_isNaN h, fsub_of_isNaN h, fmul_of_isNaN h⟩, fsqrt_of_isNaN, ?_⟩
  intro r hr hn
  simp only [List.mem_cons, List.not_mem_nil, or_false] at hr
  rcases hr with rfl | rfl | rfl | rfl
  · exact nanIsCanonical_fadd a b hn
  · exact nanIsCanonical_fadd a (fneg b) hn
  · exact nanIsCanonical_fmul a b hn
  · exact nanIsCanonical_fsqrt a hn

/-! ### Finite operands -/

theorem f64Value_eq_sig_mul_exp {x : F64} (h : isFinite x = true) :
    f64Value x = (if x.msb then -1 else 1) * (magnitudeSig (magnitudeBits x) : ℚ) *
      2 ^ magnitudeExp (magnitudeBits x) := by
  rw [f64Value, classify_of_isFinite h]

/-- Aligning to a lower exponent keeps the value. -/
theorem alignTo_mul_zpow (neg : Bool) (sig : Nat) {e e' : Int} (h : e' ≤ e) :
    (alignTo neg sig e e' : ℚ) * 2 ^ e' = (if neg then -1 else 1) * (sig : ℚ) * 2 ^ e := by
  rw [show alignTo neg sig e e' = withSign neg (sig * 2 ^ (e - e').toNat) from rfl, withSign_cast,
    Nat.cast_mul, Nat.cast_pow, Nat.cast_ofNat, ← zpow_natCast, Int.toNat_of_nonneg (by omega),
    mul_assoc, mul_assoc, ← zpow_add₀ two_ne_zero, sub_add_cancel, mul_assoc]

/-- The sum of finite operands is computed as an exact integer of some unit, and rounded once. -/
theorem fadd_of_isFinite {a b : F64} (ha : isFinite a = true) (hb : isFinite b = true) :
    ∃ v e : Int, (v : ℚ) * 2 ^ e = f64Value a + f64Value b ∧
      fadd a b = if v = 0 then zeroOf (a.msb && b.msb)
        else roundDyadic (decide (v < 0)) v.natAbs e := by
  rw [fadd, classify_of_isFinite ha, classify_of_isFinite hb, f64Value_eq_sig_mul_exp ha,
    f64Value_eq_sig_mul_exp hb]
  refine ⟨_, _, ?_, rfl⟩
  rw [Int.cast_add, add_mul, alignTo_mul_zpow _ _ (min_le_left _ _),
    alignTo_mul_zpow _ _ (min_le_right _ _)]

theorem withSign_natAbs (v : Int) : withSign (decide (v < 0)) v.natAbs = v := by
  by_cases h : v < 0
  · rw [withSign, decide_eq_true h, if_pos rfl]
    omega
  · rw [withSign, decide_eq_false h, if_neg Bool.false_ne_true]
    omega

theorem fadd_of_sum_ne_zero {a b : F64} (ha : isFinite a = true) (hb : isFinite b = true)
    (h : f64Value a + f64Value b ≠ 0) : ∃ (neg : Bool) (m : Nat) (q : Int),
      (if neg then -1 else 1) * (m : ℚ) * (2 : ℚ) ^ q = f64Value a + f64Value b ∧
        fadd a b = roundDyadic neg m q := by
  obtain ⟨v, e, hv, hr⟩ := fadd_of_isFinite ha hb
  have hv0 : v ≠ 0 := by
    rintro rfl
    simp [← hv] at h
  refine ⟨decide (v < 0), v.natAbs, e, ?_, by rw [hr, if_neg hv0]⟩
  rw [← withSign_cast, withSign_natAbs, hv]

theorem fadd_of_sum_eq_zero {a b : F64} (ha : isFinite a = true) (hb : isFinite b = true)
    (h : f64Value a + f64Value b = 0) : fadd a b = zeroOf (a.msb && b.msb) := by
  obtain ⟨v, e, hv, hr⟩ := fadd_of_isFinite ha hb
  rw [h, mul_eq_zero, or_iff_left (by positivity), Int.cast_eq_zero] at hv
  rw [hr, if_pos hv]

theorem fmul_of_isFinite {a b : F64} (ha : isFinite a = true) (hb : isFinite b = true) :
    ∃ (neg : Bool) (m : Nat) (q : Int),
      (if neg then -1 else 1) * (m : ℚ) * (2 : ℚ) ^ q = f64Value a * f64Value b ∧
      neg = (a.msb ^^ b.msb) ∧ fmul a b = roundDyadic neg m q := by
  rw [fmul, classify_of_isFinite ha, classify_of_isFinite hb, f64Value_eq_sig_mul_exp ha,
    f64Value_eq_sig_mul_exp hb]
  refine ⟨_, _, _, ?_, rfl, rfl⟩
  have hsign : (if (a.msb ^^ b.msb) then -1 else 1 : ℚ) =
      (if a.msb then -1 else 1) * (if b.msb then -1 else 1) := by
    cases a.msb <;> cases b.msb <;> norm_num
  rw [hsign, Nat.cast_mul, zpow_add₀ two_ne_zero]
  ring

/-! ### Infinite operands -/

@[simp] theorem fneg_infOf (neg : Bool) : fneg (infOf neg) = infOf (!neg) := by cases neg <;> rfl

@[simp] theorem infOf_inj {n₁ n₂ : Bool} : infOf n₁ = infOf n₂ ↔ n₁ = n₂ := by
  cases n₁ <;> cases n₂ <;> decide

theorem msb_infOf (neg : Bool) : (infOf neg).msb = neg := by cases neg <;> rfl

theorem fadd_infOf_finite (neg : Bool) {b : F64} (hb : isFinite b = true) :
    fadd (infOf neg) b = infOf neg ∧ fadd b (infOf neg) = infOf neg := by
  simp [fadd, classify_of_isFinite hb]

theorem fmul_infOf_finite (neg : Bool) {b : F64} (hb : isFinite b = true) :
    fmul (infOf neg) b = (if f64Value b = 0 then canonicalNaN else infOf (neg ^^ b.msb)) ∧
      fmul b (infOf neg) = (if f64Value b = 0 then canonicalNaN else infOf (neg ^^ b.msb)) := by
  simp only [fmul, classify_infOf, classify_of_isFinite hb, magnitudeSig_eq_zero,
    f64Value_eq_zero hb, Bool.xor_comm b.msb, and_self]

theorem fadd_infOf_infOf (n₁ n₂ : Bool) :
    fadd (infOf n₁) (infOf n₂) = if n₁ = n₂ then infOf n₁ else canonicalNaN := by
  simp [fadd]

theorem fmul_infOf_infOf (n₁ n₂ : Bool) : fmul (infOf n₁) (infOf n₂) = infOf (n₁ ^^ n₂) := by
  simp [fmul]

/-- Settles O56: finite operands by their exact integers of a common unit, infinite ones by their
signs. -/
theorem arithmeticRoundsTheExactResultOnce : Obligations.ArithmeticRoundsTheExactResultOnce := by
  refine ⟨fun a b ha hb => ?_, fun a b ha hna hb => ?_, fun a b ha hna hb hnb => ?_⟩
  · have hb' : isFinite (fneg b) = true := by rwa [isFinite_fneg]
    simp only [sub_eq_add_neg, ← f64Value_fneg hb, ← msb_fneg, ← zeroOf_eq]
    exact ⟨fmul_of_isFinite ha hb, fadd_of_sum_ne_zero ha hb, fadd_of_sum_eq_zero ha hb,
      fadd_of_sum_ne_zero ha hb', fadd_of_sum_eq_zero ha hb'⟩
  · obtain ⟨neg, rfl⟩ : ∃ neg, a = infOf neg := ⟨_, eq_infOf ha hna⟩
    have hb' : isFinite (fneg b) = true := by rwa [isFinite_fneg]
    obtain ⟨hadd, hadd'⟩ := fadd_infOf_finite neg hb
    obtain ⟨hmul, hmul'⟩ := fmul_infOf_finite neg hb
    refine ⟨hadd, hadd', (fadd_infOf_finite neg hb').1, ?_, fun h0 => ?_, fun h0 => ?_⟩
    · rw [fsub, fneg_infOf, (fadd_infOf_finite _ hb).2, infOf_eq, msb_infOf]
      cases neg <;> rfl
    · rw [hmul, hmul', if_pos h0]
      exact ⟨rfl, rfl⟩
    · rw [hmul, hmul', if_neg h0, infOf_eq, msb_infOf]
      exact ⟨rfl, rfl⟩
  · obtain ⟨n₁, rfl⟩ : ∃ neg, a = infOf neg := ⟨_, eq_infOf ha hna⟩
    obtain ⟨n₂, rfl⟩ : ∃ neg, b = infOf neg := ⟨_, eq_infOf hb hnb⟩
    rw [fsub, fneg_infOf, fadd_infOf_infOf, fadd_infOf_infOf, fmul_infOf_infOf, infOf_eq (_ ^^ _),
      msb_infOf, msb_infOf]
    refine ⟨fun h => ?_, fun h => ?_, rfl⟩
    · rw [infOf_inj] at h
      subst h
      simp [canonicalNaN]
    · rw [Ne, infOf_inj] at h
      have hne : n₁ = !n₂ := by cases n₁ <;> cases n₂ <;> simp_all
      simp [hne, canonicalNaN]

end Sys2Proof.Machine

/-! ## Rounding to nearest, ties to even (00_scope R13) -/

namespace Sys2Proof.Machine

/-! ### Rounding to an integer -/

/-- The quotient is at most half above and half below the result, which is even on a tie. -/
theorem shiftRightNearest_spec (m d : Nat) :
    2 * m ≤ 2 * (shiftRightNearest m d * 2 ^ d) + 2 ^ d ∧
      2 * (shiftRightNearest m d * 2 ^ d) ≤ 2 * m + 2 ^ d ∧
      (2 * m = 2 * (shiftRightNearest m d * 2 ^ d) + 2 ^ d ∨
        2 * (shiftRightNearest m d * 2 ^ d) = 2 * m + 2 ^ d → shiftRightNearest m d % 2 = 0) := by
  have hdiv := Nat.div_add_mod m (2 ^ d)
  have hlt : m % 2 ^ d < 2 ^ d := Nat.mod_lt _ (by positivity)
  rw [Nat.mul_comm] at hdiv
  rw [shiftRightNearest]
  generalize m / 2 ^ d = k, m % 2 ^ d = r, 2 ^ d = p at *
  split
  · rw [Nat.add_mul, Nat.one_mul]
    omega
  · omega

section Field
variable {K : Type*} [Field K] [LinearOrder K] [IsStrictOrderedRing K]

theorem abs_div_sub_shiftRightNearest (m d : Nat) :
    |(m : K) / 2 ^ d - shiftRightNearest m d| ≤ 1 / 2 ∧
      (|(m : K) / 2 ^ d - shiftRightNearest m d| = 1 / 2 → shiftRightNearest m d % 2 = 0) := by
  obtain ⟨hle, hge, htie⟩ := shiftRightNearest_spec m d
  generalize shiftRightNearest m d = s at *
  have hp : (0 : K) < 2 ^ d := by positivity
  have hscale : (m : K) / 2 ^ d - s = (m - s * 2 ^ d) / 2 ^ d := by field_simp
  have hle' : 2 * (m : K) ≤ 2 * (s * 2 ^ d) + 2 ^ d := by exact_mod_cast hle
  have hge' : 2 * (s * 2 ^ d) ≤ 2 * (m : K) + 2 ^ d := by exact_mod_cast hge
  rw [hscale, abs_div, abs_of_pos hp, div_le_div_iff₀ hp two_pos, div_eq_div_iff hp.ne' two_ne_zero]
  refine ⟨?_, fun h => htie ?_⟩
  · have : |(m : K) - s * 2 ^ d| ≤ 2 ^ d / 2 := abs_le.2 ⟨by linarith, by linarith⟩
    linarith
  · rcases abs_cases ((m : K) - s * 2 ^ d) with ⟨he, -⟩ | ⟨he, -⟩ <;> rw [he] at h
    · exact .inl (by exact_mod_cast (by linarith : 2 * (m : K) = 2 * (s * 2 ^ d) + 2 ^ d))
    · exact .inr (by exact_mod_cast (by linarith : 2 * (s * 2 ^ d) = 2 * (m : K) + 2 ^ d))

/-- The significand is the value at the last place `t`, rounded to nearest even. -/
theorem abs_sub_significand (m : Nat) (q t : Int) :
    |(m : K) * 2 ^ (q - t) - significand m q t| ≤ 1 / 2 ∧
      (|(m : K) * 2 ^ (q - t) - significand m q t| = 1 / 2 → significand m q t % 2 = 0) := by
  rw [significand]
  split
  case isTrue h =>
    obtain ⟨d, hd⟩ := Int.eq_ofNat_of_zero_le (sub_nonneg.2 h)
    rw [hd]
    simp
  case isFalse h =>
    obtain ⟨d, hd⟩ := Int.eq_ofNat_of_zero_le (show 0 ≤ t - q by omega)
    rw [show q - t = -(d : Int) by omega, hd, zpow_neg, zpow_natCast, ← div_eq_mul_inv]
    exact abs_div_sub_shiftRightNearest m d

/-! ### Nearest among the numbers -/

theorem withSign_le (neg : Bool) (n : Nat) : withSign neg n ≤ n := by
  cases neg <;> simp only [withSign_true, withSign_false] <;> omega

/-- What is within a half of the integer `s` has no integer nearer, and as near only on a tie. -/
theorem abs_sub_le_abs_sub_int {ξ : K} {s : Nat} (h : |ξ - s| ≤ 1 / 2) (k : Int) :
    |ξ - s| ≤ |ξ - k| ∧ (|ξ - s| = |ξ - k| → (k : K) ≠ s → |ξ - s| = 1 / 2) := by
  by_cases hk : k = s
  · subst hk
    simp
  · have hone : (1 : K) ≤ |(k : K) - s| := by
      exact_mod_cast Int.one_le_abs (sub_ne_zero.2 hk)
    have htri : |(k : K) - s| ≤ |ξ - k| + |ξ - s| := by
      rw [abs_sub_comm ξ k]
      exact abs_sub_le _ _ _
    exact ⟨by linarith, fun he _ => by linarith⟩

/-- At the last place `2^T` of a value of 53 bits (fewer if it is the least last place), the nearest
significand gives the nearest number: numbers that are no multiples of `2^T` lie below 2^52 places,
and so further off than 2^52 places, which is one. -/
theorem nearest_of_significand {ξ : K} {s T : Nat} (h : |ξ - s| ≤ 1 / 2)
    (hlow : T = 0 ∨ 2 ^ 52 ≤ ξ) (hhigh : ξ < 2 ^ 53) (neg : Bool) (g : Nat) :
    |ξ * 2 ^ T - units (T * 2 ^ 52 + s)| ≤ |ξ * 2 ^ T - withSign neg (units g)| ∧
      (|ξ * 2 ^ T - units (T * 2 ^ 52 + s)| = |ξ * 2 ^ T - withSign neg (units g)| →
        (withSign neg (units g) : K) ≠ units (T * 2 ^ 52 + s) → |ξ - s| = 1 / 2) := by
  obtain ⟨hs₁, hs₂⟩ := abs_le.1 h
  have hs : s ≤ 2 ^ 53 := by
    have : (s : K) < 2 ^ 53 + 1 := by linarith
    exact Nat.lt_succ_iff.1 (by exact_mod_cast this)
  have hT : T = 0 ∨ 2 ^ 52 ≤ s := hlow.imp_right fun h52 => by
    have : (2 : K) ^ 52 < s + 1 := by linarith
    exact Nat.lt_succ_iff.1 (by exact_mod_cast this)
  have hp : (0 : K) < 2 ^ T := by positivity
  have habs (y : K) : |ξ * 2 ^ T - y * 2 ^ T| = |ξ - y| * 2 ^ T := by
    rw [← sub_mul, abs_mul, abs_of_pos hp]
  rw [units_carry hs hT, Nat.cast_mul, Nat.cast_pow, Nat.cast_ofNat, habs]
  rcases units_dvd_or_lt g T with ⟨k, hk⟩ | ⟨hpos, hlt⟩
  · have hy : (withSign neg (units g) : K) = (withSign neg k : K) * 2 ^ T := by
      rw [withSign_cast, withSign_cast, hk, Nat.cast_mul, Nat.cast_pow, Nat.cast_ofNat]
      ring
    rw [hy, habs, mul_le_mul_iff_left₀ hp, mul_left_inj' hp.ne', Ne, mul_left_inj' hp.ne']
    exact abs_sub_le_abs_sub_int h _
  · have h52 : (2 : K) ^ 52 ≤ ξ := hlow.resolve_left hpos.ne'
    have hy : (withSign neg (units g) : K) < 2 ^ 52 * 2 ^ T := by
      exact_mod_cast (withSign_le neg (units g)).trans_lt (by exact_mod_cast hlt)
    have hne : |ξ - s| ≤ ξ - 2 ^ 52 := by
      have := (abs_sub_le_abs_sub_int h (2 ^ 52)).1
      rwa [Int.cast_pow, Int.cast_ofNat, abs_of_nonneg (sub_nonneg.2 h52)] at this
    have hfar : |ξ - s| * 2 ^ T < |ξ * 2 ^ T - withSign neg (units g)| :=
      calc |ξ - s| * 2 ^ T ≤ (ξ - 2 ^ 52) * 2 ^ T := by gcongr
        _ < ξ * 2 ^ T - withSign neg (units g) := by linarith
        _ ≤ |ξ * 2 ^ T - withSign neg (units g)| := le_abs_self _
    exact ⟨hfar.le, fun he => absurd he hfar.ne⟩

/-! ### The magnitude of a rounded value -/

/-- The magnitude that the value rounds to, before it is cut at that of the infinities. -/
def roundMagnitude (m : Nat) (q : Int) : Nat :=
  if m = 0 then 0 else (lastPlace m q + 1074).toNat * 2 ^ 52 + significand m q (lastPlace m q)

theorem roundDyadic_eq (neg : Bool) (m : Nat) (q : Int) :
    roundDyadic neg m q = packSign neg (min (roundMagnitude m q) (0x7FF * 2 ^ 52)) := by
  rw [roundDyadic, roundMagnitude]
  split <;> rfl

/-- The last place leaves 53 bits of the value, fewer only if it is the least one. -/
theorem mul_zpow_sub_lastPlace {m : Nat} (hm : m ≠ 0) (q : Int) :
    ((lastPlace m q + 1074).toNat = 0 ∨ (2 : K) ^ 52 ≤ m * 2 ^ (q - lastPlace m q)) ∧
      (m : K) * 2 ^ (q - lastPlace m q) < 2 ^ 53 := by
  have hlow : (2 : K) ^ (Nat.log2 m : Int) ≤ m := by
    rw [zpow_natCast]
    exact_mod_cast Nat.log2_self_le hm
  have hhigh : (m : K) < 2 ^ (Nat.log2 m + 1 : Int) := by
    rw [← Nat.cast_succ, zpow_natCast]
    exact_mod_cast Nat.lt_log2_self
  rw [lastPlace]
  generalize ht : max (q + (Nat.log2 m : Int) - 52) (-1074) = t
  have hp : (0 : K) < 2 ^ (q - t) := by positivity
  constructor
  · rcases Nat.eq_zero_or_pos (t + 1074).toNat with h0 | h0
    · exact .inl h0
    · right
      calc (2 : K) ^ 52 = 2 ^ (Nat.log2 m : Int) * 2 ^ (q - t) := by
            rw [← zpow_add₀ two_ne_zero, show (Nat.log2 m : Int) + (q - t) = (52 : Nat) by omega,
              zpow_natCast]
        _ ≤ m * 2 ^ (q - t) := by gcongr
  · calc (m : K) * 2 ^ (q - t) < 2 ^ (Nat.log2 m + 1 : Int) * 2 ^ (q - t) := by gcongr
      _ = 2 ^ (Nat.log2 m + 1 + (q - t)) := by rw [← zpow_add₀ two_ne_zero]
      _ ≤ 2 ^ ((53 : Nat) : Int) := zpow_le_zpow_right₀ one_le_two (by omega)
      _ = 2 ^ 53 := zpow_natCast _ _

/-- The value `m · 2^q`, counted in units of 2^-1074, and in last places. -/
theorem mul_zpow_add_eq (m : Nat) (q : Int) : (m : K) * 2 ^ (q + 1074) =
    m * 2 ^ (q - lastPlace m q) * 2 ^ (lastPlace m q + 1074).toNat := by
  have ht : -1074 ≤ lastPlace m q := le_max_right _ _
  rw [← zpow_natCast, Int.toNat_of_nonneg (by omega), mul_assoc, ← zpow_add₀ two_ne_zero]
  congr 2
  omega

/-- No number is nearer to `m · 2^q` than the one it rounds to, and none as near unless that one is
even; numbers of any magnitude count. -/
theorem roundMagnitude_nearest (m : Nat) (q : Int) (neg : Bool) (g : Nat) :
    |(m : K) * 2 ^ (q + 1074) - units (roundMagnitude m q)| ≤
        |(m : K) * 2 ^ (q + 1074) - withSign neg (units g)| ∧
      (|(m : K) * 2 ^ (q + 1074) - units (roundMagnitude m q)| =
          |(m : K) * 2 ^ (q + 1074) - withSign neg (units g)| →
        (withSign neg (units g) : K) ≠ units (roundMagnitude m q) →
        roundMagnitude m q % 2 = 0) := by
  rw [roundMagnitude]
  split
  case isTrue hm =>
    subst hm
    simp
  case isFalse hm =>
    obtain ⟨hle, htie⟩ := abs_sub_significand (K := K) m q (lastPlace m q)
    obtain ⟨hlow, hhigh⟩ := mul_zpow_sub_lastPlace (K := K) hm q
    obtain ⟨hnear, heq⟩ := nearest_of_significand hle hlow hhigh neg g
    rw [mul_zpow_add_eq]
    refine ⟨hnear, fun he hne => ?_⟩
    have := htie (heq he hne)
    omega

end Field

/-! ### Overflow -/

/-- Of two points the nearer one is on the value's side of the middle. -/
theorem add_le_two_mul_of_abs_sub_le {a b x : ℚ} (hab : a < b) (h : |x - b| ≤ |x - a|) :
    a + b ≤ 2 * x := by
  by_contra hlt
  nlinarith [sq_le_sq.2 h]

theorem two_mul_le_add_of_abs_sub_le {a b x : ℚ} (hab : a < b) (h : |x - a| ≤ |x - b|) :
    2 * x ≤ a + b := by
  by_contra hlt
  nlinarith [sq_le_sq.2 h]

/-- A value reaches an even magnitude from the middle below it on. -/
theorem le_roundMagnitude_iff_middle_le {g : Nat} (hg : (g + 1) % 2 = 0) (m : Nat) (q : Int) :
    g + 1 ≤ roundMagnitude m q ↔
      (units g + units (g + 1) : ℚ) ≤ 2 * (m * 2 ^ (q + 1074)) := by
  obtain ⟨hlower, -⟩ := roundMagnitude_nearest (K := ℚ) m q false g
  obtain ⟨hupper, htie⟩ := roundMagnitude_nearest (K := ℚ) m q false (g + 1)
  rw [withSign_false, Int.cast_natCast] at hlower hupper htie
  have hstep : (units g : ℚ) < units (g + 1) := by exact_mod_cast units_strictMono g.lt_succ_self
  generalize (m : ℚ) * 2 ^ (q + 1074) = x at *
  generalize roundMagnitude m q = r at *
  constructor
  · intro h
    have hr : (units (g + 1) : ℚ) ≤ units r := by exact_mod_cast units_strictMono.monotone h
    linarith [add_le_two_mul_of_abs_sub_le (hstep.trans_le hr) hlower]
  · intro h
    by_contra hlt
    have hr : (units r : ℚ) ≤ units g := by
      exact_mod_cast units_strictMono.monotone (Nat.lt_succ_iff.1 (not_le.1 hlt))
    have hmid := two_mul_le_add_of_abs_sub_le (hr.trans_lt hstep) hupper
    have heq : (units r : ℚ) = units g := by linarith
    have hrg : r = g := units_strictMono.injective (by exact_mod_cast heq)
    have heven : r % 2 = 0 := by
      refine htie ?_ (by linarith)
      rw [abs_of_nonneg (by linarith), abs_of_nonpos (by linarith)]
      linarith
    omega

/-- The middle between the largest finite number and the next one, half a unit above it. -/
theorem units_largest_add_units_infinity :
    (units (0x7FF * 2 ^ 52 - 1) + units (0x7FF * 2 ^ 52) : ℚ) =
      2 * ((2 ^ 54 - 1) * 2 ^ 970 * 2 ^ 1074) := by
  rw [show 0x7FF * 2 ^ 52 - 1 = 2045 * 2 ^ 52 + (2 ^ 53 - 1) by norm_num,
    show 0x7FF * 2 ^ 52 = 2046 * 2 ^ 52 + 2 ^ 52 by norm_num,
    units_carry (by norm_num) (by norm_num), units_carry (by norm_num) (by norm_num),
    show 2045 = 1 + 970 + 1074 by norm_num,
    show 2046 = 2 + 970 + 1074 by norm_num, pow_add, pow_add, pow_add, pow_add]
  simp only [Nat.cast_mul, Nat.cast_pow, Nat.cast_ofNat]
  generalize (2 : ℚ) ^ 970 = a, (2 : ℚ) ^ 1074 = b
  push_cast
  ring

/-! ### The rounded result -/

theorem isFinite_roundDyadic (neg : Bool) (m : Nat) (q : Int) :
    isFinite (roundDyadic neg m q) = true ↔ roundMagnitude m q < 0x7FF * 2 ^ 52 := by
  rw [roundDyadic_eq, isFinite_iff, magnitudeBits_packSign _ (by omega)]
  omega

theorem roundDyadic_of_isFinite {neg : Bool} {m : Nat} {q : Int}
    (h : isFinite (roundDyadic neg m q) = true) :
    roundDyadic neg m q = packSign neg (roundMagnitude m q) := by
  rw [isFinite_roundDyadic] at h
  rw [roundDyadic_eq, min_eq_left h.le]

/-- A finite result has the value's sign and the rounded magnitude. -/
theorem roundDyadic_fields {neg : Bool} {m : Nat} {q : Int}
    (h : isFinite (roundDyadic neg m q) = true) : (roundDyadic neg m q).msb = neg ∧
      magnitudeBits (roundDyadic neg m q) = roundMagnitude m q := by
  have hlt : roundMagnitude m q < 2 ^ 63 := by
    have := (isFinite_roundDyadic neg m q).1 h
    omega
  rw [roundDyadic_of_isFinite h]
  exact ⟨msb_packSign _ hlt, magnitudeBits_packSign _ hlt⟩

theorem roundDyadic_of_not_isFinite {neg : Bool} {m : Nat} {q : Int}
    (h : isFinite (roundDyadic neg m q) = false) : roundDyadic neg m q = infOf neg := by
  rw [← Bool.not_eq_true, isFinite_roundDyadic, not_lt] at h
  rw [roundDyadic_eq, min_eq_right h, infOf]

theorem isFinite_roundDyadic_eq_false (neg : Bool) (m : Nat) (q : Int) :
    isFinite (roundDyadic neg m q) = false ↔
      ((2 : ℚ) ^ 54 - 1) * 2 ^ 970 ≤ (m : ℚ) * 2 ^ q := by
  have hunit : (0 : ℚ) < 2 ^ 1074 := by positivity
  rw [← Bool.not_eq_true, isFinite_roundDyadic, not_lt,
    show 0x7FF * 2 ^ 52 = 0x7FF * 2 ^ 52 - 1 + 1 by norm_num,
    le_roundMagnitude_iff_middle_le (by norm_num),
    show 0x7FF * 2 ^ 52 - 1 + 1 = 0x7FF * 2 ^ 52 by norm_num, units_largest_add_units_infinity,
    mul_le_mul_iff_right₀ two_pos, zpow_add₀ two_ne_zero,
    show (2 : ℚ) ^ (1074 : Int) = 2 ^ 1074 from zpow_natCast 2 1074, ← mul_assoc,
    mul_le_mul_iff_left₀ hunit]

section Field
variable {K : Type*} [Field K] [LinearOrder K] [IsStrictOrderedRing K]

/-- The value of a finite number as a sign put before an integer of units. -/
theorem f64Value_eq_sign_mul (neg : Bool) {y : F64} (hy : isFinite y = true) :
    (f64Value y : K) = (if neg then -1 else 1) *
      (withSign (neg ^^ y.msb) (units (magnitudeBits y)) * 2 ^ (-1074 : Int)) := by
  rw [f64Value_of_isFinite hy, signedUnits]
  cases neg <;> cases y.msb <;> simp

theorem abs_sub_f64Value (neg : Bool) (x : K) {y : F64} (hy : isFinite y = true) :
    |(if neg then -1 else 1) * (x * 2 ^ (-1074 : Int)) - (f64Value y : K)| =
      |x - withSign (neg ^^ y.msb) (units (magnitudeBits y))| * 2 ^ (-1074 : Int) := by
  have hunit : (0 : K) < 2 ^ (-1074 : Int) := by positivity
  rw [f64Value_eq_sign_mul neg hy, ← mul_sub, ← sub_mul, abs_mul, abs_mul, abs_of_pos hunit]
  cases neg <;> simp

end Field

/-- Settles O55: the significand is the nearest integer at the last place, numbers off that grid are
further away, and overflow begins at the middle between the last finite magnitude and the next. -/
theorem roundingIsToNearestEven : Obligations.RoundingIsToNearestEven := by
  refine ⟨?_, fun neg m q => ⟨isFinite_roundDyadic_eq_false neg m q, fun h => ?_⟩⟩
  · rintro neg m q _ y _ rfl rfl hr hy
    obtain ⟨hmsb, hmag⟩ := roundDyadic_fields hr
    have hx : (if neg then -1 else 1) * (m : ℚ) * 2 ^ q =
        (if neg then -1 else 1) * (m * 2 ^ (q + 1074) * 2 ^ (-1074 : Int)) := by
      rw [mul_assoc, mul_assoc, ← zpow_add₀ two_ne_zero, add_neg_cancel_right]
    have hself : (withSign (neg ^^ neg) (units (roundMagnitude m q)) : ℚ) =
        units (roundMagnitude m q) := by
      rw [Bool.xor_self, withSign_false, Int.cast_natCast]
    have hdr := abs_sub_f64Value neg ((m : ℚ) * 2 ^ (q + 1074)) hr
    have hdy := abs_sub_f64Value neg ((m : ℚ) * 2 ^ (q + 1074)) hy
    have hvr := f64Value_eq_sign_mul (K := ℚ) neg hr
    have hvy := f64Value_eq_sign_mul (K := ℚ) neg hy
    rw [hmsb, hmag, hself, Rat.cast_id] at hdr hvr
    rw [Rat.cast_id] at hdy hvy
    have hunit : (0 : ℚ) < 2 ^ (-1074 : Int) := by positivity
    obtain ⟨hnear, htie⟩ := roundMagnitude_nearest (K := ℚ) m q (neg ^^ y.msb) (magnitudeBits y)
    rw [hx, hdr, hdy]
    refine ⟨hmsb, mul_le_mul_of_nonneg_right hnear hunit.le, fun he hne => ?_⟩
    have heven := htie (mul_right_cancel₀ hunit.ne' he) fun heq => hne (by rw [hvy, hvr, heq])
    rw [roundDyadic_of_isFinite hr, getLsbD_zero_packSign, decide_eq_false_iff_not]
    omega
  · rw [roundDyadic_of_not_isFinite h, infOf_eq]

end Sys2Proof.Machine

/-! ## The square root (00_scope R13) -/

namespace Sys2Proof.Machine

/-! ### The integer root and the bit below it -/

/-- The root is found between `r` and `r + 2^k`. -/
theorem isqrtFrom_spec (n k r : Nat) (hlow : r * r ≤ n) (hhigh : n < (r + 2 ^ k) * (r + 2 ^ k)) :
    isqrtFrom n k r * isqrtFrom n k r ≤ n ∧
      n < (isqrtFrom n k r + 1) * (isqrtFrom n k r + 1) := by
  induction k generalizing r with
  | zero => exact ⟨hlow, hhigh⟩
  | succ k ih =>
    rw [isqrtFrom]
    split
    case isTrue h => exact ih _ h (by rwa [Nat.add_assoc, ← Nat.two_mul, ← Nat.pow_succ'])
    case isFalse h => exact ih _ hlow (not_le.1 h)

theorem isqrt_eq_sqrt {n : Nat} (hn : n < 2 ^ 168) : isqrt n = Nat.sqrt n := by
  have hspec := isqrtFrom_spec n 84 0 (Nat.zero_le _) (by rwa [Nat.zero_add, ← Nat.pow_add])
  exact Nat.eq_sqrt.2 hspec

/-- The doubled integer root, odd where the root is not exact: what `sqrtFinite` rounds. -/
def stickyRoot (n : Nat) : Nat := 2 * isqrt n + if isqrt n * isqrt n = n then 0 else 1

/-- The bit below the root keeps the root's place among the integers. -/
theorem stickyRoot_le_two_mul_iff {n : Nat} (hn : n < 2 ^ 168) (j : Nat) :
    stickyRoot n ≤ 2 * j ↔ Real.sqrt n ≤ j := by
  have hroot : Real.sqrt n ≤ j ↔ n ≤ j * j := by
    rw [Real.sqrt_le_left j.cast_nonneg, pow_two]
    exact_mod_cast Iff.rfl
  rw [hroot, stickyRoot, isqrt_eq_sqrt hn]
  split
  case isTrue h =>
    rw [Nat.add_zero, Nat.mul_le_mul_left_iff two_pos]
    exact ⟨fun hj => h ▸ Nat.mul_le_mul hj hj,
      fun hj => Nat.mul_self_le_mul_self_iff.1 (h.trans_le hj)⟩
  case isFalse h =>
    have hne : n ≠ j * j := fun he => h (by rw [he, Nat.sqrt_eq])
    rw [show 2 * Nat.sqrt n + 1 ≤ 2 * j ↔ Nat.sqrt n < j by omega, Nat.sqrt_lt]
    exact ⟨le_of_lt, fun hj => lt_of_le_of_ne hj hne⟩

theorem two_mul_le_stickyRoot_iff {n : Nat} (hn : n < 2 ^ 168) (j : Nat) :
    2 * j ≤ stickyRoot n ↔ (j : ℝ) ≤ Real.sqrt n := by
  have hroot : (j : ℝ) ≤ Real.sqrt n ↔ j * j ≤ n := by
    rw [Real.le_sqrt j.cast_nonneg n.cast_nonneg, pow_two]
    exact_mod_cast Iff.rfl
  rw [hroot, stickyRoot, isqrt_eq_sqrt hn, ← Nat.le_sqrt]
  split <;> omega

/-- At any scale that drops a bit, the doubled root with its bit below it and the doubled real root
lie between the same integers. -/
theorem int_le_stickyRoot_div_iff {n : Nat} (hn : n < 2 ^ 168) (c : Int) (d : Nat) :
    (c : ℝ) ≤ stickyRoot n / 2 ^ (d + 1) ↔ (c : ℝ) ≤ 2 * Real.sqrt n / 2 ^ (d + 1) := by
  rcases lt_or_ge c 0 with hc | hc
  · have hc' : (c : ℝ) ≤ 0 := by exact_mod_cast hc.le
    exact iff_of_true (hc'.trans (by positivity)) (hc'.trans (by positivity))
  · obtain ⟨j, rfl⟩ := Int.eq_ofNat_of_zero_le hc
    have hj := two_mul_le_stickyRoot_iff hn (j * 2 ^ d)
    rw [Int.cast_natCast, le_div_iff₀ (by positivity), le_div_iff₀ (by positivity), pow_succ',
      mul_left_comm, mul_le_mul_iff_right₀ two_pos]
    exact_mod_cast hj

theorem stickyRoot_div_le_natCast_iff {n : Nat} (hn : n < 2 ^ 168) (c d : Nat) :
    (stickyRoot n : ℝ) / 2 ^ (d + 1) ≤ c ↔ 2 * Real.sqrt n / 2 ^ (d + 1) ≤ c := by
  have hj := stickyRoot_le_two_mul_iff hn (c * 2 ^ d)
  rw [div_le_iff₀ (by positivity), div_le_iff₀ (by positivity), pow_succ', mul_left_comm,
    mul_le_mul_iff_right₀ two_pos]
  exact_mod_cast hj

/-- Rounded two bits down or more, the doubled root with its bit below it rounds as the real one. -/
theorem abs_two_mul_sqrt_sub_le {n : Nat} (hn : n < 2 ^ 168) (d : Nat) :
    |2 * Real.sqrt n / 2 ^ (d + 2) - shiftRightNearest (stickyRoot n) (d + 2)| ≤ 1 / 2 := by
  have hround := (abs_div_sub_shiftRightNearest (K := ℝ) (stickyRoot n) (d + 2)).1
  generalize shiftRightNearest (stickyRoot n) (d + 2) = s at *
  have hhalf (x : ℝ) : |x / 2 ^ (d + 2) - s| ≤ 1 / 2 ↔
      ((2 * s - 1 : Int) : ℝ) ≤ x / 2 ^ (d + 1) ∧ x / 2 ^ (d + 1) ≤ ((2 * s + 1 : Nat) : ℝ) := by
    rw [pow_succ, ← div_div, abs_le]
    push_cast
    constructor <;> rintro ⟨hlow, hhigh⟩ <;> constructor <;> linarith
  rw [hhalf] at hround ⊢
  rwa [← int_le_stickyRoot_div_iff hn, ← stickyRoot_div_le_natCast_iff hn]

/-- A radicand of 113 bits or more has 57 bits of root. -/
theorem two_pow_le_stickyRoot {n : Nat} (hlow : 2 ^ 112 ≤ n) (hn : n < 2 ^ 168) :
    2 ^ 57 ≤ stickyRoot n := by
  have hroot : 2 ^ 56 ≤ Nat.sqrt n := Nat.le_sqrt.2 (by rwa [← Nat.pow_add])
  rw [stickyRoot, isqrt_eq_sqrt hn]
  omega

/-- Those are more bits than a significand has, so no number is nearer to the real root than the one
that the doubled integer root with its bit below it rounds to. -/
theorem roundMagnitude_stickyRoot_nearest {n : Nat} (hlow : 2 ^ 112 ≤ n) (hn : n < 2 ^ 168)
    (q : Int) (neg : Bool) (g : Nat) :
    |2 * Real.sqrt n * 2 ^ (q + 1074) - units (roundMagnitude (stickyRoot n) q)| ≤
      |2 * Real.sqrt n * 2 ^ (q + 1074) - withSign neg (units g)| := by
  have hbits := two_pow_le_stickyRoot hlow hn
  have hm : stickyRoot n ≠ 0 := by omega
  have hlog : 57 ≤ Nat.log2 (stickyRoot n) := (Nat.le_log2 hm).2 hbits
  obtain ⟨hplace, hhigh⟩ := mul_zpow_sub_lastPlace (K := ℝ) hm q
  obtain ⟨hdrop, hleast⟩ :
      q + 5 ≤ lastPlace (stickyRoot n) q ∧ -1074 ≤ lastPlace (stickyRoot n) q := by
    rw [lastPlace]
    omega
  rw [roundMagnitude, if_neg hm, significand, if_neg (by omega)]
  generalize lastPlace (stickyRoot n) q = t at *
  obtain ⟨d, hd⟩ := Int.eq_ofNat_of_zero_le (show 0 ≤ t - q - 2 by omega)
  have hpow : (2 : ℝ) ^ (q - t) = (2 ^ (d + 2))⁻¹ := by
    rw [show q - t = -((d + 2 : Nat) : Int) by omega, zpow_neg, zpow_natCast]
  have hvalue : 2 * Real.sqrt n * 2 ^ (q + 1074) =
      2 * Real.sqrt n / 2 ^ (d + 2) * 2 ^ (t + 1074).toNat := by
    rw [div_eq_mul_inv, ← hpow, ← zpow_natCast, Int.toNat_of_nonneg (by omega), mul_assoc _ (_ ^ _),
      ← zpow_add₀ two_ne_zero, show q - t + (t + 1074) = q + 1074 by omega]
  rw [hpow, ← div_eq_mul_inv] at hplace hhigh
  rw [hvalue, show (t - q).toNat = d + 2 by omega]
  have h52 := int_le_stickyRoot_div_iff hn (2 ^ 52) (d + 1)
  have h53 := int_le_stickyRoot_div_iff hn (2 ^ 53) (d + 1)
  rw [Int.cast_pow, Int.cast_ofNat] at h52 h53
  exact (nearest_of_significand (abs_two_mul_sqrt_sub_le hn d) (hplace.imp_right h52.1)
    (not_le.1 fun h => hhigh.not_ge (h53.2 h)) neg g).1

/-! ### The radicand -/

/-- The bits by which `sqrtFinite` widens the significand: the exponent left over is even. -/
def radicandShift (exp : Int) : Nat := if exp % 2 = 0 then 112 else 113

/-- The exponent of the doubled root. -/
def rootExp (exp : Int) : Int := (exp - radicandShift exp) / 2 - 1

theorem sqrtFinite_eq (sig : Nat) (exp : Int) : sqrtFinite sig exp =
    roundDyadic false (stickyRoot (sig * 2 ^ radicandShift exp)) (rootExp exp) := rfl

theorem two_mul_rootExp (exp : Int) : exp = radicandShift exp + 2 * (rootExp exp + 1) := by
  rw [rootExp, radicandShift]
  split <;> omega

theorem radicand_bounds {sig : Nat} (hpos : 0 < sig) (hsig : sig < 2 ^ 53) (exp : Int) :
    2 ^ 112 ≤ sig * 2 ^ radicandShift exp ∧ sig * 2 ^ radicandShift exp < 2 ^ 166 := by
  rw [radicandShift]
  split <;> omega

/-- The real root of a number is that of its radicand, scaled. -/
theorem sqrt_mul_zpow (sig : Nat) (exp : Int) : Real.sqrt (sig * 2 ^ exp) =
    2 * Real.sqrt (sig * 2 ^ radicandShift exp : Nat) * 2 ^ rootExp exp := by
  have hsplit : (sig * 2 ^ exp : ℝ) =
      (sig * 2 ^ radicandShift exp : Nat) * (2 ^ (rootExp exp + 1)) ^ 2 := by
    conv_lhs => rw [two_mul_rootExp exp]
    rw [zpow_add₀ two_ne_zero, zpow_natCast, two_mul, zpow_add₀ two_ne_zero]
    push_cast
    ring
  rw [hsplit, Real.sqrt_mul (Nat.cast_nonneg _), Real.sqrt_sq (by positivity),
    zpow_add_one₀ two_ne_zero]
  ring

theorem magnitudeExp_le {g : Nat} (hg : g < 0x7FF * 2 ^ 52) : magnitudeExp g ≤ 971 := by
  rw [magnitudeExp_eq]
  omega

/-- A root is far below the overflow bound. -/
theorem isFinite_sqrtFinite {sig : Nat} (hpos : 0 < sig) (hsig : sig < 2 ^ 53) {exp : Int}
    (hexp : exp ≤ 971) : isFinite (sqrtFinite sig exp) = true := by
  obtain ⟨-, hn⟩ := radicand_bounds hpos hsig exp
  generalize hr : sig * 2 ^ radicandShift exp = n at *
  have hroot : stickyRoot n ≤ 2 * 2 ^ 83 := by
    rw [stickyRoot_le_two_mul_iff (by omega), Real.sqrt_le_left (by positivity)]
    exact_mod_cast (by omega : n ≤ (2 ^ 83) ^ 2)
  have hq : rootExp exp ≤ (886 : Nat) := by
    have := two_mul_rootExp exp
    omega
  rw [sqrtFinite_eq, hr, ← Bool.not_eq_false, isFinite_roundDyadic_eq_false, not_le]
  calc (stickyRoot n : ℚ) * 2 ^ rootExp exp ≤ (2 * 2 ^ 83) * 2 ^ ((886 : Nat) : Int) := by
        gcongr
        · exact_mod_cast hroot
        · norm_num
    _ = 1 * 2 ^ 970 := by rw [zpow_natCast, ← pow_succ', ← pow_add, one_mul]
    _ < (2 ^ 54 - 1) * 2 ^ 970 := by
        gcongr
        norm_num

/-! ### The operands of the square root -/

theorem fsqrt_of_isFinite {x : F64} (hx : isFinite x = true) :
    fsqrt x = if magnitudeBits x = 0 then zeroOf x.msb else if x.msb then canonicalNaN
      else sqrtFinite (magnitudeSig (magnitudeBits x)) (magnitudeExp (magnitudeBits x)) := by
  simp only [fsqrt, classify_of_isFinite hx, magnitudeSig_eq_zero]

theorem f64Value_sign {x : F64} (hx : isFinite x = true) :
    (0 < f64Value x → magnitudeBits x ≠ 0 ∧ x.msb = false) ∧
      (f64Value x < 0 → magnitudeBits x ≠ 0 ∧ x.msb = true) := by
  have hsig : (0 : ℚ) ≤ magnitudeSig (magnitudeBits x) * 2 ^ magnitudeExp (magnitudeBits x) := by
    positivity
  have hzero := f64Value_eq_zero hx
  have hvalue := f64Value_eq_sig_mul_exp hx
  rw [mul_assoc] at hvalue
  constructor <;> intro h <;> refine ⟨hzero.not.1 (by linarith), ?_⟩
  · by_contra hmsb
    rw [hvalue, if_pos (by simpa using hmsb)] at h
    linarith
  · by_contra hmsb
    rw [hvalue, if_neg hmsb] at h
    linarith

/-- No number is nearer to the real root than the rounded one. -/
theorem sqrtFinite_nearest {sig : Nat} (hpos : 0 < sig) (hsig : sig < 2 ^ 53) {exp : Int}
    (hexp : exp ≤ 971) {y : F64} (hy : isFinite y = true) :
    |Real.sqrt (sig * 2 ^ exp) - f64Value (sqrtFinite sig exp)| ≤
      |Real.sqrt (sig * 2 ^ exp) - f64Value y| := by
  obtain ⟨hlow, hhigh⟩ := radicand_bounds hpos hsig exp
  have hnear := roundMagnitude_stickyRoot_nearest hlow (hhigh.trans (by norm_num)) (rootExp exp)
    y.msb (magnitudeBits y)
  have hfinite := isFinite_sqrtFinite hpos hsig hexp
  rw [sqrtFinite_eq] at hfinite ⊢
  obtain ⟨hmsb, hmag⟩ := roundDyadic_fields hfinite
  have hroot : Real.sqrt (sig * 2 ^ exp) = (if false then -1 else 1) *
      (2 * Real.sqrt (sig * 2 ^ radicandShift exp : Nat) * 2 ^ (rootExp exp + 1074) *
        2 ^ (-1074 : Int)) := by
    rw [sqrt_mul_zpow, mul_assoc _ (_ ^ _), ← zpow_add₀ two_ne_zero, add_neg_cancel_right,
      if_neg Bool.false_ne_true, one_mul]
  rw [hroot, abs_sub_f64Value false _ hfinite, abs_sub_f64Value false _ hy, hmsb, hmag,
    Bool.false_xor, Bool.false_xor, withSign_false, Int.cast_natCast]
  exact mul_le_mul_of_nonneg_right hnear (by positivity)

/-- Settles O57: the bit below the integer root keeps the real root's place between the middles of
neighbouring numbers. -/
theorem squareRootIsNearest : Obligations.SquareRootIsNearest := by
  refine ⟨fun x y hx hpos hy => ?_, fun x hx h0 => ?_, fun x hx hneg => ?_, rfl, rfl⟩
  · obtain ⟨h0, hmsb⟩ := (f64Value_sign hx).1 hpos
    have hsig : 0 < magnitudeSig (magnitudeBits x) :=
      Nat.pos_of_ne_zero ((magnitudeSig_eq_zero _).not.2 h0)
    have hlt := magnitudeSig_lt (magnitudeBits x)
    have hexp := magnitudeExp_le ((isFinite_iff x).1 hx)
    have hvalue : (f64Value x : ℝ) =
        magnitudeSig (magnitudeBits x) * 2 ^ magnitudeExp (magnitudeBits x) := by
      rw [f64Value_eq_sig_mul_exp hx, hmsb, if_neg Bool.false_ne_true, one_mul]
      push_cast
      rfl
    rw [fsqrt_of_isFinite hx, if_neg h0, if_neg (by simp [hmsb]), hvalue]
    have hfinite := isFinite_sqrtFinite hsig hlt hexp
    exact ⟨hfinite, (roundDyadic_fields hfinite).1, sqrtFinite_nearest hsig hlt hexp hy⟩
  · rw [f64Value_eq_zero hx] at h0
    rw [fsqrt_of_isFinite hx, if_pos h0]
    exact (eq_packSign_of_magnitudeBits h0).symm
  · obtain ⟨h0, hmsb⟩ := (f64Value_sign hx).2 hneg
    rw [fsqrt_of_isFinite hx, if_neg h0, if_pos hmsb]
    rfl

end Sys2Proof.Machine

/-! ## Whole words of the data windows (10_state R51, 20_memory R58, R62, R76)

A write keeps what is written written, and the array windows hold every element that a command
stores, so the memory stays made of whole words inside the data windows. -/

namespace Sys2Proof.Machine.Memory

/-! ### What is written stays written -/

/-- A word has a value exactly when its four bytes have. -/
theorem readWord_isSome_iff (m : Memory) (a : Nat) :
    (readWord m a).isSome = true ↔ ∀ k < 4, (getByte m (a + k)).isSome = true := by
  constructor
  · intro h k hk
    rw [readWord] at h
    split at h
    next h0 h1 h2 h3 => interval_cases k <;> simp [h0, h1, h2, h3]
    next => simp at h
  · intro h
    obtain ⟨b0, h0⟩ := Option.isSome_iff_exists.1 (h 0 (by omega))
    obtain ⟨b1, h1⟩ := Option.isSome_iff_exists.1 (h 1 (by omega))
    obtain ⟨b2, h2⟩ := Option.isSome_iff_exists.1 (h 2 (by omega))
    obtain ⟨b3, h3⟩ := Option.isSome_iff_exists.1 (h 3 (by omega))
    rw [Nat.add_zero] at h0
    simp [readWord, h0, h1, h2, h3]

/-- An element has a value exactly when its eight bytes have. -/
theorem readElem_isSome_iff (m : Memory) (base i : Nat) :
    (readElem m base i).isSome = true ↔
      ∀ k < 8, (getByte m (base + 8 * i + k)).isSome = true := by
  have hwords : (readElem m base i).isSome = true ↔
      (readWord m (base + 8 * i)).isSome = true ∧
        (readWord m (base + 8 * i + 4)).isSome = true := by
    rw [readElem]
    cases readWord m (base + 8 * i) <;> cases readWord m (base + 8 * i + 4) <;> simp
  rw [hwords, readWord_isSome_iff, readWord_isSome_iff]
  constructor
  · rintro ⟨hlow, hhigh⟩ k hk
    rcases Nat.lt_or_ge k 4 with h4 | h4
    · exact hlow k h4
    · have := hhigh (k - 4) (by omega)
      rwa [show base + 8 * i + 4 + (k - 4) = base + 8 * i + k by omega] at this
  · exact fun h => ⟨fun k hk => h k (by omega), fun k hk => by
      rw [Nat.add_assoc]
      exact h (4 + k) (by omega)⟩

theorem getByte_setByte_isSome {m : Memory} {a' : Nat} (h : (getByte m a').isSome = true) (a : Nat)
    (b : Byte) : (getByte (setByte m a b) a').isSome = true := by
  rw [getByte_setByte]
  split
  · rfl
  · exact h

theorem getByte_writeWord_isSome {m : Memory} {a' : Nat} (h : (getByte m a').isSome = true)
    (a : Nat) (v : Word) : (getByte (writeWord m a v) a').isSome = true :=
  getByte_setByte_isSome
    (getByte_setByte_isSome (getByte_setByte_isSome (getByte_setByte_isSome h _ _) _ _) _ _) _ _

theorem getByte_writeElems_isSome {m : Memory} {a' : Nat} (h : (getByte m a').isSome = true)
    (base i : Nat) (xs : List F64) : (getByte (writeElems m base i xs) a').isSome = true := by
  induction xs generalizing m i with
  | nil => exact h
  | cons x xs ih => exact ih (getByte_writeWord_isSome (getByte_writeWord_isSome h _ _) _ _) (i + 1)

theorem readWord_writeWord_isSome {m : Memory} {a' : Nat} (h : (readWord m a').isSome = true)
    (a : Nat) (v : Word) : (readWord (writeWord m a v) a').isSome = true := by
  rw [readWord_isSome_iff] at h ⊢
  exact fun k hk => getByte_writeWord_isSome (h k hk) a v

theorem forall_mem_setByte {P : Nat → Prop} {m : Memory} (h : ∀ c ∈ m, P c.1) {a : Nat} (ha : P a)
    (b : Byte) : ∀ c ∈ setByte m a b, P c.1 := by
  intro c hc
  rcases mem_setByte hc with rfl | hc
  · exact ha
  · exact h c hc

/-- A write lists the four addresses of its word and no others. -/
theorem forall_mem_writeWord {P : Nat → Prop} {m : Memory} (h : ∀ c ∈ m, P c.1) {a : Nat}
    (ha : ∀ k < 4, P (a + k)) (v : Word) : ∀ c ∈ writeWord m a v, P c.1 :=
  forall_mem_setByte (forall_mem_setByte (forall_mem_setByte (forall_mem_setByte h
    (ha 0 (by norm_num)) _) (ha 1 (by norm_num)) _) (ha 2 (by norm_num)) _) (ha 3 (by norm_num)) _

end Sys2Proof.Machine.Memory

namespace Sys2Proof.Machine

theorem inDataWindow_iff (a : Nat) : inDataWindow a = true ↔ 0x10000 ≤ a ∧ a < 0x1A218 := by
  rw [inDataWindow, Bool.and_eq_true, decide_eq_true_eq, decide_eq_true_eq, Config.reBase]

/-! ### Only whole words of the data windows are written -/

theorem wordsInWindows_iff (m : Memory) : wordsInWindows m = true ↔
    ∀ c ∈ m, inDataWindow c.1 = true ∧ (Memory.readWord m (c.1 / 4 * 4)).isSome = true := by
  simp [wordsInWindows]

theorem wordsInWindows_writeWord {m : Memory} (h : wordsInWindows m = true) {a : Nat}
    (ha : a % 4 = 0) (hw : inDataWindow a = true) (v : Word) :
    wordsInWindows (Memory.writeWord m a v) = true := by
  rw [wordsInWindows_iff] at h ⊢
  rw [inDataWindow_iff] at hw
  refine Memory.forall_mem_writeWord (P := fun x => inDataWindow x = true ∧
    (Memory.readWord (Memory.writeWord m a v) (x / 4 * 4)).isSome = true)
    (fun c hc => ?_) (fun k hk => ?_) v
  · obtain ⟨hwin, hword⟩ := h c hc
    exact ⟨hwin, Memory.readWord_writeWord_isSome hword a v⟩
  · rw [inDataWindow_iff, show (a + k) / 4 * 4 = a by omega, Memory.readWord_writeWord_same]
    exact ⟨by omega, rfl⟩

/-- Elements 0 to `len - 1` of the array at `base` stand at aligned addresses of the data
windows. -/
def InsideWindows (base len : Nat) : Prop :=
  base % 4 = 0 ∧ Config.reBase ≤ base ∧ base + 8 * len ≤ 0x1A218

theorem wordsInWindows_writeElem {m : Memory} (h : wordsInWindows m = true) {base i : Nat}
    (hin : InsideWindows base (i + 1)) (x : F64) :
    wordsInWindows (Memory.writeElem m base i x) = true := by
  obtain ⟨hmod, hlo, hhi⟩ := hin
  rw [Config.reBase] at hlo
  refine wordsInWindows_writeWord (wordsInWindows_writeWord h ?_ ?_ _) ?_ ?_ _
  · omega
  · rw [inDataWindow_iff]
    omega
  · omega
  · rw [inDataWindow_iff]
    omega

theorem wordsInWindows_writeElems {m : Memory} (h : wordsInWindows m = true) {base i : Nat}
    {xs : List F64} (hin : InsideWindows base (i + xs.length)) :
    wordsInWindows (Memory.writeElems m base i xs) = true := by
  induction xs generalizing m i with
  | nil => exact h
  | cons x xs ih =>
    rw [List.length_cons, Nat.add_comm xs.length, ← Nat.add_assoc] at hin
    refine ih (wordsInWindows_writeElem h ⟨hin.1, hin.2.1, ?_⟩ x) hin
    have := hin.2.2
    omega

theorem memoryInv_storeArray {s : State} (h : MemoryInv s) {base : Nat} {xs : List F64}
    (hin : InsideWindows base xs.length) : MemoryInv (storeArray base xs s) :=
  ⟨storeArray_wf h.1 base xs,
    wordsInWindows_writeElems h.2 (by rwa [Nat.zero_add])⟩

/-! ### The places of the arrays -/

theorem insideWindows_re {len : Nat} (h : len ≤ 2048) : InsideWindows Config.reBase len :=
  ⟨rfl, by decide, by rw [Config.reBase]; omega⟩

theorem insideWindows_im {len : Nat} (h : len ≤ 2048) : InsideWindows Config.imBase len :=
  ⟨rfl, by decide, by rw [Config.imBase]; omega⟩

theorem insideWindows_mag {len : Nat} (h : len ≤ 1024) : InsideWindows Config.magBase len :=
  ⟨rfl, by decide, by rw [Config.magBase]; omega⟩

theorem insideWindows_win {len : Nat} (h : len ≤ 67) : InsideWindows Config.winBase len :=
  ⟨rfl, by decide, by rw [Config.winBase]; omega⟩

/-- No sound configuration is longer than `N_MAX`. -/
theorem n_le_of_configInv {s : State} (h : ConfigInv s) : s.n.toNat ≤ 2048 := by
  obtain ⟨hvalid, hnone⟩ := h
  cases hc : s.cfgValid with
  | true =>
    obtain ⟨-, hk, hn⟩ := hvalid hc
    rw [hn]
    exact Nat.pow_le_pow_right (by norm_num) hk
  | false => simp [hnone hc]

end Sys2Proof.Machine

/-! ## The ranges of an analysis (10_state R35 to R41, 42_band_analyzer R105 to R112) -/

namespace Sys2Proof.Machine

/-! ### The walks and the peak scans -/

/-- The left walk counts the bins that it passes. -/
theorem leftWalk_range (win : List F64) (thr : F64) (k band : Nat) :
    (leftWalk win thr k band).1 ≤ band + k ∧
      (leftWalk win thr k band).2 + (leftWalk win thr k band).1 = band + k - 1 := by
  induction k generalizing band with
  | zero => simp [leftWalk]; omega
  | succ k ih =>
    rw [leftWalk]
    split
    · have := ih (band + 1)
      omega
    · dsimp only
      omega

/-- So does the right walk. -/
theorem rightWalk_range (win : List F64) (thr : F64) {k : Nat} (hk : k ≤ 66) (band : Nat) :
    (rightWalk win thr k band).1 ≤ band + k ∧
      (rightWalk win thr k band).2 + k + band = 67 + (rightWalk win thr k band).1 := by
  induction k generalizing band with
  | zero => simp [rightWalk]
  | succ k ih =>
    rw [rightWalk]
    split
    · have := ih (by omega) (band + 1)
      omega
    · dsimp only
      omega

theorem leftBand_range (win : List F64) :
    (leftBand win).1 ≤ 33 ∧ (leftBand win).2 = 32 - ((leftBand win).1 : Int) := by
  have := leftWalk_range win (threshold win) 33 0
  rw [leftBand]
  omega

theorem rightBand_range (win : List F64) :
    (rightBand win).1 ≤ 33 ∧ (rightBand win).2 = 34 + (rightBand win).1 := by
  have := rightWalk_range win (threshold win) (show 33 ≤ 66 by norm_num) 0
  rw [rightBand]
  omega

/-- A scan that found a peak ends at indices it has examined, the first one not after the last one;
any other scan ends as it began. -/
def PeakScan.Within (R : Nat → Nat → Prop) (is : List Nat) (p : PeakScan) : Prop :=
  (p.found = true → ∃ i ∈ is, ∃ j ∈ is, p.first = i ∧ p.last = j ∧ R i j) ∧
  (p.found = false → p.first = -1 ∧ p.last = -1)

theorem within_peakTurn {R : Nat → Nat → Prop} (hrefl : ∀ i, R i i) (win : List F64) (pth : F64)
    {is : List Nat} {p : PeakScan} {i : Nat} (h : p.Within R is) (hi : ∀ j ∈ is, R j i) :
    (peakTurn win pth p i).Within R (is ++ [i]) := by
  obtain ⟨hfound, hnone⟩ := h
  rw [peakTurn]
  split
  · refine ⟨fun _ => ?_, fun hf => absurd hf (by simp)⟩
    cases hp : p.found with
    | true =>
      obtain ⟨j, hj, -, -, hfirst, -, -⟩ := hfound hp
      exact ⟨j, by simp [hj], i, by simp, hfirst, rfl, hi j hj⟩
    | false => exact ⟨i, by simp, i, by simp, rfl, rfl, hrefl i⟩
  · refine ⟨fun hf => ?_, hnone⟩
    obtain ⟨j, hj, l, hl, h⟩ := hfound hf
    exact ⟨j, by simp [hj], l, by simp [hl], h⟩

theorem within_peakScan {R : Nat → Nat → Prop} (hrefl : ∀ i, R i i) (win : List F64)
    {is : List Nat} (h : is.Pairwise R) : (peakScan win is).Within R is := by
  rw [peakScan]
  induction is using List.reverseRecOn with
  | nil => exact ⟨fun hf => absurd hf (by simp [PeakScan.empty]), fun _ => ⟨rfl, rfl⟩⟩
  | append_singleton is i ih =>
    obtain ⟨his, -, hi⟩ := List.pairwise_append.1 h
    rw [List.foldl_append]
    exact within_peakTurn hrefl win _ (ih his) fun j hj => hi j hj i (by simp)

/-- A left peak lies below the left pointer, its start at its upper end. -/
theorem leftPeak_range (win : List F64) :
    ((leftPeak win).found = true →
      0 ≤ (leftPeak win).last ∧ (leftPeak win).last ≤ (leftPeak win).first ∧
        (leftPeak win).first ≤ 31) ∧
    ((leftPeak win).found = false → (leftPeak win).first = -1 ∧ (leftPeak win).last = -1) := by
  have hsorted : (List.range (leftBand win).2.toNat).reverse.Pairwise (· ≥ ·) :=
    List.pairwise_reverse.2 List.pairwise_le_range
  obtain ⟨hfound, hnone⟩ := within_peakScan (R := (· ≥ ·)) le_refl win hsorted
  refine ⟨fun h => ?_, hnone⟩
  obtain ⟨i, hi, j, -, hfirst, hlast, hij⟩ := hfound h
  obtain ⟨-, hptr⟩ := leftBand_range win
  rw [List.mem_reverse, List.mem_range] at hi
  rw [leftPeak, hfirst, hlast]
  omega

/-- A right peak lies above the right pointer, its start at its lower end. -/
theorem rightPeak_range (win : List F64) :
    ((rightPeak win).found = true →
      35 ≤ (rightPeak win).first ∧ (rightPeak win).first ≤ (rightPeak win).last ∧
        (rightPeak win).last ≤ 66) ∧
    ((rightPeak win).found = false → (rightPeak win).first = -1 ∧ (rightPeak win).last = -1) := by
  obtain ⟨hfound, hnone⟩ := within_peakScan (R := (· ≤ ·)) le_refl win
    (List.pairwise_le_range' (s := (rightBand win).2 + 1) (n := 66 - (rightBand win).2))
  refine ⟨fun h => ?_, hnone⟩
  obtain ⟨i, hi, j, hj, hfirst, hlast, hij⟩ := hfound h
  obtain ⟨-, hptr⟩ := rightBand_range win
  rw [List.mem_range'_1] at hi hj
  rw [rightPeak, hfirst, hlast]
  omega

/-! ### The bin and its frequency -/

/-- Every rule of R111 gives a bin of the window. -/
theorem locateBin_range (win : List F64) (baseL baseR : Nat) :
    0 ≤ (locateBin (leftBand win).1 (rightBand win).1 baseL baseR (leftPeak win)
        (rightPeak win)).2 ∧
      (locateBin (leftBand win).1 (rightBand win).1 baseL baseR (leftPeak win)
        (rightPeak win)).2 ≤ 66 := by
  obtain ⟨hl, -⟩ := leftBand_range win
  obtain ⟨hr, -⟩ := rightBand_range win
  rw [locateBin]
  split
  · dsimp only
    omega
  split
  · dsimp only
    omega
  split
  · have := (leftPeak_range win).1 ‹_›
    dsimp only
    rw [Int.tdiv_eq_ediv_of_nonneg (by omega)]
    omega
  split
  · have := (rightPeak_range win).1 ‹_›
    dsimp only
    rw [Int.tdiv_eq_ediv_of_nonneg (by omega)]
    omega
  · simp

theorem freqQ10_eq (b : Int) : freqQ10 b = (b - 33) * 22050 + 18944000 := rfl

/-- The published words of a bin of the window. -/
theorem frequency_words {b : Int} (hlo : 0 ≤ b) (hhi : b ≤ 66) :
    (BitVec.ofInt 32 b).toNat = b.toNat ∧
      ((BitVec.ofInt 32 (freqQ10 b)).toNat : Int) = freqQ10 b ∧
      (BitVec.ofInt 32 (freqHz b)).toNat = (BitVec.ofInt 32 (freqQ10 b)).toNat / 1024 := by
  have hq := freqQ10_eq b
  have hword {x : Int} (h0 : 0 ≤ x) (h1 : x ≤ freqQ10 b) :
      ((BitVec.ofInt 32 x).toNat : Int) = x := by
    rw [BitVec.toNat_ofInt, Int.emod_eq_of_lt h0 (by norm_num; omega), Int.toNat_of_nonneg h0]
  have hhz : freqHz b = freqQ10 b / 1024 := Int.tdiv_eq_ediv_of_nonneg (by omega)
  have hb := hword hlo (by omega)
  have hfreq := hword (x := freqHz b) (by omega) (by omega)
  have hq10 := hword (x := freqQ10 b) (by omega) le_rfl
  omega

/-! ### The result registers

Bands, pointers and indices are small, so their words keep their values. -/

theorem toInt_ofInt_index {x : Int} (hlo : -1 ≤ x) (hhi : x ≤ 67) : (BitVec.ofInt 32 x).toInt = x :=
  BitVec.toInt_ofInt_eq_self (by norm_num) (by norm_num; omega) (by norm_num; omega)

theorem toNat_ofNat_index {x : Nat} (h : x ≤ 67) : (BitVec.ofNat 32 x).toNat = x := by
  rw [BitVec.toNat_ofNat]
  omega

theorem leftInv_analysisResults (win : List F64) (baseL baseR : Nat) :
    LeftInv (analysisResults win baseL baseR) := by
  obtain ⟨hband, hptr⟩ := leftBand_range win
  obtain ⟨hfound, hnone⟩ := leftPeak_range win
  simp only [LeftInv, analysisResults]
  rw [toNat_ofNat_index (by omega), toInt_ofInt_index (by omega) (by omega)]
  refine ⟨hband, hptr, fun h => ?_, fun h => ?_⟩
  · have hp := hfound h
    rwa [toInt_ofInt_index (by omega) (by omega), toInt_ofInt_index (by omega) (by omega)]
  · rw [(hnone h).1, (hnone h).2]
    exact ⟨rfl, rfl⟩

theorem rightInv_analysisResults (win : List F64) (baseL baseR : Nat) :
    RightInv (analysisResults win baseL baseR) := by
  obtain ⟨hband, hptr⟩ := rightBand_range win
  obtain ⟨hfound, hnone⟩ := rightPeak_range win
  simp only [RightInv, analysisResults]
  rw [toNat_ofNat_index (by omega), ← BitVec.ofInt_natCast, toInt_ofInt_index (by omega) (by omega)]
  refine ⟨hband, by omega, fun h => ?_, fun h => ?_⟩
  · have hp := hfound h
    rwa [toInt_ofInt_index (by omega) (by omega), toInt_ofInt_index (by omega) (by omega)]
  · rw [(hnone h).1, (hnone h).2]
    exact ⟨rfl, rfl⟩

theorem frequencyInv_analysisResults (win : List F64) (baseL baseR : Nat) :
    FrequencyInv (analysisResults win baseL baseR) := by
  obtain ⟨hlo, hhi⟩ := locateBin_range win baseL baseR
  simp only [FrequencyInv, analysisResults]
  generalize (locateBin _ _ _ _ _ _).2 = b at hlo hhi ⊢
  obtain ⟨hbin, hq10, hhz⟩ := frequency_words hlo hhi
  have hval := freqQ10_eq b
  rw [hbin, hhz, Int.toNat_of_nonneg hlo, hq10]
  omega

end Sys2Proof.Machine

/-! ## The transform keeps the lengths of the channels (40_transform R92, R94 to R96) -/

namespace Sys2Proof.Machine

section Lengths
variable {α : Type}

@[simp] theorem length_swapAt (z : α) (xs : List α) (i j : Nat) :
    (swapAt z xs i j).length = xs.length := by simp [swapAt]

@[simp] theorem length_bitrevList (z : α) (m n : Nat) (xs : List α) :
    (bitrevList z m n xs).length = xs.length := by
  refine List.foldlRecOn (motive := fun ys : List α => ys.length = xs.length) _ _ rfl
    fun ys hys i _ => ?_
  rw [bitrevTurn]
  split
  · rw [length_swapAt, hys]
  · exact hys

/-- Both channels have `n` elements. -/
def Channels.HasLength (n : Nat) (x : Channels α) : Prop := x.re.length = n ∧ x.im.length = n

theorem hasLength_bitrevChannels (z : α) (m k : Nat) {n : Nat} {x : Channels α}
    (h : x.HasLength n) : (bitrevChannels z m k x).HasLength n :=
  ⟨(length_bitrevList z m k x.re).trans h.1, (length_bitrevList z m k x.im).trans h.2⟩

theorem hasLength_butterfly (A : Arith α) (c sn : α) (k u : Nat) {n : Nat} {x : Channels α}
    (h : x.HasLength n) : (butterfly A c sn k u x).HasLength n := by
  simpa [Channels.HasLength, butterfly] using h

theorem hasLength_stageChannels (A : Arith α) (cosT sinT : Nat → α) (k st : Nat) {n : Nat}
    {x : Channels α} (h : x.HasLength n) : (stageChannels A cosT sinT k st x).HasLength n :=
  List.foldlRecOn _ _ h fun _ hgroup _ _ =>
    List.foldlRecOn _ _ hgroup fun _ hwing _ _ => hasLength_butterfly A _ _ _ _ hwing

theorem hasLength_fftChannels (A : Arith α) (cosT sinT : Nat → α) (m k : Nat) {n : Nat}
    {x : Channels α} (h : x.HasLength n) : (fftChannels A cosT sinT m k x).HasLength n :=
  List.foldlRecOn _ _ (hasLength_bitrevChannels A.zero m k h) fun _ hstage _ _ =>
    hasLength_stageChannels A cosT sinT k _ hstage

end Lengths

@[simp] theorem length_blackmanProducts (blk : Nat → F64) (i : Nat) (xs : List F64) :
    (blackmanProducts blk i xs).length = xs.length := by
  induction xs generalizing i with
  | nil => rfl
  | cons x xs ih => rw [blackmanProducts, List.length_cons, ih, List.length_cons]

theorem length_of_readElems {m : Memory} {base i len : Nat} {xs : List F64}
    (h : Memory.readElems m base i len = some xs) : xs.length = len :=
  ((Memory.readElems_eq_some _ _ _ _ _).1 h).1

end Sys2Proof.Machine

/-! ## Every step keeps the invariant

Each update of the state keeps `Inv`; the shared operations pass it on from a command's body to the
command, and the engine step and the host operations from the commands and accesses to the step. -/

namespace Sys2Proof.Machine

/-! ### The updates of the state -/

theorem code_range (c : Cause) : 1 ≤ c.code.toNat ∧ c.code.toNat ≤ 7 := by
  cases c <;> decide

theorem or_mask_ne_zero (e : BitVec 7) (c : Cause) : e ||| c.mask ≠ 0 := by
  intro h
  have hmask := (BitVec.or_eq_zero_iff.1 h).2
  cases c <;> cases hmask

/-- An error is recorded with one of the seven causes, or after one (R130). -/
theorem errorInv_raise {s : State} (h : ErrorInv s) (c : Cause) (w : Word) :
    ErrorInv (raise c w s) := by
  refine ⟨fun h0 => absurd h0 (or_mask_ne_zero _ _), fun _ => ?_⟩
  rw [raise_errCause]
  split
  · exact code_range c
  · exact h.2 ‹_›

/-- Cause and information go with the last bit (R26). -/
theorem errorInv_acknowledge {s : State} (h : ErrorInv s) (v : Word) :
    ErrorInv (acknowledge v s) := by
  simp only [ErrorInv, acknowledge_err, acknowledge_errCause, acknowledge_errInfo]
  refine ⟨fun h0 => by simp [h0], fun hne => ?_⟩
  rw [if_neg hne]
  exact h.2 fun h0 => hne (by rw [h0]; exact BitVec.zero_and)

theorem inv_raise {s : State} (h : Inv s) (c : Cause) (w : Word) : Inv (raise c w s) := by
  obtain ⟨hmem, hcfg, hbase, herr, hres⟩ := h
  exact ⟨hmem, hcfg, hbase, errorInv_raise herr c w, hres⟩

theorem inv_acknowledge {s : State} (h : Inv s) (v : Word) : Inv (acknowledge v s) := by
  obtain ⟨hmem, hcfg, hbase, herr, hres⟩ := h
  exact ⟨hmem, hcfg, hbase, errorInv_acknowledge herr v, hres⟩

theorem inv_storeArray {s : State} (h : Inv s) {base : Nat} {xs : List F64}
    (hin : InsideWindows base xs.length) : Inv (storeArray base xs s) := by
  obtain ⟨hmem, hrest⟩ := h
  exact ⟨memoryInv_storeArray hmem hin, hrest⟩

theorem inv_complete {s : State} (h : Inv s) : Inv (complete s) := h

/-- Settles O11: the memory is empty, and every part of the record at rest. -/
theorem resetMeetsTheInvariant : Obligations.ResetMeetsTheInvariant :=
  ⟨⟨rfl, rfl⟩, ⟨fun h => absurd h (by decide), fun _ => ⟨rfl, rfl⟩⟩, .inl ⟨rfl, rfl, rfl⟩,
    ⟨fun _ => ⟨rfl, rfl⟩, fun h => absurd rfl h⟩, fun _ => rfl, fun h => absurd h (by decide)⟩

theorem inv_resetBlock (s : State) : Inv (resetBlock s) := resetMeetsTheInvariant

/-! ### The commands -/

/-- Every state that the outcome goes on to meets the invariant. -/
def KeepsInv (o : Result) : Prop := ∀ t, o = .next t → Inv t

theorem keepsInv_next {s : State} (h : Inv s) : KeepsInv (.next s) := by
  rintro _ ⟨⟩
  exact h

theorem keepsInv_andThen {o : Result} {f : State → Result} (ho : KeepsInv o)
    (hf : ∀ s, Inv s → KeepsInv (f s)) : KeepsInv (andThen o f) := by
  intro t ht
  obtain ⟨s, hs, ht⟩ := andThen_eq_next.1 ht
  exact hf s (ho s hs) t ht

theorem keepsInv_requireCfg {s : State} {body : State → Result} (h : Inv s)
    (hbody : s.cfgValid = true → KeepsInv (body s)) : KeepsInv (requireCfg s body) := by
  intro t ht
  rcases requireCfg_eq_next.1 ht with ⟨hc, ht⟩ | ⟨-, rfl⟩
  · exact hbody hc t ht
  · exact inv_raise h _ _

theorem keepsInv_requireWindow {s : State} {body : State → Result} (h : Inv s)
    (hbody : KeepsInv (body s)) : KeepsInv (requireWindow s body) := by
  intro t ht
  rcases requireWindow_eq_next.1 ht with ⟨-, ht⟩ | ⟨-, rfl⟩
  · exact hbody t ht
  · exact inv_raise h _ _

theorem keepsInv_withArray {base len : Nat} {s : State} {body : List F64 → Result}
    (hbody : ∀ xs : List F64, xs.length = len → KeepsInv (body xs)) :
    KeepsInv (withArray base len s body) := by
  intro t ht
  obtain ⟨xs, hxs, ht⟩ := withArray_eq_next.1 ht
  exact hbody xs (length_of_readElems hxs) t ht

/-- A command that rewrites the spectrum stores as many elements as it reads. -/
theorem keepsInv_onSpectrum {f : Channels F64 → Channels F64} {s : State} (h : Inv s)
    (hf : ∀ x, x.HasLength s.n.toNat → (f x).HasLength s.n.toNat) : KeepsInv (onSpectrum f s) := by
  have hn := n_le_of_configInv h.2.1
  refine keepsInv_withArray fun re hre => keepsInv_withArray fun im him => keepsInv_next ?_
  obtain ⟨hre', him'⟩ := hf ⟨re, im⟩ ⟨hre, him⟩
  exact inv_storeArray (inv_storeArray h (insideWindows_re (by omega)))
    (insideWindows_im (by omega))

theorem configInv_of_pow2ok {s : State} {n : Nat} (h : pow2ok n = true) :
    ConfigInv { s with
      n := BitVec.ofNat 13 n, log2n := BitVec.ofNat 4 (Nat.log2 n), cfgValid := true } := by
  rw [pow2ok, Bool.and_eq_true, Bool.and_eq_true, decide_eq_true_eq, decide_eq_true_eq,
    beq_iff_eq, Config.nMax] at h
  obtain ⟨⟨hlo, hhi⟩, hpow⟩ := h
  have hlog : 1 ≤ Nat.log2 n := (Nat.le_log2 (by omega)).2 hlo
  have hlog' : Nat.log2 n < 12 := (Nat.log2_lt (by omega)).2 (by omega)
  refine ⟨fun _ => ?_, fun hc => absurd hc (by simp)⟩
  rw [BitVec.toNat_ofNat, BitVec.toNat_ofNat, Nat.mod_eq_of_lt (by omega),
    Nat.mod_eq_of_lt (by omega)]
  exact ⟨hlog, by omega, hpow⟩

theorem keepsInv_execCfg {s : State} (h : Inv s) (n : Nat) : KeepsInv (execCfg n s) := by
  obtain ⟨hmem, -, hrest⟩ := h
  rw [execCfg]
  split
  · exact keepsInv_next ⟨hmem, configInv_of_pow2ok ‹_›, hrest⟩
  · refine keepsInv_next (inv_raise ?_ _ _)
    exact ⟨hmem, ⟨fun hc => absurd hc Bool.false_ne_true, fun _ => ⟨rfl, rfl⟩⟩, hrest⟩

theorem keepsInv_zimBody {s : State} (h : Inv s) : KeepsInv (zimBody s) :=
  keepsInv_next (inv_storeArray h (insideWindows_im (by
    rw [List.length_replicate]
    exact n_le_of_configInv h.2.1)))

theorem keepsInv_execBlkw {s : State} (h : Inv s) : KeepsInv (execBlkw s) :=
  keepsInv_requireCfg h fun _ => keepsInv_withArray fun xs hxs =>
    keepsInv_next (inv_storeArray h (insideWindows_re (by
      rw [length_blackmanProducts, hxs]
      exact n_le_of_configInv h.2.1)))

theorem keepsInv_execBitrev {s : State} (h : Inv s) : KeepsInv (execBitrev s) :=
  keepsInv_requireCfg h fun _ => keepsInv_onSpectrum h fun _ => hasLength_bitrevChannels _ _ _

theorem keepsInv_execStage {s : State} (h : Inv s) (st : Nat) : KeepsInv (execStage st s) := by
  refine keepsInv_requireCfg h fun _ => ?_
  split
  · exact keepsInv_onSpectrum h fun _ => hasLength_stageChannels _ _ _ _ _
  · exact keepsInv_next (inv_raise h _ _)

theorem keepsInv_fftBody {s : State} (h : Inv s) : KeepsInv (fftBody s) :=
  keepsInv_onSpectrum h fun _ => hasLength_fftChannels _ _ _ _ _

theorem keepsInv_magBody {s : State} (h : Inv s) : KeepsInv (magBody s) := by
  have hn := n_le_of_configInv h.2.1
  refine keepsInv_withArray fun re hre => keepsInv_withArray fun im him => keepsInv_next ?_
  exact inv_storeArray h (insideWindows_mag (by
    rw [List.length_zipWith]
    omega))

theorem keepsInv_extractBody {s : State} (h : Inv s) : KeepsInv (extractBody s) := by
  intro t ht
  rw [extractBody] at ht
  split at ht
  next xs hxs =>
    refine keepsInv_next (inv_storeArray h (insideWindows_win ?_)) t ht
    rw [length_of_readElems hxs, Config.winLen]
  next => cases ht

theorem baselineInv_initBaseline {s : State} (h : BaselineInv s) :
    BaselineInv (initBaseline s) := by
  rw [initBaseline]
  split
  · exact h
  · exact .inr ⟨rfl, rfl, rfl⟩

theorem keepsInv_analyzeBody {s : State} (h : Inv s) : KeepsInv (analyzeBody s) := by
  obtain ⟨hmem, hcfg, hbase, herr, -⟩ := h
  refine keepsInv_withArray fun win _ => keepsInv_next ?_
  have hinit : MemoryInv (initBaseline s) ∧ ConfigInv (initBaseline s) ∧
      ErrorInv (initBaseline s) := by
    rw [initBaseline]
    split <;> exact ⟨hmem, hcfg, herr⟩
  obtain ⟨hmem, hcfg, herr⟩ := hinit
  exact ⟨hmem, hcfg, baselineInv_initBaseline hbase, herr,
    fun hv => absurd hv (by simp [analysisResults]), fun _ =>
      ⟨leftInv_analysisResults _ _ _, rightInv_analysisResults _ _ _,
        frequencyInv_analysisResults _ _ _⟩⟩

theorem keepsInv_execNewses {s : State} (h : Inv s) : KeepsInv (execNewses s) := by
  obtain ⟨hmem, hcfg, -, hrest⟩ := h
  exact keepsInv_next ⟨hmem, hcfg, .inl ⟨rfl, rfl, rfl⟩, hrest⟩

theorem keepsInv_execExtract {s : State} (h : Inv s) : KeepsInv (execExtract s) :=
  keepsInv_requireCfg h fun _ => keepsInv_requireWindow h (keepsInv_extractBody h)

theorem keepsInv_execPipe {s : State} (h : Inv s) : KeepsInv (execPipe s) :=
  keepsInv_requireCfg h fun _ => keepsInv_requireWindow h <|
    keepsInv_andThen (keepsInv_andThen (keepsInv_andThen (keepsInv_andThen (keepsInv_zimBody h)
      fun _ => keepsInv_fftBody) fun _ => keepsInv_magBody) fun _ => keepsInv_extractBody)
      fun _ => keepsInv_analyzeBody

theorem keepsInv_exec {s : State} (h : Inv s) (i : Instr) : KeepsInv (exec i s) := by
  cases i with
  | nop => exact keepsInv_next h
  | cfg n => exact keepsInv_execCfg h n
  | zim => exact keepsInv_requireCfg h fun _ => keepsInv_zimBody h
  | blkw => exact keepsInv_execBlkw h
  | bitrev => exact keepsInv_execBitrev h
  | stage st => exact keepsInv_execStage h st
  | fft => exact keepsInv_requireCfg h fun _ => keepsInv_fftBody h
  | mag => exact keepsInv_requireCfg h fun _ => keepsInv_magBody h
  | extract => exact keepsInv_execExtract h
  | analyze => exact keepsInv_analyzeBody h
  | newses => exact keepsInv_execNewses h
  | pipe => exact keepsInv_execPipe h

theorem keepsInv_engineStep {s : State} (h : Inv s) : KeepsInv (engineStep s) := by
  intro t ht
  obtain ⟨u, hu, rfl⟩ := engineStep_eq_next.1 ht
  refine inv_complete ?_
  rcases runPending_eq_next.1 hu with ⟨i, -, hi⟩ | ⟨-, -, rfl⟩
  · exact keepsInv_exec h i u hi
  · exact inv_raise h _ _

/-! ### The host's operations -/

theorem inv_regWrite {s : State} (h : Inv s) (r : Reg) (v : Word) : Inv (regWrite r v s) := by
  cases r
  case err => exact inv_acknowledge h v
  all_goals exact h

/-- A write that passes the first check of R68 is aligned. -/
theorem aligned_of_accessError_eq_none {acc : Access} {a : Addr} {s : State}
    (h : accessError acc a s = none) : a.toNat % 4 = 0 := by
  by_contra hmis
  rw [accessError, if_pos hmis] at h
  cases h

/-- Only the addresses of the data windows hold data words. -/
theorem locate_eq_data_iff (a : Addr) : locate a = .data ↔ inDataWindow a.toNat = true := by
  rw [locate]
  split
  · simp [*]
  · refine iff_of_false ?_ ‹_›
    split_ifs
    · exact Location.noConfusion
    · exact Location.noConfusion
    · exact Location.noConfusion
    · split <;> exact Location.noConfusion

theorem inv_memWrite {s : State} (h : Inv s) (a : Addr) (v : Word) : Inv (memWrite a v s) := by
  rw [memWrite]
  cases he : accessError (.write v) a s with
  | some p => exact inv_raise h _ _
  | none =>
    cases hl : locate a with
    | reg r => exact inv_regWrite h r v
    | data =>
      obtain ⟨⟨hwf, hwords⟩, hrest⟩ := h
      exact ⟨⟨Memory.wf_writeWord hwf _ _, wordsInWindows_writeWord hwords
        (aligned_of_accessError_eq_none he) ((locate_eq_data_iff a).1 hl) v⟩, hrest⟩
    | table t i b => exact h
    | unmapped => exact h

theorem inv_memRead {s t : State} {a : Addr} {v : Word} (h : Inv s)
    (hr : memRead a s = .next (v, t)) : Inv t := by
  rcases memRead_next hr with ⟨c, info, -, -, rfl⟩ | ⟨-, rfl⟩
  · exact inv_raise h c info
  · exact h

theorem keepsInv_hostStep {s : State} (h : Inv s) (op : HostOp) : KeepsInv (hostStep op s) := by
  intro t ht
  rcases hostStep_next ht with ⟨a, v, -, rfl⟩ | ⟨a, v, u, -, hr, rfl⟩ |
    ⟨a, m, v, w, u, -, hr, rfl⟩ | ⟨-, rfl⟩
  · exact inv_memWrite h a v
  · have hu : Inv u := inv_memRead h hr
    exact hu
  · have hu : Inv u := inv_memRead h hr
    split <;> exact hu
  · exact inv_resetBlock s

/-- Settles O12: `Inv` does not see the host's side, and each access and each command keeps it. -/
theorem everyStepKeepsTheInvariant : Obligations.EveryStepKeepsTheInvariant := by
  intro s t h ht
  rcases step_cases s with ⟨op, rest, ts, -, -, -, hs⟩ | ⟨-, hs⟩ | ⟨-, -, hs⟩ <;> rw [hs] at ht
  · exact keepsInv_hostStep (s := { s with turns := ts, program := rest }) h op t ht
  · exact keepsInv_engineStep (s := { s with turns := s.turns.tail }) h t ht
  · exact keepsInv_next h t ht

end Sys2Proof.Machine

/-! ## Where the machine stops, and that it stops nowhere else (10_state R51, 20_memory R65)

The one fault is the read of an unwritten word, by the host or by a command. -/

namespace Sys2Proof.Machine

/-! ### Commands on unwritten elements -/

theorem readElems_of_not_written {s : State} {base i len : Nat} (h : ¬ Written s base i len) :
    Memory.readElems s.mem base i len = none := by
  rw [← Option.not_isSome_iff_eq_none, Memory.readElems_isSome]
  exact h

theorem withArray_of_not_written {s : State} {base len : Nat} (h : ¬ Written s base 0 len)
    (body : List F64 → Result) : withArray base len s body = .fault .uninit := by
  rw [withArray, readElems_of_not_written h]

/-- A command that reads two arrays stops at either of them. -/
theorem withArrays_of_not_written {s : State} {base base' len : Nat}
    (h : ¬ (Written s base 0 len ∧ Written s base' 0 len)) (body : List F64 → List F64 → Result) :
    (withArray base len s fun xs => withArray base' len s (body xs)) = .fault .uninit := by
  by_cases hw : Written s base 0 len
  · obtain ⟨xs, -, -, heq⟩ := withArray_of_written hw fun xs => withArray base' len s (body xs)
    rw [heq, withArray_of_not_written fun hw' => h ⟨hw, hw'⟩]
  · exact withArray_of_not_written hw _

theorem onSpectrum_of_not_written {s : State}
    (h : ¬ (Written s Config.reBase 0 s.n.toNat ∧ Written s Config.imBase 0 s.n.toNat))
    (f : Channels F64 → Channels F64) : onSpectrum f s = .fault .uninit :=
  withArrays_of_not_written h _

theorem magBody_of_not_written {s : State}
    (h : ¬ (Written s Config.reBase 0 (s.n.toNat / 2) ∧
      Written s Config.imBase 0 (s.n.toNat / 2))) :
    magBody s = .fault .uninit :=
  withArrays_of_not_written h _

theorem extractBody_of_not_written {s : State}
    (h : ¬ Written s Config.magBase (windowStart s) Config.winLen) :
    extractBody s = .fault .uninit := by
  rw [extractBody, readElems_of_not_written h]

/-- Storing an array leaves unwritten elements of another one unwritten. -/
theorem not_written_storeArray {s : State} {base base' len : Nat} {xs : List F64}
    (h : ¬ Written s base 0 len)
    (hd : base + 8 * len ≤ base' ∨ base' + 8 * xs.length ≤ base) :
    ¬ Written (storeArray base' xs s) base 0 len := by
  refine fun hw => h fun j hj => ?_
  have := hw j hj
  rwa [storeArray_mem, Memory.readElem_writeElems_other _ _ _ _ _ _ (by omega)] at this

theorem requireWindow_of_inRange {s : State} (h : windowInRange s = true) (body : State → Result) :
    requireWindow s body = body s := by rw [requireWindow, if_pos h]

/-- `PIPE` writes IM before its transform reads RE, which stays unwritten. -/
theorem execPipe_of_not_written {s : State} (hcfg : ConfigInv s) (hvalid : s.cfgValid = true)
    (hwin : windowInRange s = true) (h : ¬ Written s Config.reBase 0 s.n.toNat) :
    execPipe s = .fault .uninit := by
  have hn := n_le_of_configInv hcfg
  have hre : ¬ Written (storeArray Config.imBase (List.replicate s.n.toNat 0) s) Config.reBase 0
      s.n.toNat :=
    not_written_storeArray h (.inl (by rw [Config.reBase, Config.imBase]; omega))
  have hfft : andThen (zimBody s) fftBody = .fault .uninit :=
    onSpectrum_of_not_written (fun hw => hre hw.1) _
  rw [execPipe, requireCfg_of_valid hvalid, requireWindow_of_inRange hwin, hfft]
  rfl

/-- Settles O20, by the arrays that each command reads. -/
theorem unwrittenOperandsStopCommands : Obligations.UnwrittenOperandsStopCommands := by
  refine fun s hcfg => ⟨fun hv h => ?_, fun hv h => ⟨?_, ?_, fun st hst => ?_⟩, fun hv h => ?_,
    fun hv hwin h => ?_, fun h => ?_, fun hv hwin h => ?_⟩
  · rw [exec, execBlkw, requireCfg_of_valid hv]
    exact withArray_of_not_written h _
  · rw [exec, execBitrev, requireCfg_of_valid hv]
    exact onSpectrum_of_not_written h _
  · rw [exec, execFft, requireCfg_of_valid hv]
    exact onSpectrum_of_not_written h _
  · rw [exec, execStage, requireCfg_of_valid hv, if_pos (by rwa [stageOk, decide_eq_true_eq])]
    exact onSpectrum_of_not_written h _
  · rw [exec, execMag, requireCfg_of_valid hv]
    exact magBody_of_not_written h
  · rw [exec, execExtract, requireCfg_of_valid hv, requireWindow_of_inRange hwin]
    exact extractBody_of_not_written h
  · exact withArray_of_not_written h _
  · exact execPipe_of_not_written hcfg hv hwin h

/-! ### Host reads -/

theorem accessError_read_of_idle {s : State} {a : Addr} (hidle : s.busy = false)
    (ha : a.toNat % 4 = 0) (hl : locate a ≠ .unmapped) : accessError .read a s = none := by
  simp [accessError, ha, hl, hidle, Access.isWrite]

/-- A host read is answered, or it stops at an unwritten word. -/
theorem memRead_next_or_fault (a : Addr) (s : State) :
    (∃ v t, memRead a s = .next (v, t)) ∨
    (accessError .read a s = none ∧ locate a = .data ∧ Memory.readWord s.mem a.toNat = none ∧
      memRead a s = .fault .uninit) := by
  rw [memRead]
  cases accessError .read a s with
  | some p => exact .inl ⟨_, _, rfl⟩
  | none =>
    cases locate a with
    | reg r => exact .inl ⟨_, _, rfl⟩
    | table t i high => cases high <;> exact .inl ⟨_, _, rfl⟩
    | unmapped => exact .inl ⟨_, _, rfl⟩
    | data =>
      cases Memory.readWord s.mem a.toNat with
      | some v => exact .inl ⟨_, _, rfl⟩
      | none => exact .inr ⟨rfl, rfl, rfl, rfl⟩

/-- Settles O28: a word with an unwritten byte has no value. -/
theorem unwrittenWordReadFaults : Obligations.UnwrittenWordReadFaults := by
  intro s a k hidle ha hlo hhi hk hbyte
  have hl : locate a = .data := (locate_eq_data_iff a).2 ((inDataWindow_iff _).2 ⟨hlo, hhi⟩)
  have hacc := accessError_read_of_idle hidle ha (by rw [hl]; exact Location.noConfusion)
  have hword : Memory.readWord s.mem a.toNat = none := by
    rw [← Option.not_isSome_iff_eq_none, Memory.readWord_isSome_iff]
    intro h
    simpa [hbyte] using h k hk
  simp only [memRead, hacc, hl, hword]

/-! ### Nothing is refused -/

/-- The outcome is a next state or a fault. -/
def NeverRefused (o : Result) : Prop := ∀ r, o ≠ .refused r

theorem neverRefused_next (s : State) : NeverRefused (.next s) := fun _ h => nomatch h

theorem neverRefused_fault (r : Fault) : NeverRefused (.fault r) := fun _ h => nomatch h

theorem neverRefused_andThen {o : Result} {f : State → Result} (ho : NeverRefused o)
    (hf : ∀ s, NeverRefused (f s)) : NeverRefused (andThen o f) := by
  cases o with
  | next s => exact hf s
  | fault r => exact neverRefused_fault r
  | refused r => exact absurd rfl (ho r)

theorem neverRefused_ite {p : Prop} [Decidable p] {o o' : Result} (h : NeverRefused o)
    (h' : NeverRefused o') : NeverRefused (if p then o else o') := by
  split <;> assumption

theorem neverRefused_requireCfg {s : State} {body : State → Result} (h : NeverRefused (body s)) :
    NeverRefused (requireCfg s body) :=
  neverRefused_ite h (neverRefused_next _)

theorem neverRefused_requireWindow {s : State} {body : State → Result} (h : NeverRefused (body s)) :
    NeverRefused (requireWindow s body) :=
  neverRefused_ite h (neverRefused_next _)

theorem neverRefused_withArray {base len : Nat} {s : State} {body : List F64 → Result}
    (h : ∀ xs, NeverRefused (body xs)) : NeverRefused (withArray base len s body) := by
  rw [withArray]
  split
  · exact h _
  · exact neverRefused_fault _

theorem neverRefused_onSpectrum (f : Channels F64 → Channels F64) (s : State) :
    NeverRefused (onSpectrum f s) :=
  neverRefused_withArray fun _ => neverRefused_withArray fun _ => neverRefused_next _

theorem neverRefused_magBody (s : State) : NeverRefused (magBody s) :=
  neverRefused_withArray fun _ => neverRefused_withArray fun _ => neverRefused_next _

theorem neverRefused_extractBody (s : State) : NeverRefused (extractBody s) := by
  rw [extractBody]
  split
  · exact neverRefused_next _
  · exact neverRefused_fault _

theorem neverRefused_analyzeBody (s : State) : NeverRefused (analyzeBody s) :=
  neverRefused_withArray fun _ => neverRefused_next _

theorem neverRefused_execBlkw (s : State) : NeverRefused (execBlkw s) := by
  refine neverRefused_requireCfg ?_
  exact neverRefused_withArray fun _ => neverRefused_next _

theorem neverRefused_execStage (st : Nat) (s : State) : NeverRefused (execStage st s) := by
  refine neverRefused_requireCfg ?_
  exact neverRefused_ite (neverRefused_onSpectrum _ _) (neverRefused_next _)

theorem neverRefused_execExtract (s : State) : NeverRefused (execExtract s) := by
  refine neverRefused_requireCfg ?_
  exact neverRefused_requireWindow (neverRefused_extractBody s)

theorem neverRefused_execPipe (s : State) : NeverRefused (execPipe s) :=
  neverRefused_requireCfg <| neverRefused_requireWindow <|
    neverRefused_andThen (neverRefused_andThen (neverRefused_andThen (neverRefused_andThen
      (neverRefused_next _) fun _ => neverRefused_onSpectrum _ _) neverRefused_magBody)
      neverRefused_extractBody) neverRefused_analyzeBody

theorem neverRefused_exec (i : Instr) (s : State) : NeverRefused (exec i s) := by
  cases i with
  | nop => exact neverRefused_next _
  | cfg n => exact neverRefused_ite (neverRefused_next _) (neverRefused_next _)
  | zim => exact neverRefused_requireCfg (neverRefused_next _)
  | blkw => exact neverRefused_execBlkw s
  | bitrev => exact neverRefused_requireCfg (neverRefused_onSpectrum _ _)
  | stage st => exact neverRefused_execStage st s
  | fft => exact neverRefused_requireCfg (neverRefused_onSpectrum _ _)
  | mag => exact neverRefused_requireCfg (neverRefused_magBody s)
  | extract => exact neverRefused_execExtract s
  | analyze => exact neverRefused_analyzeBody s
  | newses => exact neverRefused_next _
  | pipe => exact neverRefused_execPipe s

theorem neverRefused_engineStep (s : State) : NeverRefused (engineStep s) := by
  refine neverRefused_andThen ?_ fun _ => neverRefused_next _
  rw [runPending]
  split
  · exact neverRefused_exec _ s
  · exact neverRefused_next _

theorem neverRefused_hostStep (op : HostOp) (s : State) : NeverRefused (hostStep op s) := by
  cases op with
  | wr a v => exact neverRefused_next _
  | rd a =>
    rw [hostStep]
    rcases memRead_next_or_fault a s with ⟨v, t, hr⟩ | ⟨-, -, -, hr⟩ <;> rw [hr]
    · exact neverRefused_next _
    · exact neverRefused_fault _
  | poll a m v =>
    rw [hostStep]
    rcases memRead_next_or_fault a s with ⟨w, t, hr⟩ | ⟨-, -, -, hr⟩ <;> rw [hr]
    · exact neverRefused_next _
    · exact neverRefused_fault _
  | reset => exact neverRefused_next _

theorem neverRefused_step (s : State) : NeverRefused (step s) := by
  rcases step_cases s with ⟨op, rest, ts, -, -, -, hs⟩ | ⟨-, hs⟩ | ⟨-, -, hs⟩ <;> rw [hs]
  · exact neverRefused_hostStep op _
  · exact neverRefused_engineStep _
  · exact neverRefused_next s

/-! ### Written memory stops nothing -/

/-- The configuration is sound and every word of the data windows is written. -/
def Readable (s : State) : Prop :=
  ConfigInv s ∧ ∀ a, inDataWindow a = true → (Memory.getByte s.mem a).isSome = true

theorem readable_storeArray {s : State} (h : Readable s) (base : Nat) (xs : List F64) :
    Readable (storeArray base xs s) :=
  ⟨h.1, fun a ha => Memory.getByte_writeElems_isSome (h.2 a ha) base 0 xs⟩

theorem readElems_of_readable {s : State} (h : Readable s) {base i len : Nat}
    (hin : InsideWindows base (i + len)) : ∃ xs, Memory.readElems s.mem base i len = some xs := by
  obtain ⟨-, hlo, hhi⟩ := hin
  rw [Config.reBase] at hlo
  have hw : Written s base i len := fun j hj => (Memory.readElem_isSome_iff _ _ _).2 fun k hk => by
    refine h.2 _ ?_
    rw [inDataWindow_iff]
    omega
  obtain ⟨xs, hxs, -⟩ := readElems_of_written hw
  exact ⟨xs, hxs⟩

/-- RE and IM can be read up to the configured length. -/
theorem readSpectrum_of_readable {s : State} (h : Readable s) {len : Nat} (hlen : len ≤ s.n.toNat) :
    (∃ re, Memory.readElems s.mem Config.reBase 0 len = some re) ∧
      ∃ im, Memory.readElems s.mem Config.imBase 0 len = some im := by
  have hn := n_le_of_configInv h.1
  exact ⟨readElems_of_readable h (insideWindows_re (by omega)),
    readElems_of_readable h (insideWindows_im (by omega))⟩

/-- The outcome is a next state. -/
def Completes (o : Result) : Prop := ∃ t, o = .next t

/-- The outcome is a next state that is readable and has the window where it was. -/
def StaysReadable (s : State) (o : Result) : Prop :=
  ∃ t, o = .next t ∧ Readable t ∧ windowInRange t = windowInRange s

theorem completes_next (s : State) : Completes (.next s) := ⟨s, rfl⟩

theorem StaysReadable.completes {s : State} {o : Result} (h : StaysReadable s o) : Completes o :=
  let ⟨t, ht, _⟩ := h
  ⟨t, ht⟩

theorem completes_andThen {s : State} {o : Result} {f : State → Result} (ho : StaysReadable s o)
    (hf : ∀ t, Readable t → windowInRange t = windowInRange s → Completes (f t)) :
    Completes (andThen o f) := by
  obtain ⟨t, rfl, ht, hwin⟩ := ho
  exact hf t ht hwin

theorem staysReadable_andThen {s : State} {o : Result} {f : State → Result}
    (ho : StaysReadable s o)
    (hf : ∀ t, Readable t → windowInRange t = windowInRange s → StaysReadable t (f t)) :
    StaysReadable s (andThen o f) := by
  obtain ⟨t, rfl, ht, hwin⟩ := ho
  obtain ⟨u, hu, hread, hwin'⟩ := hf t ht hwin
  exact ⟨u, hu, hread, hwin'.trans hwin⟩

theorem completes_requireCfg {s : State} {body : State → Result} (h : Completes (body s)) :
    Completes (requireCfg s body) := by
  rw [requireCfg]
  split
  · exact h
  · exact completes_next _

theorem completes_requireWindow {s : State} {body : State → Result}
    (h : windowInRange s = true → Completes (body s)) : Completes (requireWindow s body) := by
  rw [requireWindow]
  split
  · exact h ‹_›
  · exact completes_next _

theorem staysReadable_storeArray {s : State} (h : Readable s) (base : Nat) (xs : List F64) :
    StaysReadable s (.next (storeArray base xs s)) :=
  ⟨_, rfl, readable_storeArray h base xs, rfl⟩

theorem staysReadable_onSpectrum {s : State} (h : Readable s) (f : Channels F64 → Channels F64) :
    StaysReadable s (onSpectrum f s) := by
  obtain ⟨⟨re, hre⟩, im, him⟩ := readSpectrum_of_readable h le_rfl
  exact ⟨_, onSpectrum_eq_next.2 ⟨re, im, hre, him, rfl⟩,
    readable_storeArray (readable_storeArray h _ _) _ _, rfl⟩

theorem staysReadable_fftBody {s : State} (h : Readable s) : StaysReadable s (fftBody s) :=
  staysReadable_onSpectrum h _

theorem staysReadable_magBody {s : State} (h : Readable s) : StaysReadable s (magBody s) := by
  obtain ⟨⟨re, hre⟩, im, him⟩ := readSpectrum_of_readable h (Nat.div_le_self s.n.toNat 2)
  exact ⟨_, withArray_eq_next.2 ⟨re, hre, withArray_eq_next.2 ⟨im, him, rfl⟩⟩,
    readable_storeArray h _ _, rfl⟩

theorem staysReadable_extractBody {s : State} (h : Readable s) (hwin : windowInRange s = true) :
    StaysReadable s (extractBody s) := by
  have hn := n_le_of_configInv h.1
  have hin : InsideWindows Config.magBase (windowStart s + Config.winLen) := by
    rw [windowInRange, Bool.and_eq_true, decide_eq_true_eq, decide_eq_true_eq,
      Config.winCenter] at hwin
    refine insideWindows_mag ?_
    rw [windowStart, Config.winCenter, Config.winLen]
    omega
  obtain ⟨xs, hxs⟩ := readElems_of_readable h hin
  rw [extractBody, hxs]
  exact staysReadable_storeArray h _ _

theorem completes_analyzeBody {s : State} (h : Readable s) : Completes (analyzeBody s) := by
  obtain ⟨xs, hxs⟩ := readElems_of_readable h (base := Config.winBase) (i := 0)
    (len := Config.winLen) (insideWindows_win le_rfl)
  exact ⟨_, withArray_eq_next.2 ⟨xs, hxs, rfl⟩⟩

theorem completes_execBlkw {s : State} (h : Readable s) : Completes (execBlkw s) := by
  obtain ⟨⟨xs, hxs⟩, -⟩ := readSpectrum_of_readable h le_rfl
  exact completes_requireCfg ⟨_, withArray_eq_next.2 ⟨xs, hxs, rfl⟩⟩

theorem completes_execStage {s : State} (h : Readable s) (st : Nat) :
    Completes (execStage st s) := by
  rw [execStage]
  refine completes_requireCfg ?_
  split
  · exact (staysReadable_onSpectrum h _).completes
  · exact completes_next _

theorem completes_execExtract {s : State} (h : Readable s) : Completes (execExtract s) := by
  refine completes_requireCfg ?_
  exact completes_requireWindow fun hwin => (staysReadable_extractBody h hwin).completes

/-- Each body of `PIPE` leaves the next one a readable state with the window in range. -/
theorem completes_execPipe {s : State} (h : Readable s) : Completes (execPipe s) := by
  refine completes_requireCfg (completes_requireWindow fun hwin => ?_)
  have hzim : StaysReadable s (zimBody s) := staysReadable_storeArray h _ _
  have hfft := staysReadable_andThen hzim fun t ht _ => staysReadable_fftBody ht
  have hmag := staysReadable_andThen hfft fun t ht _ => staysReadable_magBody ht
  have hextract := staysReadable_andThen hmag fun t ht hw =>
    staysReadable_extractBody ht (hw.trans hwin)
  exact completes_andThen hextract fun t ht _ => completes_analyzeBody ht

theorem completes_exec {s : State} (h : Readable s) (i : Instr) : Completes (exec i s) := by
  cases i with
  | nop => exact completes_next _
  | cfg n =>
    rw [exec, execCfg]
    split <;> exact completes_next _
  | zim => exact completes_requireCfg (completes_next _)
  | blkw => exact completes_execBlkw h
  | bitrev => exact completes_requireCfg (staysReadable_onSpectrum h _).completes
  | stage st => exact completes_execStage h st
  | fft => exact completes_requireCfg (staysReadable_fftBody h).completes
  | mag => exact completes_requireCfg (staysReadable_magBody h).completes
  | extract => exact completes_execExtract h
  | analyze => exact completes_analyzeBody h
  | newses => exact completes_next _
  | pipe => exact completes_execPipe h

theorem completes_engineStep {s : State} (h : Readable s) : Completes (engineStep s) := by
  have hrun : Completes (runPending s) := by
    rw [runPending]
    split
    · exact completes_exec h _
    · exact completes_next _
  obtain ⟨t, ht⟩ := hrun
  exact ⟨_, engineStep_eq_next.2 ⟨t, ht, rfl⟩⟩

theorem memRead_of_readable {s : State} (h : Readable s) (a : Addr) :
    ∃ v t, memRead a s = .next (v, t) := by
  refine (memRead_next_or_fault a s).resolve_right ?_
  rintro ⟨hacc, hloc, hword, -⟩
  have ha := aligned_of_accessError_eq_none hacc
  rw [locate_eq_data_iff, inDataWindow_iff] at hloc
  rw [← Option.not_isSome_iff_eq_none, Memory.readWord_isSome_iff] at hword
  refine hword fun k hk => h.2 _ ?_
  rw [inDataWindow_iff]
  omega

theorem completes_hostStep {s : State} (h : Readable s) (op : HostOp) :
    Completes (hostStep op s) := by
  cases op with
  | wr a v => exact completes_next _
  | rd a =>
    obtain ⟨v, t, hr⟩ := memRead_of_readable h a
    rw [hostStep, hr]
    exact completes_next _
  | poll a m v =>
    obtain ⟨w, t, hr⟩ := memRead_of_readable h a
    rw [hostStep, hr]
    exact completes_next _
  | reset => exact completes_next _

/-- Settles O9: every command and every access is answered where all data words are written. -/
theorem writtenMemoryNeverStops : Obligations.WrittenMemoryNeverStops := by
  refine ⟨neverRefused_step, fun s hcfg hfull => ?_⟩
  have h : Readable s := ⟨hcfg, hfull⟩
  rcases step_cases s with ⟨op, rest, ts, -, -, -, hs⟩ | ⟨-, hs⟩ | ⟨-, -, hs⟩ <;> rw [hs]
  · exact completes_hostStep (s := { s with turns := ts, program := rest }) h op
  · exact completes_engineStep (s := { s with turns := s.turns.tail }) h
  · exact completes_next s

end Sys2Proof.Machine

/-! ## The register page as the host sees it (10_state R21 to R42, R56, 20_memory R64, R65) -/

namespace Sys2Proof.Machine

/-! ### Accesses to registers -/

theorem records_raise (c : Cause) (info : Word) (s : State) :
    Records c info s (raise c info s) :=
  ⟨rfl, fun h => ⟨if_pos h, if_pos h⟩, fun h => ⟨if_neg h, if_neg h⟩, rfl⟩

/-- The address of a register: the registers are declared in the order of their offsets. -/
def Reg.addr (r : Reg) : Addr := BitVec.ofNat 18 (4 * r.ctorIdx)

theorem locate_addr (r : Reg) : r.addr.toNat % 4 = 0 ∧ locate r.addr = .reg r := by
  cases r <;> exact ⟨rfl, rfl⟩

theorem memRead_addr (r : Reg) (s : State) : memRead r.addr s = .next (regRead r s, s) :=
  memRead_register s (locate_addr r).1 (locate_addr r).2

/-- A write to a register that the host may write is taken, but for `CMD` and `CARRIER_BIN` while
busy (R68). -/
theorem memWrite_addr {s : State} {r : Reg} (hr : r.writable = true)
    (hfree : s.busy = false ∨ (r ≠ .cmd ∧ r ≠ .carrierBin)) (v : Word) :
    memWrite r.addr v s = regWrite r v s := by
  obtain ⟨ha, hl⟩ := locate_addr r
  have hacc : accessError (.write v) r.addr s = none := by
    rcases hfree with hidle | ⟨hcmd, hbin⟩
    · simp [accessError, ha, hl, hr, hidle, Location.writable]
    · simp [accessError, ha, hl, hr, hcmd, hbin, busyCheck, Location.writable,
        Location.inArrayWindow]
  rw [memWrite, hacc, hl]

theorem memWrite_cmd_of_busy {s : State} (h : s.busy = true) (v : Word) :
    memWrite Reg.cmd.addr v s = raise .busy v s := by
  obtain ⟨ha, hl⟩ := locate_addr .cmd
  have hacc : accessError (.write v) Reg.cmd.addr s = some (.busy, v) := by
    simp [accessError, h, ha, hl, busyCheck, Location.writable, Location.inArrayWindow,
      Reg.writable]
  rw [memWrite, hacc]

theorem memWrite_carrierBin_of_busy {s : State} (h : s.busy = true) (v : Word) :
    memWrite Reg.carrierBin.addr v s = raise .hazard (addrInfo Reg.carrierBin.addr) s := by
  obtain ⟨ha, hl⟩ := locate_addr .carrierBin
  have hacc : accessError (.write v) Reg.carrierBin.addr s =
      some (.hazard, addrInfo Reg.carrierBin.addr) := by
    simp [accessError, h, ha, hl, Access.isWrite, Location.writable, Location.inArrayWindow,
      Reg.writable]
  rw [memWrite, hacc]

/-! ### The words of the packed registers -/

theorem getLsbD_flagAt (b : Bool) {i : Nat} (hi : i < 32) (k : Nat) :
    (flagAt b i).getLsbD k = (b && decide (i = k)) := by
  cases b with
  | false => simp [flagAt]
  | true =>
    have hbit := BitVec.getLsbD_twoPow (w := 32) i k
    rwa [decide_eq_true hi] at hbit

theorem toNat_flagAt_zero (b : Bool) : (flagAt b 0).toNat = if b then 1 else 0 := by
  cases b <;> rfl

theorem toNat_flagAt_zero_or_one (b b' : Bool) :
    (flagAt b 0 ||| flagAt b' 1).toNat = (if b then 1 else 0) + if b' then 2 else 0 := by
  cases b <;> cases b' <;> rfl

/-- VALID, RULE and DIR stand in bits that do not overlap (R34). -/
theorem toNat_resultWord (r : Results) : (resultWord r).toNat =
    256 * (if r.valid then 1 else 0) +
      4 * (match r.rule with | .a => 0 | .b => 1 | .c => 2 | .d => 3 | .e => 4) +
      (match r.dir with | .none => 0 | .pull => 1 | .push => 2) := by
  rw [resultWord]
  cases r.valid <;> cases r.rule <;> cases r.dir <;> rfl

/-! ### The statements about registers -/

theorem tableElem_zero (t : Table) (r : Roms) (i : Nat) : tableElem t r 0 i = 0 := by
  cases t <;> simp [tableElem, twcElem, twsElem, blkElem]

/-- Settles O10, register by register; without a configuration no table has an entry. -/
theorem resetLeavesTheSpecValues : Obligations.ResetLeavesTheSpecValues := by
  refine ⟨fun r => ?_, fun t i => ?_, fun _ => rfl, rfl⟩
  · cases r <;> rfl
  · exact tableElem_zero t _ i

theorem getLsbD_statusWord (s : State) (k : Nat) : (statusWord s).getLsbD k =
    (s.busy && decide (0 = k) || s.cfgValid && decide (1 = k) || s.baseInit && decide (2 = k) ||
      errAny s && decide (3 = k) || irq s && decide (4 = k)) := by
  simp only [statusWord, BitVec.getLsbD_or, getLsbD_flagAt, Nat.reduceLT]

/-- Settles O14: each flag is one bit of the word. -/
theorem statusShowsFlagsAndInterrupt : Obligations.StatusShowsFlagsAndInterrupt := by
  refine fun s => ⟨memRead_addr .status s, ?_, ?_, ?_, ?_, ?_, fun k hk => ?_⟩ <;>
    rw [getLsbD_statusWord]
  · simp
  · simp
  · simp
  · simp [errAny]
  · simp [irq, errAny]
  · have hclear : ∀ i < 5, decide (i = k) = false := fun i hi => decide_eq_false (by omega)
    simp [hclear]

/-- Settles O15: the write is `acknowledge`. -/
theorem errWriteClearsBits : Obligations.ErrWriteClearsBits := by
  refine fun s v => ⟨acknowledge v s, memWrite_addr (r := .err) rfl (.inr (by decide)) v,
    fun k hk => ?_, fun h => ⟨if_pos h, if_pos h⟩, fun h => ⟨if_neg h, if_neg h⟩, rfl⟩
  simp [hk]

/-- Settles O16: while busy check 6 of R68 refuses the write. -/
theorem cmdWriteLatchesOrIsRefused : Obligations.CmdWriteLatchesOrIsRefused := by
  refine fun s v => ⟨fun h => ?_, fun h => memWrite_addr (r := .cmd) rfl (.inl h) v,
    memRead_addr .cmd s⟩
  exact memWrite_cmd_of_busy h v ▸ records_raise _ _ s

/-- Settles O17: while busy check 5 of R68 refuses the write to `CARRIER_BIN` alone. -/
theorem hostRegisterWrites : Obligations.HostRegisterWrites := by
  refine fun s v => ⟨memWrite_addr (r := .events) rfl (.inr (by decide)) v,
    memWrite_addr (r := .irqEn) rfl (.inr (by decide)) v,
    fun h => ⟨_, memWrite_addr (r := .carrierBin) rfl (.inl h) v, BitVec.toNat_setWidth 10 v⟩,
    fun h => memWrite_carrierBin_of_busy h v ▸ records_raise _ _ s,
    _, _, _, memRead_addr .events s, memRead_addr .irqEn s, memRead_addr .carrierBin s,
    toNat_flagAt_zero _, toNat_flagAt_zero_or_one _ _, BitVec.toNat_setWidth_of_le (by norm_num)⟩

/-- Settles O31: a register reads at its offset at any time, and the fields have their own bits. -/
theorem resultRegistersReadTheirFields : Obligations.ResultRegistersReadTheirFields := by
  refine ⟨fun s => ?_, fun s => ?_, fun s => ?_⟩
  · exact ⟨memRead_addr .id s, memRead_addr .errInfo s, memRead_addr .baseLeft s,
      memRead_addr .baseRight s, memRead_addr .freq s, memRead_addr .freqQ10 s,
      memRead_addr .lband s, memRead_addr .rband s, memRead_addr .lptr s, memRead_addr .rptr s,
      memRead_addr .lstart s, memRead_addr .lend s, memRead_addr .rstart s, memRead_addr .rend s,
      memRead_addr .estBin s⟩
  · refine ⟨_, _, _, _, memRead_addr .err s, memRead_addr .errCause s, memRead_addr .n s,
      memRead_addr .log2n s, ?_, ?_, ?_, ?_⟩ <;> exact BitVec.toNat_setWidth_of_le (by norm_num)
  · exact ⟨_, _, _, _, _, _, _, _, memRead_addr .result s, memRead_addr .peaks s,
      memRead_addr .peakLo s, memRead_addr .peakHi s, memRead_addr .thrLo s,
      memRead_addr .thrHi s, memRead_addr .pthrLo s, memRead_addr .pthrHi s,
      toNat_resultWord _, toNat_flagAt_zero_or_one _ _, Memory.words_append _,
      Memory.words_append _, Memory.words_append _⟩

end Sys2Proof.Machine

/-! ## The tables (10_state R48, R49, 20_memory R58, R60, 92 D5, D6) -/

namespace Sys2Proof.Machine

/-! ### The table windows -/

/-- The first byte address of a table (R58). -/
def Table.base : Table → Nat
  | .twc => Config.twcBase
  | .tws => Config.twsBase
  | .blk => Config.blkBase

/-- The number of elements of a table (R58). -/
def Table.len : Table → Nat
  | .twc | .tws => 1024
  | .blk => 2048

/-- The byte offset of the low or the high word of element `i` (R60, R61). -/
def wordOffset (i : Nat) (high : Bool) : Nat := 8 * i + if high then 4 else 0

theorem wordOffset_spec (i : Nat) (high : Bool) :
    wordOffset i high % 4 = 0 ∧ wordOffset i high < 8 * (i + 1) := by
  cases high <;> simp [wordOffset] <;> omega

theorem tableAt_wordOffset (t : Table) (i : Nat) (high : Bool) :
    tableAt t (wordOffset i high) = .table t i high := by
  rw [tableAt, Location.table.injEq]
  cases high <;> simp [wordOffset]
  omega

/-- The table windows follow each other (R58). -/
theorem locate_table {a : Addr} {t : Table} {off : Nat} (hoff : off < 8 * t.len)
    (ha : a.toNat = t.base + off) : locate a = tableAt t off := by
  obtain ⟨htwc, htws, hblk⟩ : Config.twcBase = 0x1C000 ∧ Config.twsBase = 0x1E000 ∧
      Config.blkBase = 0x20000 := ⟨rfl, rfl, rfl⟩
  have hdata : ¬ inDataWindow a.toNat = true := by
    rw [inDataWindow_iff]
    cases t <;> simp only [Table.base] at ha <;> omega
  rw [locate, if_neg hdata]
  cases t <;> simp only [Table.base, Table.len] at ha hoff
  case twc => rw [if_pos (by omega), ha, Nat.add_sub_cancel_left]
  case tws => rw [if_neg (by omega), if_pos (by omega), ha, Nat.add_sub_cancel_left]
  case blk =>
    rw [if_neg (by omega), if_neg (by omega), if_pos (by omega), ha, Nat.add_sub_cancel_left]

/-- An idle read of a table word is answered from the ROM of the configured length. -/
theorem memRead_table {s : State} (hidle : s.busy = false) {t : Table} {i : Nat} (hi : i < t.len)
    (high : Bool) :
    memRead (BitVec.ofNat 18 (t.base + wordOffset i high)) s =
      .next ((tableElem t s.roms s.n.toNat i).extractLsb' (if high then 32 else 0) 32, s) := by
  obtain ⟨hmod, hlt⟩ := wordOffset_spec i high
  have hbase : t.base % 4 = 0 ∧ t.base + 8 * t.len < 2 ^ 18 := by cases t <;> decide
  have ha : (BitVec.ofNat 18 (t.base + wordOffset i high)).toNat = t.base + wordOffset i high := by
    rw [BitVec.toNat_ofNat, Nat.mod_eq_of_lt (by omega)]
  have hl : locate (BitVec.ofNat 18 (t.base + wordOffset i high)) = .table t i high :=
    (locate_table (by omega) ha).trans (tableAt_wordOffset t i high)
  generalize BitVec.ofNat 18 (t.base + wordOffset i high) = a at ha hl ⊢
  have hacc := accessError_read_of_idle hidle (a := a) (by omega)
    (by rw [hl]; exact Location.noConfusion)
  cases high <;> simp [memRead, hacc, hl, Memory.lowWord, Memory.highWord]

/-- Settles O29: the element under each of the two words is the table's. -/
theorem tableWindowsReadTheRoms : Obligations.TableWindowsReadTheRoms := by
  intro s i hidle
  have hn : s.n ≠ 0 ↔ s.n.toNat ≠ 0 := by
    rw [Ne, ← BitVec.toNat_inj]
    rfl
  refine ⟨fun hi => ⟨twcElem s.roms s.n.toNat i, twsElem s.roms s.n.toNat i, ?_, ?_,
    memRead_table (t := .twc) hidle hi false, memRead_table (t := .twc) hidle hi true,
    memRead_table (t := .tws) hidle hi false, memRead_table (t := .tws) hidle hi true⟩,
    fun hi => ⟨blkElem s.roms s.n.toNat i, ?_,
    memRead_table (t := .blk) hidle hi false, memRead_table (t := .blk) hidle hi true⟩⟩
  · simp only [twcElem, hn]
  · simp only [twsElem, hn]
  · simp only [blkElem, hn]

/-! ### The default contents at multiples of π/4

The default entries depend on the share of the turn alone, so each of the angles needs one
evaluation, at the shortest length that has it. -/

theorem cosQuadrant_mul {c : Nat} (hc : 0 < c) (u d : Nat) :
    cosQuadrant (c * u) (c * d) = cosQuadrant u d := by
  simp only [cosQuadrant, Nat.mul_left_comm _ c, Nat.mul_div_mul_left _ _ hc,
    Nat.mul_right_inj hc.ne']

theorem cosTurn_mul {c : Nat} (hc : 0 < c) (a b : Nat) : cosTurn (c * a) (c * b) = cosTurn a b := by
  have hlt (x y : Nat) : c * x < c * y ↔ x < y := Nat.mul_lt_mul_left hc
  simp only [cosTurn, Nat.mul_mod_mul_left, Nat.mul_left_comm _ c, ← Nat.mul_sub, hlt,
    ← apply_ite (c * ·), cosQuadrant_mul hc]

theorem defaultCos_mul {c : Nat} (hc : 0 < c) (n i : Nat) :
    defaultCos (c * n) (c * i) = defaultCos n i := by
  rw [defaultCos, defaultCos, cosTurn_mul hc]

theorem defaultSin_mul {c : Nat} (hc : 0 < c) (n i : Nat) :
    defaultSin (c * n) (c * i) = defaultSin n i := by
  rw [defaultSin, defaultSin, Nat.mul_left_comm, Nat.mul_left_comm 4 c n, ← Nat.mul_add,
    cosTurn_mul hc]

theorem defaultBlackman_mul {c : Nat} (hc : 0 < c) (d i : Nat) :
    defaultBlackman (c * d + 1) (c * i) = defaultBlackman (d + 1) i := by
  rw [defaultBlackman, defaultBlackman, Nat.add_sub_cancel, Nat.add_sub_cancel,
    Nat.mul_left_comm 2, cosTurn_mul hc, cosTurn_mul hc]

/-- The twiddle entries inside the configured length are the default's, at the same share of the
turn. -/
theorem twiddle_default_mul {c n i : Nat} (hc : 0 < c) (hi : 2 * i + 2 ≤ n) :
    twcElem Roms.default (c * n) (c * i) = defaultCos n i ∧
      twsElem Roms.default (c * n) (c * i) = defaultSin n i := by
  have hlen : c * (2 * i + 2) ≤ c * n := Nat.mul_le_mul_left c hi
  rw [Nat.mul_add, Nat.mul_left_comm] at hlen
  have hin : c * n ≠ 0 ∧ c * i < c * n / 2 := by omega
  rw [twcElem, twsElem, if_pos hin, if_pos hin]
  exact ⟨defaultCos_mul hc n i, defaultSin_mul hc n i⟩

theorem blkElem_default {n i : Nat} (hi : i < n) :
    blkElem Roms.default n i = defaultBlackman n i := by
  rw [blkElem, if_pos ⟨by omega, hi⟩]
  rfl

/-- The encodings of ±1, 0 and ±√2/2, and the ends of the window. -/
theorem default_at_exact_angles :
    (defaultCos 2 0 = 0x3FF0000000000000 ∧ defaultSin 2 0 = 0) ∧
    (defaultCos 4 1 = 0 ∧ defaultSin 4 1 = 0xBFF0000000000000) ∧
    (defaultCos 8 1 = 0x3FE6A09E667F3BCD ∧ defaultSin 8 1 = 0xBFE6A09E667F3BCD ∧
      defaultCos 8 3 = 0xBFE6A09E667F3BCD ∧ defaultSin 8 3 = 0xBFE6A09E667F3BCD) ∧
    defaultBlackman 2 0 = 0 ∧ defaultBlackman 2 1 = 0 := by decide +kernel

theorem exists_two_pow_eq_mul {j k : Nat} (h : j ≤ k) : ∃ c, 0 < c ∧ 2 ^ k = c * 2 ^ j :=
  ⟨2 ^ (k - j), by positivity, (pow_sub_mul_pow 2 h).symm⟩

/-- Settles O30: a length that has a quarter or an eighth is a multiple of 4 or 8, and its entries
there are those of that length; the ends of the window are the ends at length 2. -/
theorem defaultTablesAtExactAngles : Obligations.DefaultTablesAtExactAngles := by
  obtain ⟨⟨hcos0, hsin0⟩, ⟨hcos1, hsin1⟩, ⟨hcos2, hsin2, hcos3, hsin3⟩, hblk0, hblk1⟩ :=
    default_at_exact_angles
  intro k hk _
  obtain ⟨c, hc, hpow⟩ := exists_two_pow_eq_mul hk
  obtain ⟨htwc, htws⟩ := twiddle_default_mul (n := 2) (i := 0) hc (by norm_num)
  have hblk (i : Nat) (hi : i ≤ 1) :
      blkElem Roms.default (2 ^ k) ((2 ^ k - 1) * i) = defaultBlackman 2 i := by
    have hd := defaultBlackman_mul (c := 2 ^ k - 1) (by omega) 1 i
    rw [Nat.mul_one, Nat.sub_add_cancel (by omega)] at hd
    rw [blkElem_default, hd]
    interval_cases i <;> omega
  refine ⟨?_, ?_, fun hk => ?_, fun hk => ?_, ?_, ?_⟩
  · rw [hpow]
    exact htwc.trans hcos0
  · rw [hpow]
    exact htws.trans hsin0
  · obtain ⟨c, hc, hpow⟩ := exists_two_pow_eq_mul hk
    obtain ⟨htwc, htws⟩ := twiddle_default_mul (n := 4) (i := 1) hc (by norm_num)
    rw [hpow, show c * 2 ^ 2 / 4 = c * 1 by omega]
    exact ⟨htwc.trans hcos1, htws.trans hsin1⟩
  · obtain ⟨c, hc, hpow⟩ := exists_two_pow_eq_mul hk
    obtain ⟨htwc, htws⟩ := twiddle_default_mul (n := 8) (i := 1) hc (by norm_num)
    obtain ⟨htwc', htws'⟩ := twiddle_default_mul (n := 8) (i := 3) hc (by norm_num)
    rw [hpow, show c * 2 ^ 3 / 8 = c * 1 by omega, show 3 * (c * 2 ^ 3) / 8 = c * 3 by omega]
    exact ⟨htwc.trans hcos2, htws.trans hsin2, htwc'.trans hcos3, htws'.trans hsin3⟩
  · exact (hblk 0 (by norm_num)).trans hblk0
  · have h := (hblk 1 le_rfl).trans hblk1
    rwa [Nat.mul_one] at h

end Sys2Proof.Machine

/-! ## The host's accesses (20_memory R58 to R69, 60_exceptions R128, R130)

The first check of R68 that fails decides the error. A refused read returns 0 and a refused write is
dropped, so a statement about a refused access comes down to which check fails at its address. -/

namespace Sys2Proof.Machine

/-! ### The address map -/

/-- The register page ends at 0x00080, and nothing stands between the other windows (R66). -/
theorem locate_unmapped {a : Addr} (h : (0x00080 ≤ a.toNat ∧ a.toNat ≤ 0x0FFFF) ∨
    (0x1A218 ≤ a.toNat ∧ a.toNat ≤ 0x1BFFF) ∨ 0x24000 ≤ a.toNat) : locate a = .unmapped := by
  obtain ⟨htwc, htws, hblk⟩ : Config.twcBase = 0x1C000 ∧ Config.twsBase = 0x1E000 ∧
      Config.blkBase = 0x20000 := ⟨rfl, rfl, rfl⟩
  have hdata : ¬ inDataWindow a.toNat = true := by
    rw [inDataWindow_iff]
    omega
  have hreg : regAt (a.toNat / 4) = none :=
    List.getElem?_eq_none (show 32 ≤ a.toNat / 4 by omega)
  rw [locate, if_neg hdata, if_neg (by omega), if_neg (by omega), if_neg (by omega), hreg]

/-- The register page is the low end of the address space (R59). -/
theorem locate_register {a : Addr} {r : Reg} (h : regAt (a.toNat / 4) = some r) :
    locate a = .reg r := by
  obtain ⟨htwc, htws, hblk⟩ : Config.twcBase = 0x1C000 ∧ Config.twsBase = 0x1E000 ∧
      Config.blkBase = 0x20000 := ⟨rfl, rfl, rfl⟩
  have hlt : a.toNat / 4 < 32 := (List.getElem?_eq_some_iff.1 h).1
  have hdata : ¬ inDataWindow a.toNat = true := by
    rw [inDataWindow_iff]
    omega
  rw [locate, if_neg hdata, if_neg (by omega), if_neg (by omega), if_neg (by omega), h]

theorem locate_data {a : Addr} (hlo : 0x10000 ≤ a.toNat) (hhi : a.toNat < 0x1A218) :
    locate a = .data :=
  (locate_eq_data_iff a).2 ((inDataWindow_iff _).2 ⟨hlo, hhi⟩)

/-- The three table windows leave no gap between them (R58). -/
theorem locate_tableWindow {a : Addr} (hlo : 0x1C000 ≤ a.toNat) (hhi : a.toNat < 0x24000) :
    ∃ t i high, locate a = .table t i high := by
  obtain ⟨t, off, hoff, ha⟩ : ∃ t : Table, ∃ off, off < 8 * t.len ∧ a.toNat = t.base + off := by
    rcases Nat.lt_or_ge a.toNat 0x1E000 with htwc | htwc
    · exact ⟨.twc, a.toNat - 0x1C000, by rw [Table.len]; omega,
        by rw [Table.base, Config.twcBase]; omega⟩
    rcases Nat.lt_or_ge a.toNat 0x20000 with htws | htws
    · exact ⟨.tws, a.toNat - 0x1E000, by rw [Table.len]; omega,
        by rw [Table.base, Config.twsBase]; omega⟩
    · exact ⟨.blk, a.toNat - 0x20000, by rw [Table.len]; omega,
        by rw [Table.base, Config.blkBase]; omega⟩
  exact ⟨t, off / 8, off % 8 == 4, locate_table hoff ha⟩

/-- The registers that a host write may reach are `CMD`, `EVENTS`, `IRQ_EN`, `ERR` and `CARRIER_BIN`
(R67). -/
theorem regAt_readOnly : ∀ k < 32, 4 * k ∉ [0x004, 0x00C, 0x010, 0x014, 0x028] →
    (regAt k).map Reg.writable = some false := by decide

/-- No host write reaches the locations of R67. -/
theorem locate_readOnly {a : Addr} (ha : a.toNat % 4 = 0)
    (h : (a.toNat < 0x080 ∧ a.toNat ∉ [0x004, 0x00C, 0x010, 0x014, 0x028]) ∨
      (0x1C000 ≤ a.toNat ∧ a.toNat < 0x24000)) : (locate a).writable = false := by
  rcases h with ⟨hlt, hmem⟩ | ⟨hlo, hhi⟩
  · rw [show a.toNat = 4 * (a.toNat / 4) by omega] at hmem
    obtain ⟨r, hr, hw⟩ := Option.map_eq_some_iff.1 (regAt_readOnly _ (by omega) hmem)
    rw [locate_register hr]
    exact hw
  · obtain ⟨t, i, high, hl⟩ := locate_tableWindow hlo hhi
    rw [hl]
    rfl

/-- Data and table windows are the array windows (R58). -/
theorem locate_inArrayWindow {a : Addr} (h : (0x10000 ≤ a.toNat ∧ a.toNat < 0x1A218) ∨
    (0x1C000 ≤ a.toNat ∧ a.toNat < 0x24000)) : (locate a).inArrayWindow = true := by
  rcases h with ⟨hlo, hhi⟩ | ⟨hlo, hhi⟩
  · rw [locate_data hlo hhi]
    rfl
  · obtain ⟨t, i, high, hl⟩ := locate_tableWindow hlo hhi
    rw [hl]
    rfl

/-! ### The check that fails -/

/-- Check 1 of R68. -/
theorem accessError_of_misaligned {a : Addr} (h : a.toNat % 4 ≠ 0) (acc : Access) (s : State) :
    accessError acc a s = some (.bus, addrInfo a) := if_pos h

/-- Check 2 of R68; a misaligned address fails check 1 with the same error. -/
theorem accessError_of_unmapped {a : Addr} (h : locate a = .unmapped) (acc : Access) (s : State) :
    accessError acc a s = some (.bus, addrInfo a) := by
  simp [accessError, h]

/-- Check 3 of R68, which comes before any check of `STATUS.BUSY`. -/
theorem accessError_of_readOnly {a : Addr} (h : (locate a).writable = false) (v : Word)
    (s : State) : accessError (.write v) a s = some (.bus, addrInfo a) := by
  simp [accessError, h, Access.isWrite]

/-- Check 4 of R68. -/
theorem accessError_of_busy_array {a : Addr} {acc : Access} {s : State} (hbusy : s.busy = true)
    (ha : a.toNat % 4 = 0) (hw : (locate a).inArrayWindow = true)
    (hacc : acc.isWrite = true → (locate a).writable = true) :
    accessError acc a s = some (.hazard, addrInfo a) := by
  have hmapped : locate a ≠ .unmapped := fun h => by simp [h, Location.inArrayWindow] at hw
  have hwritable : ¬ (acc.isWrite = true ∧ (locate a).writable = false) := fun ⟨h, hro⟩ => by
    simp [hacc h] at hro
  rw [accessError, if_neg (not_not.2 ha), if_neg hmapped, if_neg hwritable, if_pos ⟨hbusy, hw⟩]

/-- No check of R68 fails at a writable word of an idle block. -/
theorem accessError_write_of_idle {a : Addr} {s : State} (hidle : s.busy = false)
    (ha : a.toNat % 4 = 0) (hw : (locate a).writable = true) (v : Word) :
    accessError (.write v) a s = none := by
  have hmapped : locate a ≠ .unmapped := fun h => by simp [h, Location.writable] at hw
  simp [accessError, ha, hmapped, hw, hidle]

/-! ### Refused accesses -/

theorem memRead_refused {a : Addr} {s : State} {c : Cause} {info : Word}
    (h : accessError .read a s = some (c, info)) :
    ∃ t, memRead a s = .next (0, t) ∧ Records c info s t :=
  ⟨raise c info s, by rw [memRead, h], records_raise c info s⟩

theorem memWrite_refused {a : Addr} {v : Word} {s : State} {c : Cause} {info : Word}
    (h : accessError (.write v) a s = some (c, info)) : Records c info s (memWrite a v s) := by
  rw [memWrite, h]
  exact records_raise c info s

/-- Settles O21: check 1 of R68 fails. -/
theorem misalignedAccessIsABusError : Obligations.MisalignedAccessIsABusError := fun s _ _ h =>
  ⟨memRead_refused (accessError_of_misaligned h _ s),
    memWrite_refused (accessError_of_misaligned h _ s)⟩

/-- Settles O22: check 2 of R68 fails. -/
theorem unmappedAccessIsABusError : Obligations.UnmappedAccessIsABusError := fun s _ _ _ h =>
  ⟨memRead_refused (accessError_of_unmapped (locate_unmapped h) _ s),
    memWrite_refused (accessError_of_unmapped (locate_unmapped h) _ s)⟩

/-- Settles O23: check 3 of R68 fails; `CMD` reads as 0. -/
theorem readOnlyWriteIsABusError : Obligations.ReadOnlyWriteIsABusError :=
  ⟨fun s _ v ha h => memWrite_refused (accessError_of_readOnly (locate_readOnly ha h) v s),
    memRead_addr .cmd⟩

/-- Settles O24: check 4 of R68 fails, for a write only where check 3 lets it through. -/
theorem arrayAccessWhileBusyIsAHazard : Obligations.ArrayAccessWhileBusyIsAHazard := by
  refine fun s a v hbusy ha => ⟨fun h => ?_, fun h => ?_⟩
  · exact memRead_refused
      (accessError_of_busy_array hbusy ha (locate_inArrayWindow h) fun hw => nomatch hw)
  · refine memWrite_refused
      (accessError_of_busy_array hbusy ha (locate_inArrayWindow (.inl h)) fun _ => ?_)
    rw [locate_data h.1 h.2]
    rfl

/-- Settles O25: a read is answered in an unchanged state, or refused. -/
theorem readsHaveNoSideEffect : Obligations.ReadsHaveNoSideEffect := by
  intro s t a v h
  rcases memRead_next h with ⟨c, info, -, hv, rfl⟩ | ⟨-, ht⟩
  · exact .inr ⟨hv, c, info, records_raise c info s⟩
  · exact .inl ht

/-! ### Accepted accesses to data words -/

/-- An idle write to a data word stores it (R64). -/
theorem memWrite_data {a : Addr} {s : State} (hidle : s.busy = false) (ha : a.toNat % 4 = 0)
    (hl : locate a = .data) (v : Word) :
    memWrite a v s = { s with mem := Memory.writeWord s.mem a.toNat v } := by
  rw [memWrite, accessError_write_of_idle hidle ha (by rw [hl]; rfl), hl]

/-- An idle read of a written data word returns it (R65). -/
theorem memRead_data {a : Addr} {s : State} {v : Word} (hidle : s.busy = false)
    (ha : a.toNat % 4 = 0) (hl : locate a = .data)
    (hv : Memory.readWord s.mem a.toNat = some v) : memRead a s = .next (v, s) := by
  have hacc := accessError_read_of_idle hidle ha (by rw [hl]; exact Location.noConfusion)
  simp only [memRead, hacc, hl, hv]

/-- Settles O26: the write stores the four bytes of its word. -/
theorem writtenWordReadsBack : Obligations.WrittenWordReadsBack := by
  intro s a v hidle ha hlo hhi
  have hl := locate_data hlo hhi
  exact ⟨_, memWrite_data hidle ha hl v,
    memRead_data hidle ha hl (Memory.readWord_writeWord_same _ _ _), rfl,
    fun b hb => Memory.getByte_writeWord_other _ _ _ _ hb⟩

/-- A word write of an idle block at a natural number address inside the data windows. -/
theorem memWrite_ofNat {s : State} (hidle : s.busy = false) {x : Nat} (hx : x % 4 = 0)
    (hlo : 0x10000 ≤ x) (hhi : x < 0x1A218) (v : Word) :
    memWrite (BitVec.ofNat 18 x) v s = { s with mem := Memory.writeWord s.mem x v } := by
  have ha : (BitVec.ofNat 18 x).toNat = x := by
    rw [BitVec.toNat_ofNat, Nat.mod_eq_of_lt (by omega)]
  rw [memWrite_data hidle (by omega) (locate_data (by omega) (by omega)), ha]

theorem Memory.readElem_writeWords (m : Memory) (base i : Nat) (lo hi : Word) :
    readElem (writeWord (writeWord m (base + 8 * i) lo) (base + 8 * i + 4) hi) base i =
      some (hi ++ lo) := by
  rw [readElem, readWord_writeWord_other _ _ _ _ (by omega), readWord_writeWord_same,
    readWord_writeWord_same]

/-- Settles O27: both words of the element lie in the data windows. -/
theorem elementIsHighAndLowWord : Obligations.ElementIsHighAndLowWord := by
  intro s base i lo hi hidle h
  have hin : InsideWindows base (i + 1) := by
    rcases h with ⟨rfl, h⟩ | ⟨rfl, h⟩ | ⟨rfl, h⟩ | ⟨rfl, h⟩
    · exact insideWindows_re h
    · exact insideWindows_im h
    · exact insideWindows_mag h
    · exact insideWindows_win h
  obtain ⟨hmod, hlo, hhi⟩ := hin
  rw [Config.reBase] at hlo
  have hlow := memWrite_ofNat hidle (x := base + 8 * i) (by omega) (by omega) (by omega) lo
  have hhigh := memWrite_ofNat (s := { s with mem := Memory.writeWord s.mem (base + 8 * i) lo })
    hidle (x := base + 8 * i + 4) (by omega) (by omega) (by omega) hi
  rw [hlow, hhigh]
  exact Memory.readElem_writeWords s.mem base i lo hi

/-! ### The host's turn -/

/-- The state in which the host's next operation takes effect: the operation, and in a busy window
the turn, are used up. -/
def afterHostTurn (rest : List HostOp) (s : State) : State :=
  { s with program := rest, turns := if s.busy then s.turns.tail else s.turns }

theorem step_of_hostMoves {s : State} {op : HostOp} {rest : List HostOp}
    (hprog : s.program = op :: rest) (h : HostMoves s) :
    step s = hostStep op (afterHostTurn rest s) := by
  obtain ⟨-, hturn⟩ := h
  rw [step, systemStep, afterHostTurn, hprog]
  cases hbusy : s.busy with
  | false => rfl
  | true =>
    obtain ⟨ts, hts⟩ := List.head?_eq_some_iff.1 (hturn.resolve_left (by simp [hbusy]))
    rw [hts]
    rfl

theorem memRead_program {a : Addr} {s t : State} {v : Word} (h : memRead a s = .next (v, t)) :
    t.program = s.program := by
  rcases memRead_next h with ⟨c, info, -, -, rfl⟩ | ⟨-, rfl⟩ <;> rfl

/-- Settles O6, operation by operation. -/
theorem stepMakesTheHostAccess : Obligations.StepMakesTheHostAccess := by
  refine ⟨fun s op rest hprog hmoves => ⟨afterHostTurn rest s, rfl, ?_⟩, fun s hidle hprog => ?_⟩
  · rw [step_of_hostMoves hprog hmoves]
    refine ⟨?_, ?_, ?_, ?_, ?_⟩
    · rintro a v rfl
      rfl
    · rintro a v t rfl hr
      rw [hostStep, hr]
    · rintro a m v w t rfl hr
      have hrest : t.program = rest := memRead_program hr
      rw [hostStep, hr, ← hrest]
    · rintro a m v (rfl | rfl) hr <;> rw [hostStep, hr]
    · rintro rfl
      rfl
  · rw [step, systemStep, hidle, hprog]
    rfl

end Sys2Proof.Machine

/-! ## Every step keeps the memory canonical (10_state R51, 20_memory R58)

A step changes the memory by storing words and arrays alone, or empties it at reset; each of these
keeps the canonical form, whatever the configuration. -/

namespace Sys2Proof.Machine

/-- Every state that the outcome goes on to has a canonical memory. -/
def KeepsCanonical (o : Result) : Prop := ∀ t, o = .next t → Memory.wf t.mem = true

theorem keepsCanonical_next {s : State} (h : Memory.wf s.mem = true) : KeepsCanonical (.next s) := by
  rintro t ⟨⟩
  exact h

theorem keepsCanonical_andThen {o : Result} {f : State → Result} (ho : KeepsCanonical o)
    (hf : ∀ u, Memory.wf u.mem = true → KeepsCanonical (f u)) : KeepsCanonical (andThen o f) := by
  intro t ht
  obtain ⟨u, hu, ht⟩ := andThen_eq_next.1 ht
  exact hf u (ho u hu) t ht

theorem keepsCanonical_requireCfg {s : State} {body : State → Result}
    (h : Memory.wf s.mem = true) (hbody : KeepsCanonical (body s)) :
    KeepsCanonical (requireCfg s body) := by
  intro t ht
  rcases requireCfg_eq_next.1 ht with ⟨-, ht⟩ | ⟨-, rfl⟩
  · exact hbody t ht
  · exact h

theorem keepsCanonical_requireWindow {s : State} {body : State → Result}
    (h : Memory.wf s.mem = true) (hbody : KeepsCanonical (body s)) :
    KeepsCanonical (requireWindow s body) := by
  intro t ht
  rcases requireWindow_eq_next.1 ht with ⟨-, ht⟩ | ⟨-, rfl⟩
  · exact hbody t ht
  · exact h

theorem keepsCanonical_withArray {base len : Nat} {s : State} {body : List F64 → Result}
    (hbody : ∀ xs, KeepsCanonical (body xs)) : KeepsCanonical (withArray base len s body) := by
  intro t ht
  obtain ⟨xs, -, ht⟩ := withArray_eq_next.1 ht
  exact hbody xs t ht

theorem keepsCanonical_storeArray {s : State} (h : Memory.wf s.mem = true) (base : Nat)
    (xs : List F64) : KeepsCanonical (.next (storeArray base xs s)) :=
  keepsCanonical_next (storeArray_wf h base xs)

theorem keepsCanonical_onSpectrum {s : State} (h : Memory.wf s.mem = true)
    (f : Channels F64 → Channels F64) : KeepsCanonical (onSpectrum f s) :=
  keepsCanonical_withArray fun _ => keepsCanonical_withArray fun _ =>
    keepsCanonical_storeArray (storeArray_wf h _ _) _ _

theorem keepsCanonical_magBody {s : State} (h : Memory.wf s.mem = true) :
    KeepsCanonical (magBody s) :=
  keepsCanonical_withArray fun _ => keepsCanonical_withArray fun _ =>
    keepsCanonical_storeArray h _ _

theorem keepsCanonical_extractBody {s : State} (h : Memory.wf s.mem = true) :
    KeepsCanonical (extractBody s) := by
  rw [extractBody]
  split
  · exact keepsCanonical_storeArray h _ _
  · exact fun _ ht => nomatch ht

theorem initBaseline_mem (s : State) : (initBaseline s).mem = s.mem := by
  rw [initBaseline]
  split <;> rfl

theorem keepsCanonical_analyzeBody {s : State} (h : Memory.wf s.mem = true) :
    KeepsCanonical (analyzeBody s) :=
  keepsCanonical_withArray fun _ => keepsCanonical_next ((initBaseline_mem s).symm ▸ h)

theorem keepsCanonical_execCfg {s : State} (h : Memory.wf s.mem = true) (n : Nat) :
    KeepsCanonical (execCfg n s) := by
  rw [execCfg]
  split <;> exact keepsCanonical_next h

theorem keepsCanonical_execBlkw {s : State} (h : Memory.wf s.mem = true) :
    KeepsCanonical (execBlkw s) :=
  keepsCanonical_requireCfg h <| keepsCanonical_withArray fun _ => keepsCanonical_storeArray h _ _

theorem keepsCanonical_execStage {s : State} (h : Memory.wf s.mem = true) (st : Nat) :
    KeepsCanonical (execStage st s) := by
  refine keepsCanonical_requireCfg h ?_
  split
  · exact keepsCanonical_onSpectrum h _
  · exact keepsCanonical_next h

theorem keepsCanonical_execExtract {s : State} (h : Memory.wf s.mem = true) :
    KeepsCanonical (execExtract s) :=
  keepsCanonical_requireCfg h <| keepsCanonical_requireWindow h <| keepsCanonical_extractBody h

theorem keepsCanonical_execPipe {s : State} (h : Memory.wf s.mem = true) :
    KeepsCanonical (execPipe s) :=
  keepsCanonical_requireCfg h <| keepsCanonical_requireWindow h <|
    keepsCanonical_andThen (keepsCanonical_andThen (keepsCanonical_andThen (keepsCanonical_andThen
      (keepsCanonical_storeArray h _ _)
      fun _ hu => keepsCanonical_onSpectrum hu _) fun _ => keepsCanonical_magBody)
      fun _ => keepsCanonical_extractBody) fun _ => keepsCanonical_analyzeBody

theorem keepsCanonical_exec {s : State} (h : Memory.wf s.mem = true) (i : Instr) :
    KeepsCanonical (exec i s) := by
  cases i with
  | nop => exact keepsCanonical_next h
  | cfg n => exact keepsCanonical_execCfg h n
  | zim => exact keepsCanonical_requireCfg h (keepsCanonical_storeArray h _ _)
  | blkw => exact keepsCanonical_execBlkw h
  | bitrev => exact keepsCanonical_requireCfg h (keepsCanonical_onSpectrum h _)
  | stage st => exact keepsCanonical_execStage h st
  | fft => exact keepsCanonical_requireCfg h (keepsCanonical_onSpectrum h _)
  | mag => exact keepsCanonical_requireCfg h (keepsCanonical_magBody h)
  | extract => exact keepsCanonical_execExtract h
  | analyze => exact keepsCanonical_analyzeBody h
  | newses => exact keepsCanonical_next h
  | pipe => exact keepsCanonical_execPipe h

theorem keepsCanonical_engineStep {s : State} (h : Memory.wf s.mem = true) :
    KeepsCanonical (engineStep s) := by
  intro t ht
  obtain ⟨u, hu, rfl⟩ := engineStep_eq_next.1 ht
  rcases runPending_eq_next.1 hu with ⟨i, -, hi⟩ | ⟨-, -, rfl⟩
  · exact keepsCanonical_exec h i u hi
  · exact h

theorem regWrite_mem (r : Reg) (v : Word) (s : State) : (regWrite r v s).mem = s.mem := by
  cases r <;> rfl

theorem wf_memWrite {s : State} (h : Memory.wf s.mem = true) (a : Addr) (v : Word) :
    Memory.wf (memWrite a v s).mem = true := by
  rcases memWrite_cases a v s with ⟨c, info, -, hw⟩ | ⟨r, -, hw⟩ | ⟨-, hw⟩ | hw <;> rw [hw]
  · exact h
  · rwa [regWrite_mem]
  · exact Memory.wf_writeWord h _ _
  · exact h

theorem memRead_mem {a : Addr} {s t : State} {v : Word} (h : memRead a s = .next (v, t)) :
    t.mem = s.mem := by
  rcases memRead_next h with ⟨c, info, -, -, rfl⟩ | ⟨-, rfl⟩ <;> rfl

theorem keepsCanonical_hostStep {s : State} (h : Memory.wf s.mem = true) (op : HostOp) :
    KeepsCanonical (hostStep op s) := by
  intro t ht
  rcases hostStep_next ht with ⟨a, v, -, rfl⟩ | ⟨a, v, u, -, hr, rfl⟩ |
    ⟨a, m, v, w, u, -, hr, rfl⟩ | ⟨-, rfl⟩
  · exact wf_memWrite h a v
  · exact (memRead_mem hr).symm ▸ h
  · split <;> exact (memRead_mem hr).symm ▸ h
  · exact Memory.wf_reset

/-- Settles O13: each access and each command keeps the canonical form. -/
theorem everyStepKeepsMemoryCanonical : Obligations.EveryStepKeepsMemoryCanonical := by
  intro s t h ht
  rcases step_cases s with ⟨op, rest, ts, -, -, -, hs⟩ | ⟨-, hs⟩ | ⟨-, -, hs⟩ <;> rw [hs] at ht
  · exact keepsCanonical_hostStep (s := { s with turns := ts, program := rest }) h op t ht
  · exact keepsCanonical_engineStep (s := { s with turns := s.turns.tail }) h t ht
  · exact keepsCanonical_next h t ht

end Sys2Proof.Machine

/-! ## Command words (30_encoding R77 to R81, R84)

A word decodes to a command exactly when its two fields are the command's opcode and argument, and
a command is the word that its two fields make; both round trips are these two facts put together. -/

namespace Sys2Proof

/-! ### The fields of a word -/

theorem toNat_opField (w : Word) : (opField w).toNat = (w >>> 24).toNat := by
  rw [opField, BitVec.extractLsb'_toNat, BitVec.toNat_ushiftRight, Nat.mod_eq_of_lt]
  have hw := w.isLt
  rw [Nat.shiftRight_eq_div_pow]
  omega

theorem toNat_argField (w : Word) : (argField w).toNat = w.toNat % 2 ^ 24 := by
  rw [argField, BitVec.extractLsb'_toNat, Nat.shiftRight_zero]

theorem opField_append_argField (w : Word) : opField w ++ argField w = w :=
  BitVec.extractLsb'_append_extractLsb'_eq_extractLsb' rfl |>.trans BitVec.extractLsb'_eq_self

/-! ### Well-formed commands -/

theorem wellFormed_iff (i : Instr) : i.wellFormed = true ↔ i.arg < 2 ^ 24 := by
  cases i <;> simp [Instr.wellFormed, Instr.arg]

theorem encode_eq_of_fields {w : Word} {i : Instr} (hop : opField w = i.opcode)
    (harg : (argField w).toNat = i.arg) : encode i = w := by
  rw [encode, ← hop, ← harg, BitVec.ofNat_toNat, BitVec.setWidth_eq, opField_append_argField]

/-! ### The decoder -/

theorem withoutArg_eq_ok_iff {i j : Instr} {w : Word} :
    withoutArg j w = .ok i ↔ (argField w).toNat = 0 ∧ j = i := by
  by_cases h : (argField w).toNat = 0 <;> simp [withoutArg, BitVec.toNat_eq, h]

theorem exists_withoutArg_eq_error_iff {j : Instr} {w : Word} :
    (∃ r, withoutArg j w = .error r) ↔ (argField w).toNat ≠ 0 := by
  by_cases h : (argField w).toNat = 0 <;> simp [withoutArg, BitVec.toNat_eq, h]

/-- A command without an operand is read from its own opcode and the argument 0 (R78). -/
theorem fields_of_withoutArg {w : Word} {i j : Instr} (hop : (opField w).toNat = j.opcode.toNat)
    (hj : j.arg = 0) (h : withoutArg j w = .ok i) :
    opField w = i.opcode ∧ (argField w).toNat = i.arg := by
  obtain ⟨harg, rfl⟩ := withoutArg_eq_ok_iff.1 h
  exact ⟨BitVec.eq_of_toNat_eq hop, harg.trans hj.symm⟩

/-- A word that decodes carries the opcode and the argument of its command (R77 to R79). -/
theorem fields_of_decode {w : Word} {i : Instr} (h : decode w = .ok i) :
    opField w = i.opcode ∧ (argField w).toNat = i.arg := by
  rw [decode] at h
  split at h
  -- Cases 2 and 6 are the opcodes of `CFG` and `STAGE`, case 13 the opcodes without a command.
  case h_2 hop =>
    cases h
    exact ⟨BitVec.eq_of_toNat_eq hop, rfl⟩
  case h_6 hop =>
    cases h
    exact ⟨BitVec.eq_of_toNat_eq hop, rfl⟩
  case h_13 => cases h
  all_goals exact fields_of_withoutArg ‹_› rfl h

/-- The opcode and the argument of a command decode to it (R77 to R79). -/
theorem decode_of_fields {w : Word} {i : Instr} (hop : opField w = i.opcode)
    (harg : (argField w).toNat = i.arg) : decode w = .ok i := by
  rw [decode, hop]
  cases i
  case cfg n => exact congrArg (fun k => Except.ok (Instr.cfg k)) harg
  case stage st => exact congrArg (fun k => Except.ok (Instr.stage k)) harg
  all_goals exact withoutArg_eq_ok_iff.2 ⟨harg, rfl⟩

/-- The decoder rejects the opcodes without a command, and an argument where the command of the
opcode has none (R81). -/
theorem exists_decode_eq_error_iff {w : Word} :
    (∃ r, decode w = .error r) ↔
      0x0C ≤ (opField w).toNat ∨
        ((opField w).toNat ≠ 0x01 ∧ (opField w).toNat ≠ 0x05 ∧ (argField w).toNat ≠ 0) := by
  rw [decode]
  split
  case h_2 hop => simp [hop]
  case h_6 hop => simp [hop]
  case h_13 =>
    simp only [imp_false] at *
    exact iff_of_true ⟨_, rfl⟩ (.inl (by omega))
  all_goals next hop => simp [exists_withoutArg_eq_error_iff, hop]

/-- Settles O1: the two fields of a command's word are its opcode and, since the operand fits, its
argument. -/
theorem decodeOfEncodeIsTheCommand : Obligations.DecodeOfEncodeIsTheCommand := by
  intro i hwf
  obtain ⟨hop, harg⟩ := Laws.EncodingMatchesTable.fields_of_append i
  refine decode_of_fields hop ?_
  rw [harg, BitVec.toNat_ofNat, Nat.mod_eq_of_lt ((wellFormed_iff i).1 hwf)]

/-- Settles O2: the argument is the 24-bit field, and the two fields make the word. -/
theorem encodeOfDecodeIsTheWord : Obligations.EncodeOfDecodeIsTheWord := by
  intro w i h
  obtain ⟨hop, harg⟩ := fields_of_decode h
  refine ⟨(wellFormed_iff i).2 ?_, encode_eq_of_fields hop harg⟩
  rw [← harg]
  exact (argField w).isLt

/-- Settles O3: the legal words are the encodings of their commands; the other two have an opcode
without a command, and an argument for `FFT`. -/
theorem specWordsDecode : Obligations.SpecWordsDecode :=
  have h := decodeOfEncodeIsTheCommand
  ⟨h .nop rfl, h (.cfg 2048) rfl, h (.cfg 8) rfl, h (.stage 3) rfl, h .fft rfl, h .extract rfl,
    h .analyze rfl, h .pipe rfl, rfl, rfl⟩

end Sys2Proof

/-! ## The engine step (30_encoding R81, R82, 20_memory R71) -/

namespace Sys2Proof.Machine

/-! ### What the engine step runs -/

theorem step_of_engineMoves {s : State} (h : EngineMoves s) :
    step s = engineStep { s with turns := s.turns.tail } := by
  obtain ⟨hbusy, hturn⟩ := h
  rcases step_cases s with ⟨op, rest, ts, hprog, hts, -, -⟩ | ⟨-, hs⟩ | ⟨hidle, -, -⟩
  · rw [hprog, hts hbusy] at hturn
    simp at hturn
  · exact hs
  · rw [hidle] at hbusy
    cases hbusy

theorem runPending_of_decode_ok {s : State} {i : Instr} (h : decode s.pending = .ok i) :
    runPending s = exec i s := by
  rw [runPending, h]

theorem runPending_of_decode_error {s : State} {r : Reject} (h : decode s.pending = .error r) :
    runPending s = .next (raise .illegal s.pending s) := by
  rw [runPending, h, reject]

/-- Settles O4: the decoder's rejections in terms of the word, and an engine step that only records
the error and completes. -/
theorem illegalWordsAreRejected : Obligations.IllegalWordsAreRejected := by
  refine ⟨fun w => ?_, fun s r hmoves hdecode => ⟨_, records_raise .illegal s.pending _, ?_⟩⟩
  · rw [exists_decode_eq_error_iff, toNat_opField, toNat_argField]
  · rw [step_of_engineMoves hmoves, engineStep,
      runPending_of_decode_error (s := { s with turns := s.turns.tail }) hdecode]
    rfl

/-- Settles O5: the decoded command is what the engine step runs before it completes. -/
theorem stepRunsTheDecodedCommand : Obligations.StepRunsTheDecodedCommand := by
  intro s i hmoves hdecode
  rw [step_of_engineMoves hmoves, engineStep,
    runPending_of_decode_ok (s := { s with turns := s.turns.tail }) hdecode]
  rfl

theorem exec_of_not_valid {s : State} {i : Instr} (hcfg : s.cfgValid = false)
    (hi : i ∈ [Instr.zim, .blkw, .bitrev, .fft, .mag, .extract, .pipe] ∨ ∃ st, i = .stage st) :
    exec i s = .next (raise .nocfg s.pending s) := by
  rcases hi with hi | ⟨st, rfl⟩
  · fin_cases hi <;> simp only [exec, execZim, execBlkw, execBitrev, execFft, execMag, execExtract,
      execPipe, requireCfg_of_not_valid hcfg]
  · rw [exec, execStage, requireCfg_of_not_valid hcfg]

/-- Settles O18: each of the commands begins with the check of the configuration. -/
theorem commandsWithoutConfigurationAreRejected :
    Obligations.CommandsWithoutConfigurationAreRejected := by
  intro s i hcfg hi
  exact ⟨_, exec_of_not_valid hcfg hi, records_raise .nocfg s.pending s⟩

/-! ### What a command can write

Every command changes the state by the five updates of `EngineWrite` alone, whatever it computes. -/

/-- One update of the state that a command makes. -/
inductive EngineWrite (s : State) : State → Prop where
  /-- An error is recorded (60_exceptions R130). -/
  | error (c : Cause) (info : Word) : EngineWrite s (raise c info s)
  /-- Elements of an array are stored (20_memory R76). -/
  | array (base : Nat) (xs : List F64) : EngineWrite s (storeArray base xs s)
  /-- The configuration is set or cleared (40_transform R89). -/
  | config (n : BitVec 13) (log2n : BitVec 4) (valid : Bool) :
      EngineWrite s { s with n := n, log2n := log2n, cfgValid := valid }
  /-- The Baseline State is set or cleared (42_band_analyzer R109, R115). -/
  | baseline (init : Bool) (left right : Word) :
      EngineWrite s { s with baseInit := init, baseLeft := left, baseRight := right }
  /-- The results of an analysis are published (42_band_analyzer R113). -/
  | results (r : Results) : EngineWrite s { s with results := r }

/-- The state `t` comes from `s` by updates that a command makes. -/
abbrev EngineWrites : State → State → Prop := Relation.ReflTransGen EngineWrite

/-- Every state that the outcome goes on to comes from `s` by updates that a command makes. -/
def OnlyWrites (s : State) (o : Result) : Prop := ∀ t, o = .next t → EngineWrites s t

theorem onlyWrites_next {s t : State} (h : EngineWrites s t) : OnlyWrites s (.next t) := by
  rintro _ ⟨⟩
  exact h

theorem onlyWrites_andThen {s : State} {o : Result} {f : State → Result} (ho : OnlyWrites s o)
    (hf : ∀ u, EngineWrites s u → OnlyWrites s (f u)) : OnlyWrites s (andThen o f) := by
  intro t ht
  obtain ⟨u, hu, ht⟩ := andThen_eq_next.1 ht
  exact hf u (ho u hu) t ht

theorem onlyWrites_requireCfg {s u : State} {body : State → Result} (h : EngineWrites s u)
    (hbody : OnlyWrites s (body u)) : OnlyWrites s (requireCfg u body) := by
  intro t ht
  rcases requireCfg_eq_next.1 ht with ⟨-, ht⟩ | ⟨-, rfl⟩
  · exact hbody t ht
  · exact h.tail (.error _ _)

theorem onlyWrites_requireWindow {s u : State} {body : State → Result} (h : EngineWrites s u)
    (hbody : OnlyWrites s (body u)) : OnlyWrites s (requireWindow u body) := by
  intro t ht
  rcases requireWindow_eq_next.1 ht with ⟨-, ht⟩ | ⟨-, rfl⟩
  · exact hbody t ht
  · exact h.tail (.error _ _)

theorem onlyWrites_withArray {base len : Nat} {s u : State} {body : List F64 → Result}
    (hbody : ∀ xs, OnlyWrites s (body xs)) : OnlyWrites s (withArray base len u body) := by
  intro t ht
  obtain ⟨xs, -, ht⟩ := withArray_eq_next.1 ht
  exact hbody xs t ht

theorem onlyWrites_storeArray {s u : State} (h : EngineWrites s u) (base : Nat) (xs : List F64) :
    OnlyWrites s (.next (storeArray base xs u)) :=
  onlyWrites_next (h.tail (.array base xs))

theorem onlyWrites_onSpectrum {s u : State} (h : EngineWrites s u)
    (f : Channels F64 → Channels F64) : OnlyWrites s (onSpectrum f u) :=
  onlyWrites_withArray fun _ => onlyWrites_withArray fun _ =>
    onlyWrites_storeArray (h.tail (.array _ _)) _ _

theorem onlyWrites_magBody {s u : State} (h : EngineWrites s u) : OnlyWrites s (magBody u) :=
  onlyWrites_withArray fun _ => onlyWrites_withArray fun _ => onlyWrites_storeArray h _ _

theorem onlyWrites_extractBody {s u : State} (h : EngineWrites s u) :
    OnlyWrites s (extractBody u) := by
  rw [extractBody]
  split
  · exact onlyWrites_storeArray h _ _
  · exact fun _ ht => nomatch ht

theorem engineWrites_initBaseline {s u : State} (h : EngineWrites s u) :
    EngineWrites s (initBaseline u) := by
  rw [initBaseline]
  split
  · exact h
  · exact h.tail (.baseline _ _ _)

theorem onlyWrites_analyzeBody {s u : State} (h : EngineWrites s u) :
    OnlyWrites s (analyzeBody u) :=
  onlyWrites_withArray fun _ => onlyWrites_next ((engineWrites_initBaseline h).tail (.results _))

theorem onlyWrites_execCfg (n : Nat) (s : State) : OnlyWrites s (execCfg n s) := by
  rw [execCfg]
  split
  · exact onlyWrites_next (.single (.config _ _ _))
  · exact onlyWrites_next (.tail (.single (.config 0 0 false)) (.error _ _))

theorem onlyWrites_execBlkw (s : State) : OnlyWrites s (execBlkw s) :=
  onlyWrites_requireCfg .refl <| onlyWrites_withArray fun _ => onlyWrites_storeArray .refl _ _

theorem onlyWrites_execStage (st : Nat) (s : State) : OnlyWrites s (execStage st s) := by
  refine onlyWrites_requireCfg .refl ?_
  split
  · exact onlyWrites_onSpectrum .refl _
  · exact onlyWrites_next (.single (.error _ _))

theorem onlyWrites_execExtract (s : State) : OnlyWrites s (execExtract s) :=
  onlyWrites_requireCfg .refl <| onlyWrites_requireWindow .refl <| onlyWrites_extractBody .refl

theorem onlyWrites_execPipe (s : State) : OnlyWrites s (execPipe s) :=
  onlyWrites_requireCfg .refl <| onlyWrites_requireWindow .refl <|
    onlyWrites_andThen (onlyWrites_andThen (onlyWrites_andThen (onlyWrites_andThen
      (onlyWrites_storeArray .refl _ _)
      fun _ hu => onlyWrites_onSpectrum hu _) fun _ => onlyWrites_magBody)
      fun _ => onlyWrites_extractBody) fun _ => onlyWrites_analyzeBody

theorem onlyWrites_exec (i : Instr) (s : State) : OnlyWrites s (exec i s) := by
  cases i with
  | nop => exact onlyWrites_next .refl
  | cfg n => exact onlyWrites_execCfg n s
  | zim => exact onlyWrites_requireCfg .refl (onlyWrites_storeArray .refl _ _)
  | blkw => exact onlyWrites_execBlkw s
  | bitrev => exact onlyWrites_requireCfg .refl (onlyWrites_onSpectrum .refl _)
  | stage st => exact onlyWrites_execStage st s
  | fft => exact onlyWrites_requireCfg .refl (onlyWrites_onSpectrum .refl _)
  | mag => exact onlyWrites_requireCfg .refl (onlyWrites_magBody .refl)
  | extract => exact onlyWrites_execExtract s
  | analyze => exact onlyWrites_analyzeBody .refl
  | newses => exact onlyWrites_next (.single (.baseline _ _ _))
  | pipe => exact onlyWrites_execPipe s

theorem onlyWrites_runPending (s : State) : OnlyWrites s (runPending s) := by
  intro t ht
  rcases runPending_eq_next.1 ht with ⟨i, -, hi⟩ | ⟨-, -, rfl⟩
  · exact onlyWrites_exec i s t hi
  · exact .single (.error _ _)

/-! ### What no command writes -/

/-- What the host alone writes, the ROMs, and the host's own side. -/
def hostOwned (s : State) :
    Bool × Bool × BitVec 10 × Roms × List HostOp × List Agent × List Word :=
  (s.doneIe, s.errIe, s.carrierBin, s.roms, s.program, s.turns, s.reads)

theorem hostOwned_of_engineWrites {s t : State} (h : EngineWrites s t) :
    hostOwned t = hostOwned s := by
  induction h with
  | refl => rfl
  | tail _ hw ih =>
    rw [← ih]
    cases hw <;> rfl

/-- `ERR` bits are sticky under the engine: each update keeps them or sets one more (R130). -/
theorem err_and_of_engineWrites {s t : State} (h : EngineWrites s t) : s.err &&& t.err = s.err := by
  induction h with
  | refl => exact BitVec.and_self
  | @tail u v _ hw ih =>
    have hkept : u.err &&& v.err = u.err := by
      cases hw with
      | error c info =>
        refine BitVec.eq_of_getLsbD_eq fun k _ => ?_
        rw [raise_err, BitVec.getLsbD_and, BitVec.getLsbD_or]
        exact inf_sup_self
      | array | config | baseline | results => exact BitVec.and_self
    calc s.err &&& v.err
      _ = s.err &&& (u.err &&& v.err) := by rw [← BitVec.and_assoc, ih]
      _ = s.err := by rw [hkept, ih]

/-- Settles O7: a completed command has made its own updates alone, in the state with one turn
used up. -/
theorem engineStepCompletesAndSparesHostRegisters :
    Obligations.EngineStepCompletesAndSparesHostRegisters := by
  intro s t hmoves ht
  rw [step_of_engineMoves hmoves] at ht
  obtain ⟨u, hu, rfl⟩ := engineStep_eq_next.1 ht
  have hwrites := onlyWrites_runPending _ u hu
  have howned := hostOwned_of_engineWrites hwrites
  have herr := err_and_of_engineWrites hwrites
  simp only [hostOwned, Prod.mk.injEq] at howned
  exact ⟨rfl, rfl, herr, howned⟩

end Sys2Proof.Machine

/-! ## Arrays and spectra as values (10_state R44, R45, R51, 20_memory R61, R76)

A memory that reads as a list of elements has that list's bytes there, so what a command stores and
what it leaves alone determine its memory. -/

namespace Sys2Proof.Machine.Memory

/-! ### The bytes under an element -/

theorem append_eq_append_iff {v w : Nat} {x x' : BitVec v} {y y' : BitVec w} :
    x ++ y = x' ++ y' ↔ x = x' ∧ y = y' := by
  refine ⟨fun h => ⟨?_, ?_⟩, fun ⟨hx, hy⟩ => by rw [hx, hy]⟩
  · simpa only [BitVec.extractLsb'_append_eq_left] using congrArg (BitVec.extractLsb' w v) h
  · simpa only [BitVec.extractLsb'_append_eq_right] using congrArg (BitVec.extractLsb' 0 w) h

theorem readWord_eq_some_iff {m : Memory} {a : Nat} {v : Word} : readWord m a = some v ↔
    ∃ b0 b1 b2 b3, getByte m a = some b0 ∧ getByte m (a + 1) = some b1 ∧
      getByte m (a + 2) = some b2 ∧ getByte m (a + 3) = some b3 ∧ b3 ++ b2 ++ b1 ++ b0 = v := by
  rw [readWord]
  split
  · simp [*]
  · next hnone =>
    exact ⟨nofun, fun ⟨_, _, _, _, h0, h1, h2, h3, _⟩ => (hnone _ _ _ _ h0 h1 h2 h3).elim⟩

theorem getByte_eq_of_readWord {m m' : Memory} {a : Nat} {v : Word} (h : readWord m a = some v)
    (h' : readWord m' a = some v) {k : Nat} (hk : k < 4) :
    getByte m (a + k) = getByte m' (a + k) := by
  obtain ⟨b0, b1, b2, b3, h0, h1, h2, h3, hv⟩ := readWord_eq_some_iff.1 h
  obtain ⟨c0, c1, c2, c3, h0', h1', h2', h3', hv'⟩ := readWord_eq_some_iff.1 h'
  obtain ⟨⟨⟨rfl, rfl⟩, rfl⟩, rfl⟩ : ((b3 = c3 ∧ b2 = c2) ∧ b1 = c1) ∧ b0 = c0 := by
    simpa only [append_eq_append_iff] using hv.trans hv'.symm
  interval_cases k
  · exact h0.trans h0'.symm
  · exact h1.trans h1'.symm
  · exact h2.trans h2'.symm
  · exact h3.trans h3'.symm

theorem readElem_eq_some_iff {m : Memory} {base i : Nat} {x : F64} : readElem m base i = some x ↔
    readWord m (base + 8 * i) = some (lowWord x) ∧
      readWord m (base + 8 * i + 4) = some (highWord x) := by
  constructor
  · intro h
    rw [readElem] at h
    split at h
    · next lo hi hlo hhi =>
      cases h
      rw [lowWord_append, highWord_append]
      exact ⟨hlo, hhi⟩
    · cases h
  · rintro ⟨hlo, hhi⟩
    simp only [readElem, hlo, hhi]
    exact congrArg some (words_append x)

theorem getByte_eq_of_readElem {m m' : Memory} {base i : Nat} {x : F64}
    (h : readElem m base i = some x) (h' : readElem m' base i = some x) {k : Nat} (hk : k < 8) :
    getByte m (base + 8 * i + k) = getByte m' (base + 8 * i + k) := by
  obtain ⟨hlo, hhi⟩ := readElem_eq_some_iff.1 h
  obtain ⟨hlo', hhi'⟩ := readElem_eq_some_iff.1 h'
  rcases Nat.lt_or_ge k 4 with hk4 | hk4
  · exact getByte_eq_of_readWord hlo hlo' hk4
  · have := getByte_eq_of_readWord hhi hhi' (k := k - 4) (by omega)
    rwa [show base + 8 * i + 4 + (k - 4) = base + 8 * i + k by omega] at this

/-! ### The elements of a run -/

theorem readElem_of_readElems {m : Memory} {base len : Nat} {xs : List F64}
    (h : readElems m base 0 len = some xs) (z : F64) {i : Nat} (hi : i < len) :
    readElem m base i = some (elemAt z xs i) := by
  obtain ⟨hlen, hread⟩ := (readElems_eq_some _ _ _ _ _).1 h
  have := hread i (by omega)
  rwa [Nat.zero_add, ← List.getD_eq_getElem _ z] at this

theorem getByte_eq_of_readElems {m m' : Memory} {base len : Nat} {xs : List F64}
    (h : readElems m base 0 len = some xs) (h' : readElems m' base 0 len = some xs) {a : Nat}
    (hlo : base ≤ a) (hhi : a < base + 8 * len) : getByte m a = getByte m' a := by
  have hi : (a - base) / 8 < len := by omega
  have := getByte_eq_of_readElem (readElem_of_readElems h 0 hi) (readElem_of_readElems h' 0 hi)
    (k := (a - base) % 8) (by omega)
  rwa [show base + 8 * ((a - base) / 8) + (a - base) % 8 = a by omega] at this

theorem readElems_writeElems_same (m : Memory) (base : Nat) (xs : List F64) :
    readElems (writeElems m base 0 xs) base 0 xs.length = some xs :=
  (readElems_eq_some _ _ _ _ _).2 ⟨rfl, fun j hj => readElem_writeElems m base 0 j xs hj⟩

theorem readElems_writeElems_other {m : Memory} {base len : Nat} {ys : List F64}
    (h : readElems m base 0 len = some ys) {base' : Nat} {xs : List F64}
    (hd : base + 8 * len ≤ base' ∨ base' + 8 * xs.length ≤ base) :
    readElems (writeElems m base' 0 xs) base 0 len = some ys := by
  rw [readElems_eq_some] at h ⊢
  refine h.imp_right fun hread j hj => ?_
  rw [readElem_writeElems_other _ _ _ _ _ _ (by omega)]
  exact hread j hj

end Sys2Proof.Machine.Memory

namespace Sys2Proof.Machine

/-! ### The spectrum -/

/-- A command that stores one array changes no byte outside it. -/
theorem sameOutside_storeArray {base n : Nat} {xs : List F64} (h : xs.length = n) (s : State) :
    SameOutside s (storeArray base xs s) base n := fun a ha =>
  Memory.getByte_writeElems_other _ _ _ _ _ (by omega)

/-- The first `n` elements of RE and of IM read as the two channels. -/
def HoldsSpectrum (s : State) (n : Nat) (x : Channels F64) : Prop :=
  Memory.readElems s.mem Config.reBase 0 n = some x.re ∧
    Memory.readElems s.mem Config.imBase 0 n = some x.im

/-- The state with the two channels stored in RE and IM. -/
def storeSpectrum (x : Channels F64) (s : State) : State :=
  storeArray Config.imBase x.im (storeArray Config.reBase x.re s)

theorem exists_holdsSpectrum {s : State} {n : Nat} (hre : Written s Config.reBase 0 n)
    (him : Written s Config.imBase 0 n) : ∃ x, HoldsSpectrum s n x := by
  obtain ⟨re, hre, -⟩ := readElems_of_written hre
  obtain ⟨im, him, -⟩ := readElems_of_written him
  exact ⟨⟨re, im⟩, hre, him⟩

theorem HoldsSpectrum.hasLength {s : State} {n : Nat} {x : Channels F64}
    (h : HoldsSpectrum s n x) : x.HasLength n :=
  ⟨length_of_readElems h.1, length_of_readElems h.2⟩

/-- A command on the spectrum stores its function of what the spectrum holds. -/
theorem onSpectrum_of_holds {s : State} {x : Channels F64} (h : HoldsSpectrum s s.n.toNat x)
    (f : Channels F64 → Channels F64) : onSpectrum f s = .next (storeSpectrum (f x) s) :=
  onSpectrum_eq_next.2 ⟨x.re, x.im, h.1, h.2, rfl⟩

theorem holdsSpectrum_storeSpectrum {n : Nat} (hn : n ≤ 2048) {x : Channels F64}
    (h : x.HasLength n) (s : State) : HoldsSpectrum (storeSpectrum x s) n x := by
  obtain ⟨hre, him⟩ := h
  subst hre
  have hd : Config.reBase + 8 * x.re.length ≤ Config.imBase := by
    rw [Config.reBase, Config.imBase]
    omega
  exact ⟨Memory.readElems_writeElems_other (Memory.readElems_writeElems_same _ _ _) (.inl hd),
    him ▸ Memory.readElems_writeElems_same _ _ _⟩

theorem sameOutsideSpectrum_storeSpectrum {n : Nat} {x : Channels F64} (h : x.HasLength n)
    (s : State) : SameOutsideSpectrum s (storeSpectrum x s) n := fun a hre him =>
  (sameOutside_storeArray h.2 _ a him).trans (sameOutside_storeArray h.1 s a hre)

theorem storeSpectrum_wf {s : State} (h : Memory.wf s.mem = true) (x : Channels F64) :
    Memory.wf (storeSpectrum x s).mem = true :=
  storeArray_wf (storeArray_wf h _ _) _ _

/-- What the spectrum holds, and what is outside it, is all of a state but for its registers. -/
theorem eq_of_holdsSpectrum {s t : State} {n : Nat} {x : Channels F64}
    (hs : Memory.wf s.mem = true) (ht : Memory.wf t.mem = true) (hxs : HoldsSpectrum s n x)
    (hxt : HoldsSpectrum t n x) (hout : SameOutsideSpectrum s t n) (hreg : SameButMemory s t) :
    t = s := by
  have hmem : t.mem = s.mem := by
    refine Memory.ext_of_wf ht hs fun a => ?_
    by_cases hre : a < Config.reBase ∨ Config.reBase + 8 * n ≤ a
    · by_cases him : a < Config.imBase ∨ Config.imBase + 8 * n ≤ a
      · exact hout a hre him
      · exact Memory.getByte_eq_of_readElems hxt.2 hxs.2 (by omega) (by omega)
    · exact Memory.getByte_eq_of_readElems hxt.1 hxs.1 (by omega) (by omega)
  rw [hreg, hmem]

/-- A second store of a spectrum hides the first. -/
theorem storeSpectrum_storeSpectrum {s : State} (hs : Memory.wf s.mem = true) {n : Nat}
    (hn : n ≤ 2048) {x y : Channels F64} (hx : x.HasLength n) (hy : y.HasLength n) :
    storeSpectrum y (storeSpectrum x s) = storeSpectrum y s := by
  refine eq_of_holdsSpectrum (storeSpectrum_wf hs y) (storeSpectrum_wf (storeSpectrum_wf hs x) y)
    (holdsSpectrum_storeSpectrum hn hy s) (holdsSpectrum_storeSpectrum hn hy _) ?_ rfl
  intro a hre him
  calc Memory.getByte (storeSpectrum y (storeSpectrum x s)).mem a
    _ = Memory.getByte (storeSpectrum x s).mem a :=
        sameOutsideSpectrum_storeSpectrum hy _ a hre him
    _ = Memory.getByte s.mem a := sameOutsideSpectrum_storeSpectrum hx s a hre him
    _ = Memory.getByte (storeSpectrum y s).mem a :=
        (sameOutsideSpectrum_storeSpectrum hy s a hre him).symm

/-- Storing what the spectrum holds changes nothing. -/
theorem storeSpectrum_self {s : State} (hs : Memory.wf s.mem = true) {n : Nat} (hn : n ≤ 2048)
    {x : Channels F64} (hx : HoldsSpectrum s n x) : storeSpectrum x s = s :=
  eq_of_holdsSpectrum hs (storeSpectrum_wf hs x) hx
    (holdsSpectrum_storeSpectrum hn hx.hasLength s)
    (sameOutsideSpectrum_storeSpectrum hx.hasLength s) rfl

end Sys2Proof.Machine

/-! ## `CFG`, `ZIM` and `BLKW` (40_transform R88 to R91) -/

namespace Sys2Proof.Machine

/-! ### The accepted lengths -/

theorem pow2ok_iff (n : Nat) : pow2ok n = true ↔ ∃ k, 1 ≤ k ∧ k ≤ 11 ∧ n = 2 ^ k := by
  rw [pow2ok, Bool.and_eq_true, Bool.and_eq_true, decide_eq_true_eq, decide_eq_true_eq, beq_iff_eq,
    Config.nMax]
  constructor
  · rintro ⟨⟨hlo, hhi⟩, hpow⟩
    have hlog : Nat.log2 n < 12 := (Nat.log2_lt (by omega)).2 (hhi.trans_lt (by norm_num))
    exact ⟨Nat.log2 n, (Nat.le_log2 (by omega)).2 hlo, by omega, hpow⟩
  · rintro ⟨k, h1, h11, rfl⟩
    rw [Nat.log2_two_pow]
    exact ⟨⟨Nat.pow_le_pow_right two_pos h1, Nat.pow_le_pow_right two_pos h11⟩, rfl⟩

/-- Settles O32, by the accepted lengths. -/
theorem cfgSetsOrClearsTheConfiguration : Obligations.CfgSetsOrClearsTheConfiguration := by
  refine ⟨fun s k h1 h11 => ?_, fun s n hn => ⟨_, ?_, records_raise .cfg s.pending _⟩⟩
  · rw [exec, execCfg, if_pos ((pow2ok_iff _).2 ⟨k, h1, h11, rfl⟩), Nat.log2_two_pow]
  · rw [exec, execCfg, if_neg fun hok => ?_]
    · rfl
    · obtain ⟨k, h1, h11, hk⟩ := (pow2ok_iff n).1 hok
      exact hn k h1 h11 hk

/-! ### Element by element -/

theorem readElem_storeArray {base n : Nat} {xs : List F64} (h : xs.length = n) (z : F64) (s : State)
    {i : Nat} (hi : i < n) :
    Memory.readElem (storeArray base xs s).mem base i = some (elemAt z xs i) :=
  Memory.readElem_of_readElems (h ▸ Memory.readElems_writeElems_same s.mem base xs) z hi

/-- Settles O33: each element of the stored run is +0.0. -/
theorem zimZeroesTheImaginaryChannel : Obligations.ZimZeroesTheImaginaryChannel := by
  intro s hvalid
  refine ⟨_, requireCfg_of_valid hvalid zimBody, fun i hi => ?_,
    sameOutside_storeArray List.length_replicate s, rfl⟩
  rw [readElem_storeArray List.length_replicate 0 s hi, elemAt, List.getD_replicate _ hi]

theorem elemAt_blackmanProducts (blk : Nat → F64) (j : Nat) {xs : List F64} {i : Nat}
    (hi : i < xs.length) :
    elemAt 0 (blackmanProducts blk j xs) i = fmul (elemAt 0 xs i) (blk (j + i)) := by
  induction xs generalizing i j with
  | nil => simp at hi
  | cons x xs ih =>
    cases i with
    | zero => rfl
    | succ i =>
      rw [show j + (i + 1) = j + 1 + i by omega]
      exact ih (j + 1) (Nat.lt_of_succ_lt_succ hi)

/-- Settles O34: the element at `i` of the stored run is the product at `i`. -/
theorem blkwMultipliesByTheWindow : Obligations.BlkwMultipliesByTheWindow := by
  intro s hvalid hwritten
  obtain ⟨xs, hxs, hlen⟩ := readElems_of_written hwritten
  have hlen' := (length_blackmanProducts (blkElem s.roms s.n.toNat) 0 xs).trans hlen
  have hrun : exec .blkw s = .next (storeArray Config.reBase
      (blackmanProducts (blkElem s.roms s.n.toNat) 0 xs) s) := by
    rw [exec, execBlkw, requireCfg_of_valid hvalid]
    exact withArray_eq_next.2 ⟨xs, hxs, rfl⟩
  refine ⟨_, hrun, fun i hi => ?_, sameOutside_storeArray hlen' s, rfl⟩
  refine ⟨elemAt 0 xs i, Memory.readElem_of_readElems hxs 0 hi, ?_⟩
  rw [readElem_storeArray hlen' 0 s hi, elemAt_blackmanProducts _ _ (by omega), Nat.zero_add]

end Sys2Proof.Machine

/-! ## Bit reversal (00_scope R11, 40_transform R92, R93) -/

namespace Sys2Proof.Machine

/-! ### The reversed index -/

theorem revBits_lt (m i : Nat) : revBits m i < 2 ^ m := by
  induction m generalizing i with
  | zero => exact Nat.one_pos
  | succ m ih =>
    have hrest := ih (i / 2)
    rw [revBits, Nat.pow_succ]
    rcases Nat.mod_two_eq_zero_or_one i with h | h <;> rw [h] <;> omega

/-- The low bit of the index becomes the high bit of the result. -/
theorem testBit_revBits {m t : Nat} (ht : t < m) (i : Nat) :
    (revBits m i).testBit t = i.testBit (m - 1 - t) := by
  induction m generalizing i with
  | zero => omega
  | succ m ih =>
    rw [revBits, Nat.testBit_two_pow_mul_add _ (revBits_lt m _)]
    split
    · next htm =>
      rw [ih htm, Nat.testBit_div_two]
      congr 1
      omega
    · obtain rfl : t = m := by omega
      rw [Nat.sub_self, Nat.add_sub_cancel, Nat.sub_self, Nat.testBit_zero, Nat.testBit_zero,
        Nat.mod_mod]

theorem revBits_revBits {m i : Nat} (hi : i < 2 ^ m) : revBits m (revBits m i) = i := by
  refine Nat.eq_of_testBit_eq fun t => ?_
  rcases Nat.lt_or_ge t m with ht | ht
  · rw [testBit_revBits ht, testBit_revBits (by omega)]
    congr 1
    omega
  · have hpow : 2 ^ m ≤ 2 ^ t := Nat.pow_le_pow_right two_pos ht
    rw [Nat.testBit_lt_two_pow ((revBits_lt m _).trans_le hpow),
      Nat.testBit_lt_two_pow (hi.trans_le hpow)]

theorem revBits_zero (m : Nat) : revBits m 0 = 0 := by
  induction m with
  | zero => rfl
  | succ m ih => rw [revBits, Nat.zero_mod, Nat.zero_div, ih, Nat.mul_zero]

/-! ### The permutation loop -/

section Elements
variable {α : Type} (z : α)

theorem elemAt_set {xs : List α} {p : Nat} (hp : p < xs.length) (i : Nat) (v : α) :
    elemAt z (xs.set i v) p = if p = i then v else elemAt z xs p := by
  rw [elemAt, elemAt, List.getD_eq_getElem?_getD, List.getD_eq_getElem?_getD]
  split
  · next h =>
    subst h
    rw [List.getElem?_set_self hp, Option.getD_some]
  · next h => rw [List.getElem?_set_ne (Ne.symm h)]

theorem ext_elemAt {xs ys : List α} (hlen : xs.length = ys.length)
    (h : ∀ i < xs.length, elemAt z xs i = elemAt z ys i) : xs = ys := by
  refine List.ext_getElem hlen fun i hx hy => ?_
  rw [← List.getD_eq_getElem xs z hx, ← List.getD_eq_getElem ys z hy]
  exact h i hx

theorem elemAt_swapAt {xs : List α} {p : Nat} (hp : p < xs.length) (i j : Nat) :
    elemAt z (swapAt z xs i j) p =
      if p = j then elemAt z xs i else if p = i then elemAt z xs j else elemAt z xs p := by
  rw [swapAt, elemAt_set z (by rwa [List.length_set]), elemAt_set z hp]

/-- The loop for one index more makes one turn more. -/
theorem bitrevList_succ (m k : Nat) (xs : List α) :
    bitrevList z m (k + 3) xs = bitrevTurn z m (bitrevList z m (k + 2) xs) (k + 1) := by
  rw [bitrevList, bitrevList, Nat.add_sub_cancel, show k + 3 - 2 = k + 1 from rfl,
    List.range'_1_concat, List.foldl_concat, Nat.add_comm 1 k]

/-- After the turns 1 to `k`, exactly the pairs whose smaller index is at most `k` are swapped; the
index 0 is its own reversal. -/
theorem elemAt_bitrevList_after_turns {m : Nat} {xs : List α} (hlen : xs.length = 2 ^ m) {k p : Nat}
    (hk : k < 2 ^ m) (hp : p < 2 ^ m) :
    elemAt z (bitrevList z m (k + 2) xs) p =
      elemAt z xs (if min p (revBits m p) ≤ k then revBits m p else p) := by
  induction k generalizing p with
  | zero =>
    have hnone : bitrevList z m (0 + 2) xs = xs := rfl
    have hzero : revBits m p = 0 → p = 0 := fun h => by
      rw [← revBits_revBits hp, h, revBits_zero]
    rw [hnone]
    split
    · next hmin =>
      obtain rfl : p = 0 := by omega
      rw [revBits_zero]
    · rfl
  | succ k ih =>
    have hrev := revBits_revBits hp
    have hback : revBits m p = k + 1 → p = revBits m (k + 1) := fun h => by rw [← h, hrev]
    have hrevk := revBits_revBits hk
    have hltk := revBits_lt m (k + 1)
    have hlen' : (bitrevList z m (k + 2) xs).length = 2 ^ m := by rw [length_bitrevList, hlen]
    rw [bitrevList_succ, bitrevTurn]
    split
    · next hlt =>
      rw [elemAt_swapAt z (by omega)]
      split
      · next hpj =>
        rw [ih (by omega) hk, if_neg (by omega), hpj, hrevk, if_pos (by omega)]
      · split
        · next hpi =>
          rw [ih (by omega) hltk, hrevk, if_neg (by omega), hpi, if_pos (by omega)]
        · rw [ih (by omega) hp]
          congr 2
          rw [eq_iff_iff]
          omega
    · have hfix : min p (revBits m p) = k + 1 → revBits m p = p := fun hmin => by
        rcases Nat.lt_or_ge p (revBits m p) with h | h
        · obtain rfl : p = k + 1 := by omega
          omega
        · have := hback (by omega)
          omega
      rw [ih (by omega) hp]
      by_cases hmin : min p (revBits m p) = k + 1
      · rw [hfix hmin, ite_self, ite_self]
      · congr 2
        rw [eq_iff_iff]
        omega

/-- The loop puts at every index the element at the reversed one (R93). -/
theorem elemAt_bitrevList {m : Nat} {xs : List α} (hlen : xs.length = 2 ^ m) {p : Nat}
    (hp : p < 2 ^ m) : elemAt z (bitrevList z m (2 ^ m) xs) p = elemAt z xs (revBits m p) := by
  have hlast : bitrevList z m (2 ^ m) xs = bitrevList z m (2 ^ m - 2 + 2) xs := by
    rw [bitrevList, bitrevList, Nat.add_sub_cancel]
  have hrev := revBits_lt m p
  rw [hlast, elemAt_bitrevList_after_turns z hlen (by omega) hp]
  split
  · rfl
  · congr 1
    omega

theorem bitrevList_bitrevList {m : Nat} {xs : List α} (hlen : xs.length = 2 ^ m) :
    bitrevList z m (2 ^ m) (bitrevList z m (2 ^ m) xs) = xs := by
  have hlen' : (bitrevList z m (2 ^ m) xs).length = 2 ^ m := by rw [length_bitrevList, hlen]
  refine ext_elemAt z (by rw [length_bitrevList, length_bitrevList]) fun p hp => ?_
  rw [length_bitrevList, hlen'] at hp
  rw [elemAt_bitrevList z hlen' hp, elemAt_bitrevList z hlen (revBits_lt m p), revBits_revBits hp]

theorem bitrevChannels_bitrevChannels {m : Nat} {x : Channels α} (h : x.HasLength (2 ^ m)) :
    bitrevChannels z m (2 ^ m) (bitrevChannels z m (2 ^ m) x) = x :=
  congrArg₂ Channels.mk (bitrevList_bitrevList z h.1) (bitrevList_bitrevList z h.2)

end Elements

/-! ### The command -/

theorem n_eq_of_configInv {s : State} (h : ConfigInv s) (hvalid : s.cfgValid = true) :
    s.n.toNat = 2 ^ s.log2n.toNat := (h.1 hvalid).2.2

theorem exec_bitrev_of_holds {s : State} (hvalid : s.cfgValid = true) {x : Channels F64}
    (hx : HoldsSpectrum s s.n.toNat x) :
    exec .bitrev s = .next (storeSpectrum (bitrevChannels 0 s.log2n.toNat s.n.toNat x) s) :=
  (requireCfg_of_valid hvalid _).trans (onSpectrum_of_holds hx _)

/-- Settles O35, by the turns of the loop and the bits of the reversed index. -/
theorem bitrevPermutesByBitReversal : Obligations.BitrevPermutesByBitReversal := by
  refine ⟨fun s hcfg hvalid hre him => ?_,
    fun m i t _ => ⟨revBits_lt m i, fun ht => testBit_revBits ht i⟩⟩
  obtain ⟨x, hx⟩ := exists_holdsSpectrum hre him
  have hy := hasLength_bitrevChannels 0 s.log2n.toNat s.n.toNat hx.hasLength
  obtain ⟨hyre, hyim⟩ := holdsSpectrum_storeSpectrum (n_le_of_configInv hcfg) hy s
  refine ⟨_, exec_bitrev_of_holds hvalid hx, fun i hi => ?_,
    sameOutsideSpectrum_storeSpectrum hy s, rfl⟩
  obtain ⟨hlre, hlim⟩ := hx.hasLength
  obtain ⟨hxre, hxim⟩ := hx
  rw [Memory.readElem_of_readElems hyre 0 hi, Memory.readElem_of_readElems hyim 0 hi]
  rw [n_eq_of_configInv hcfg hvalid] at *
  have hrev := revBits_lt s.log2n.toNat i
  rw [Memory.readElem_of_readElems hxre 0 hrev, Memory.readElem_of_readElems hxim 0 hrev]
  exact ⟨congrArg some (elemAt_bitrevList 0 hlre hi), congrArg some (elemAt_bitrevList 0 hlim hi)⟩

/-- Settles O36: the second permutation undoes the first, and its store hides the first one's. -/
theorem bitrevTwiceRestores : Obligations.BitrevTwiceRestores := by
  intro s hcfg hwf hvalid hre him
  obtain ⟨x, hx⟩ := exists_holdsSpectrum hre him
  have hn := n_le_of_configInv hcfg
  have hy := hasLength_bitrevChannels 0 s.log2n.toNat s.n.toNat hx.hasLength
  refine ⟨_, exec_bitrev_of_holds hvalid hx, ?_⟩
  have hback : bitrevChannels 0 s.log2n.toNat s.n.toNat
      (bitrevChannels 0 s.log2n.toNat s.n.toNat x) = x := by
    rw [n_eq_of_configInv hcfg hvalid]
    exact bitrevChannels_bitrevChannels 0 (n_eq_of_configInv hcfg hvalid ▸ hx.hasLength)
  calc exec .bitrev (storeSpectrum (bitrevChannels 0 s.log2n.toNat s.n.toNat x) s)
    _ = .next (storeSpectrum (bitrevChannels 0 s.log2n.toNat s.n.toNat
          (bitrevChannels 0 s.log2n.toNat s.n.toNat x)) (storeSpectrum _ s)) :=
        exec_bitrev_of_holds (s := storeSpectrum _ s) hvalid (holdsSpectrum_storeSpectrum hn hy s)
    _ = .next (storeSpectrum x s) := by
        rw [hback, storeSpectrum_storeSpectrum hwf hn hy hx.hasLength]
    _ = .next s := by rw [storeSpectrum_self hwf hn hx]

end Sys2Proof.Machine

/-! ## The butterfly stages (40_transform R94, R95)

A butterfly rewrites the two places of its wing alone. No two wings of a stage share a place: the
quotient and the remainder of a place name its wing. -/

namespace Sys2Proof.Machine

section Butterflies
variable {α : Type} (A : Arith α)

/-! ### One butterfly -/

/-- The point at index `p`: its real and its imaginary part. -/
def Channels.point (z : α) (x : Channels α) (p : Nat) : α × α := (elemAt z x.re p, elemAt z x.im p)

/-- The product that a butterfly forms from its table entry and its upper point (R94). -/
def twisted (c sn : α) (x : α × α) : α × α :=
  (A.sub (A.mul c x.1) (A.mul sn x.2), A.add (A.mul sn x.1) (A.mul c x.2))

/-- What a butterfly leaves at its lower index, where `y` stood, with `x` at the upper (R94). -/
def lowWing (c sn : α) (y x : α × α) : α × α :=
  (A.add y.1 (twisted A c sn x).1, A.add y.2 (twisted A c sn x).2)

/-- What a butterfly leaves at its upper index, where `x` stood, with `y` at the lower (R94). -/
def highWing (c sn : α) (y x : α × α) : α × α :=
  (A.sub y.1 (twisted A c sn x).1, A.sub y.2 (twisted A c sn x).2)

theorem point_butterfly (c sn : α) (k u : Nat) {n p : Nat} {x : Channels α} (hx : x.HasLength n)
    (hp : p < n) :
    (butterfly A c sn k u x).point A.zero p =
      if p = k then lowWing A c sn (x.point A.zero k) (x.point A.zero u)
      else if p = u then highWing A c sn (x.point A.zero k) (x.point A.zero u)
      else x.point A.zero p := by
  obtain ⟨hre, him⟩ := hx
  have hset {xs : List α} (hlen : xs.length = n) (v w : α) :
      elemAt A.zero ((xs.set u w).set k v) p =
        if p = k then v else if p = u then w else elemAt A.zero xs p := by
    rw [elemAt_set A.zero (by rwa [List.length_set, hlen]), elemAt_set A.zero (hlen ▸ hp)]
  refine (congrArg₂ Prod.mk (hset hre _ _) (hset him _ _)).trans ?_
  split
  · rfl
  · split <;> rfl

/-! ### Butterflies without a common place -/

section Wings
variable {ι : Type} (lo hi : ι → Nat) (c sn : ι → α)

/-- The butterflies of the listed wings, in order. -/
def butterflies (ws : List ι) (x : Channels α) : Channels α :=
  ws.foldl (fun x w => butterfly A (c w) (sn w) (lo w) (hi w) x) x

/-- Each of the two places of a listed wing names the wing, so that no two wings share a place. -/
def PlacesName (wing : Nat → ι) (ws : List ι) : Prop :=
  ∀ w ∈ ws, wing (lo w) = w ∧ wing (hi w) = w ∧ lo w ≠ hi w

variable {lo hi} {wing : Nat → ι} {n : Nat} {x : Channels α}

theorem point_butterflies_of_not_mem {ws : List ι} (hws : PlacesName lo hi wing ws)
    (hx : x.HasLength n) {p : Nat} (hp : p < n) (hpw : wing p ∉ ws) :
    (butterflies A lo hi c sn ws x).point A.zero p = x.point A.zero p := by
  induction ws generalizing x with
  | nil => rfl
  | cons v ws ih =>
    obtain ⟨hv, hrest⟩ := List.forall_mem_cons.1 hws
    obtain ⟨hlo, hhi, -⟩ := hv
    rw [List.mem_cons, not_or] at hpw
    refine (ih hrest (hasLength_butterfly A _ _ _ _ hx) hpw.2).trans ?_
    rw [point_butterfly A _ _ _ _ hx hp, if_neg, if_neg]
    · rintro rfl
      exact hpw.1 hhi
    · rintro rfl
      exact hpw.1 hlo

/-- Every wing gets the butterfly of what stood at its places before all of them. -/
theorem point_butterflies {ws : List ι} (hws : PlacesName lo hi wing ws) (hnodup : ws.Nodup)
    (hx : x.HasLength n) {w : ι} (hw : w ∈ ws) (hlow : lo w < n) (hhigh : hi w < n) :
    (butterflies A lo hi c sn ws x).point A.zero (lo w) =
        lowWing A (c w) (sn w) (x.point A.zero (lo w)) (x.point A.zero (hi w)) ∧
      (butterflies A lo hi c sn ws x).point A.zero (hi w) =
        highWing A (c w) (sn w) (x.point A.zero (lo w)) (x.point A.zero (hi w)) := by
  induction ws generalizing x with
  | nil => cases hw
  | cons v ws ih =>
    obtain ⟨hlo, hhi, hne⟩ := hws w hw
    obtain ⟨hv, hrest⟩ := List.forall_mem_cons.1 hws
    obtain ⟨hvnot, hnodup⟩ := List.nodup_cons.1 hnodup
    have hx' := hasLength_butterfly A (c v) (sn v) (lo v) (hi v) hx
    rcases List.mem_cons.1 hw with rfl | hw
    · constructor
      · refine (point_butterflies_of_not_mem A c sn hrest hx' hlow (by rwa [hlo])).trans ?_
        rw [point_butterfly A _ _ _ _ hx hlow, if_pos rfl]
      · refine (point_butterflies_of_not_mem A c sn hrest hx' hhigh (by rwa [hhi])).trans ?_
        rw [point_butterfly A _ _ _ _ hx hhigh, if_neg hne.symm, if_pos rfl]
    · have hsame {p : Nat} (hp : p < n) (hpw : wing p = w) :
          (butterfly A (c v) (sn v) (lo v) (hi v) x).point A.zero p = x.point A.zero p :=
        point_butterflies_of_not_mem A c sn (ws := [v]) (List.forall_mem_singleton.2 hv) hx hp (by
          rw [hpw, List.mem_singleton]
          exact ne_of_mem_of_not_mem hw hvnot)
      have := ih hrest hnodup hx' hw
      rwa [hsame hlow hlo, hsame hhigh hhi] at this

end Wings

/-! ### One stage -/

/-- The wings of a stage: a group, and a place in its lower half. -/
def stageWings (n half : Nat) : List (Nat × Nat) :=
  List.range ((n + 2 * half - 1) / (2 * half)) ×ˢ List.range half

theorem mem_stageWings {n half g j : Nat} (hj : j < half)
    (hn : g * (2 * half) + j + half < n) : (g, j) ∈ stageWings n half := by
  rw [stageWings, List.mem_product, List.mem_range, List.mem_range, Nat.lt_iff_add_one_le,
    Nat.le_div_iff_mul_le (by omega), Nat.succ_mul]
  omega

/-- The lower index of a wing. -/
def lowIndex (half : Nat) (w : Nat × Nat) : Nat := w.1 * (2 * half) + w.2

/-- The upper index of a wing. -/
def highIndex (half : Nat) (w : Nat × Nat) : Nat := lowIndex half w + half

/-- The wing of a place: its group, and its distance from the start of its half. -/
def wingOf (half p : Nat) : Nat × Nat := (p / (2 * half), p % half)

theorem wingOf_group_add {half q : Nat} (hq : q < 2 * half) (g : Nat) :
    wingOf half (g * (2 * half) + q) = (g, q % half) := by
  rw [wingOf, Nat.mul_comm g, Nat.mul_add_div (by omega), Nat.div_eq_of_lt hq, Nat.add_zero,
    Nat.mul_comm 2, Nat.mul_assoc, Nat.mul_add_mod]

theorem placesName_stageWings (n half : Nat) :
    PlacesName (lowIndex half) (highIndex half) (wingOf half) (stageWings n half) := by
  rintro ⟨g, j⟩ hw
  obtain ⟨-, hj⟩ := List.mem_product.1 hw
  rw [List.mem_range] at hj
  rw [highIndex, lowIndex]
  refine ⟨?_, ?_, by omega⟩
  · rw [wingOf_group_add (by omega), Nat.mod_eq_of_lt hj]
  · rw [Nat.add_assoc, wingOf_group_add (by omega), Nat.add_mod_right, Nat.mod_eq_of_lt hj]

theorem stageChannels_eq_butterflies (cosT sinT : Nat → α) (n st : Nat) (x : Channels α) :
    stageChannels A cosT sinT n st x =
      butterflies A (lowIndex (2 ^ st)) (highIndex (2 ^ st))
        (fun w => cosT (w.2 * (n / (2 * 2 ^ st)))) (fun w => sinT (w.2 * (n / (2 * 2 ^ st))))
        (stageWings n (2 ^ st)) x := by
  simp only [stageChannels, stageGroup, butterflies, stageWings, SProd.sprod, List.product,
    List.foldl_flatMap, List.foldl_map]
  rfl

/-- A stage gives every pair of its places the butterfly of what stood there (R95). -/
theorem point_stageChannels (cosT sinT : Nat → α) {n st g j : Nat} {x : Channels α}
    (hx : x.HasLength n) (hj : j < 2 ^ st) (hn : g * (2 * 2 ^ st) + j + 2 ^ st < n) :
    (stageChannels A cosT sinT n st x).point A.zero (g * (2 * 2 ^ st) + j) =
        lowWing A (cosT (j * (n / (2 * 2 ^ st)))) (sinT (j * (n / (2 * 2 ^ st))))
          (x.point A.zero (g * (2 * 2 ^ st) + j))
          (x.point A.zero (g * (2 * 2 ^ st) + j + 2 ^ st)) ∧
      (stageChannels A cosT sinT n st x).point A.zero (g * (2 * 2 ^ st) + j + 2 ^ st) =
        highWing A (cosT (j * (n / (2 * 2 ^ st)))) (sinT (j * (n / (2 * 2 ^ st))))
          (x.point A.zero (g * (2 * 2 ^ st) + j))
          (x.point A.zero (g * (2 * 2 ^ st) + j + 2 ^ st)) := by
  rw [stageChannels_eq_butterflies]
  exact point_butterflies A _ _ (placesName_stageWings n (2 ^ st))
    (List.nodup_range.product List.nodup_range) hx (mem_stageWings hj hn)
    ((Nat.le_add_right _ _).trans_lt hn) hn

end Butterflies

/-! ### The command -/

theorem exec_stage_of_holds {s : State} {st : Nat} (hvalid : s.cfgValid = true)
    (hst : st < s.log2n.toNat) {x : Channels F64} (hx : HoldsSpectrum s s.n.toNat x) :
    exec (.stage st) s = .next (storeSpectrum (stageNow s st x) s) := by
  rw [exec, execStage, requireCfg_of_valid hvalid, stageOk, decide_eq_true hst, if_pos rfl,
    onSpectrum_of_holds hx]

theorem point_of_readElem {s : State} {n : Nat} {x : Channels F64} (hx : HoldsSpectrum s n x)
    {p : Nat} (hp : p < n) {a b : F64} (hre : Memory.readElem s.mem Config.reBase p = some a)
    (him : Memory.readElem s.mem Config.imBase p = some b) : x.point 0 p = (a, b) := by
  rw [Memory.readElem_of_readElems hx.1 0 hp] at hre
  rw [Memory.readElem_of_readElems hx.2 0 hp] at him
  exact congrArg₂ Prod.mk (Option.some.inj hre) (Option.some.inj him)

theorem readElem_of_point {s : State} {n : Nat} {x : Channels F64} (hx : HoldsSpectrum s n x)
    {p : Nat} (hp : p < n) {q : F64 × F64} (hq : x.point 0 p = q) :
    Memory.readElem s.mem Config.reBase p = some q.1 ∧
      Memory.readElem s.mem Config.imBase p = some q.2 := by
  subst hq
  exact ⟨Memory.readElem_of_readElems hx.1 0 hp, Memory.readElem_of_readElems hx.2 0 hp⟩

/-- Settles O37, by the wings of the stage. -/
theorem stageComputesEveryButterfly : Obligations.StageComputesEveryButterfly := by
  intro s st hcfg hvalid hst hre him
  obtain ⟨x, hx⟩ := exists_holdsSpectrum hre him
  have hy : (stageNow s st x).HasLength s.n.toNat :=
    hasLength_stageChannels _ _ _ _ _ hx.hasLength
  have hstored := holdsSpectrum_storeSpectrum (n_le_of_configInv hcfg) hy s
  refine ⟨_, exec_stage_of_holds hvalid hst hx, ?_, sameOutsideSpectrum_storeSpectrum hy s, rfl⟩
  intro g j k u c sn xr xi yr yi hj hk hu hn hc hsn hxr hxi hyr hyi
  subst hk hu hc hsn
  have hlow : g * (2 * 2 ^ st) + j < s.n.toNat := by omega
  obtain ⟨hlowPoint, hhighPoint⟩ := point_stageChannels binary64 (twcElem s.roms s.n.toNat)
    (twsElem s.roms s.n.toNat) hx.hasLength hj hn
  rw [show binary64.zero = 0 from rfl, point_of_readElem hx hlow hyr hyi,
    point_of_readElem hx hn hxr hxi] at hlowPoint hhighPoint
  obtain ⟨hlowRe, hlowIm⟩ := readElem_of_point hstored hlow hlowPoint
  obtain ⟨hhighRe, hhighIm⟩ := readElem_of_point hstored hn hhighPoint
  exact ⟨hhighRe, hhighIm, hlowRe, hlowIm⟩

end Sys2Proof.Machine

/-! ## The whole transform (40_transform R87, R96) -/

namespace Sys2Proof.Machine

/-! ### The network, stage by stage -/

section Network
variable {α : Type} (A : Arith α) (cosT sinT : Nat → α) (m n : Nat)

/-- What the network has computed before stage `k`. -/
def networkBefore (k : Nat) (x : Channels α) : Channels α :=
  (List.range k).foldl (fun x st => stageChannels A cosT sinT n st x) (bitrevChannels A.zero m n x)

theorem networkBefore_succ (k : Nat) (x : Channels α) : networkBefore A cosT sinT m n (k + 1) x =
    stageChannels A cosT sinT n k (networkBefore A cosT sinT m n k x) := by
  rw [networkBefore, List.range_succ, List.foldl_concat, networkBefore]

theorem hasLength_networkBefore {len : Nat} {x : Channels α} (hx : x.HasLength len) (k : Nat) :
    (networkBefore A cosT sinT m n k x).HasLength len := by
  induction k with
  | zero => exact hasLength_bitrevChannels _ _ _ hx
  | succ k ih =>
    rw [networkBefore_succ]
    exact hasLength_stageChannels _ _ _ _ _ ih

theorem fftChannels_eq_networkBefore (x : Channels α) :
    fftChannels A cosT sinT m n x = networkBefore A cosT sinT m n m x := rfl

end Network

/-! ### `FFT` as a sequence of commands -/

/-- What the machine's network has computed of the spectrum before stage `k`. -/
def beforeStage (s : State) (x : Channels F64) (k : Nat) : Channels F64 :=
  networkBefore binary64 (twcElem s.roms s.n.toNat) (twsElem s.roms s.n.toNat) s.log2n.toNat
    s.n.toNat k x

theorem beforeStage_succ (s : State) (x : Channels F64) (k : Nat) :
    beforeStage s x (k + 1) = stageNow s k (beforeStage s x k) :=
  networkBefore_succ _ _ _ _ _ k x

theorem hasLength_beforeStage {s : State} {x : Channels F64} (hx : x.HasLength s.n.toNat)
    (k : Nat) : (beforeStage s x k).HasLength s.n.toNat :=
  hasLength_networkBefore _ _ _ _ _ hx k

theorem exec_fft_of_holds {s : State} (hvalid : s.cfgValid = true) {x : Channels F64}
    (hx : HoldsSpectrum s s.n.toNat x) :
    exec .fft s = .next (storeSpectrum (beforeStage s x s.log2n.toNat) s) :=
  (requireCfg_of_valid hvalid _).trans (onSpectrum_of_holds hx _)

/-- `BITREV`, then `STAGE 0` to `STAGE k − 1`. -/
def bitrevThenStages (k : Nat) (s : State) : Result :=
  (List.range k).foldl (fun o st => andThen o (exec (.stage st))) (exec .bitrev s)

theorem bitrevThenStages_succ (k : Nat) (s : State) :
    bitrevThenStages (k + 1) s = andThen (bitrevThenStages k s) (exec (.stage k)) := by
  rw [bitrevThenStages, List.range_succ, List.foldl_concat, bitrevThenStages]

/-- A stop of `BITREV` is the stop of all. -/
theorem bitrevThenStages_of_fault {s : State} {r : Fault} (h : exec .bitrev s = .fault r)
    (k : Nat) : bitrevThenStages k s = .fault r := by
  induction k with
  | zero => exact h
  | succ k ih => rw [bitrevThenStages_succ, ih, andThen_fault]

/-- Each stage finds in the memory what the one before it has stored. -/
theorem bitrevThenStages_of_holds {s : State} (hcfg : ConfigInv s) (hwf : Memory.wf s.mem = true)
    (hvalid : s.cfgValid = true) {x : Channels F64} (hx : HoldsSpectrum s s.n.toNat x) {k : Nat}
    (hk : k ≤ s.log2n.toNat) :
    bitrevThenStages k s = .next (storeSpectrum (beforeStage s x k) s) := by
  have hn := n_le_of_configInv hcfg
  have hlen := hasLength_beforeStage hx.hasLength
  induction k with
  | zero => exact exec_bitrev_of_holds hvalid hx
  | succ k ih =>
    calc bitrevThenStages (k + 1) s
      _ = exec (.stage k) (storeSpectrum (beforeStage s x k) s) := by
          rw [bitrevThenStages_succ, ih (by omega), andThen_next]
      _ = .next (storeSpectrum (stageNow s k (beforeStage s x k))
            (storeSpectrum (beforeStage s x k) s)) :=
          exec_stage_of_holds (s := storeSpectrum _ s) hvalid hk
            (holdsSpectrum_storeSpectrum hn (hlen k) s)
      _ = .next (storeSpectrum (beforeStage s x (k + 1)) s) := by
          rw [← beforeStage_succ, storeSpectrum_storeSpectrum hwf hn (hlen k) (hlen (k + 1))]

/-- Settles O38: without a configuration there is no stage, on an unwritten spectrum both stop, and
on a written one the stages' stores hide each other. -/
theorem fftIsBitrevThenStages : Obligations.FftIsBitrevThenStages := by
  intro s hcfg hwf
  change exec .fft s = bitrevThenStages s.log2n.toNat s
  cases hvalid : s.cfgValid with
  | false =>
    rw [(hcfg.2 hvalid).2]
    exact (exec_of_not_valid (i := .fft) hvalid (.inl (by simp))).trans
      (exec_of_not_valid (i := .bitrev) hvalid (.inl (by simp))).symm
  | true =>
    by_cases hw : Written s Config.reBase 0 s.n.toNat ∧ Written s Config.imBase 0 s.n.toNat
    · obtain ⟨x, hx⟩ := exists_holdsSpectrum hw.1 hw.2
      rw [bitrevThenStages_of_holds hcfg hwf hvalid hx le_rfl, exec_fft_of_holds hvalid hx]
    · have hstop (f : Channels F64 → Channels F64) : onSpectrum f s = .fault .uninit :=
        onSpectrum_of_not_written hw f
      rw [bitrevThenStages_of_fault ((requireCfg_of_valid hvalid _).trans (hstop _))]
      exact (requireCfg_of_valid hvalid _).trans (hstop _)

/-- Settles O39: what stands before stage `LOG2N` is the network's result. -/
theorem fftStoresTheButterflyNetwork : Obligations.FftStoresTheButterflyNetwork := by
  intro s hcfg hvalid hre him
  obtain ⟨x, hx⟩ := exists_holdsSpectrum hre him
  have hy := hasLength_beforeStage hx.hasLength s.log2n.toNat
  obtain ⟨hyre, hyim⟩ := holdsSpectrum_storeSpectrum (n_le_of_configInv hcfg) hy s
  exact ⟨x.re, x.im, _, _, hx.1, hx.2, rfl, exec_fft_of_holds hvalid hx, hyre, hyim,
    sameOutsideSpectrum_storeSpectrum hy s, rfl⟩

end Sys2Proof.Machine

/-! ## The butterfly network over the reals (40_transform R97)

After `s` stages the block of `2^s` places that starts at `b·2^s` holds the transform of every
`2^d`-th sample from the bit-reversal of `b` on, `d` being the number of stages still to come. -/

namespace Sys2Proof.Machine

/-! ### The transform of length 2^s -/

/-- The root of unity e^(−2πi/2^s). -/
noncomputable def dftRoot (s : Nat) : ℂ := Complex.exp (-(2 * Real.pi / 2 ^ s : ℝ) * Complex.I)

/-- The discrete Fourier transform of the first `2^s` samples (R97). -/
noncomputable def dft (s : Nat) (z : Nat → ℂ) (q : Nat) : ℂ :=
  ∑ r ∈ Finset.range (2 ^ s), z r * dftRoot s ^ (q * r)

theorem dftRoot_pow (s j : Nat) : dftRoot s ^ j =
    ⟨Real.cos (-(2 * Real.pi * j / 2 ^ s)), Real.sin (-(2 * Real.pi * j / 2 ^ s))⟩ := by
  have hexp : dftRoot s ^ j = Complex.exp ((-(2 * Real.pi * j / 2 ^ s) : ℝ) * Complex.I) := by
    rw [dftRoot, ← Complex.exp_nat_mul]
    congr 1
    push_cast
    ring
  rw [hexp]
  exact Complex.ext (Complex.exp_ofReal_mul_I_re _) (Complex.exp_ofReal_mul_I_im _)

theorem dftRoot_succ_sq (s : Nat) : dftRoot (s + 1) ^ 2 = dftRoot s := by
  rw [← pow_one (dftRoot s), dftRoot_pow, dftRoot_pow]
  congr 2 <;>
  · push_cast
    field_simp
    ring

theorem dftRoot_succ_pow_half (s : Nat) : dftRoot (s + 1) ^ 2 ^ s = -1 := by
  have hpi : 2 * Real.pi * (2 ^ s : Nat) / 2 ^ (s + 1) = Real.pi := by
    push_cast
    field_simp
    ring
  rw [dftRoot_pow, hpi, Real.cos_neg, Real.sin_neg, Real.cos_pi, Real.sin_pi]
  exact Complex.ext rfl (neg_zero.trans neg_zero.symm)

theorem dftRoot_pow_length (s : Nat) : dftRoot s ^ 2 ^ s = 1 := by
  rw [← dftRoot_succ_sq, ← pow_mul, Nat.mul_comm, pow_mul, dftRoot_succ_pow_half, neg_one_sq]

theorem dft_add_length (s : Nat) (z : Nat → ℂ) (q : Nat) : dft s z (q + 2 ^ s) = dft s z q := by
  refine Finset.sum_congr rfl fun r _ => ?_
  rw [Nat.add_mul, pow_add, pow_mul _ (2 ^ s), dftRoot_pow_length, one_pow, mul_one]

theorem sum_range_two_mul (f : Nat → ℂ) (n : Nat) : ∑ r ∈ Finset.range (2 * n), f r =
    ∑ r ∈ Finset.range n, f (2 * r) + ∑ r ∈ Finset.range n, f (2 * r + 1) := by
  induction n with
  | zero => simp
  | succ n ih =>
    rw [Nat.mul_succ, Finset.sum_range_succ, Finset.sum_range_succ, ih, Finset.sum_range_succ,
      Finset.sum_range_succ]
    ring

/-- The even and the odd samples are transformed apart. -/
theorem dft_succ (s : Nat) (z : Nat → ℂ) (q : Nat) : dft (s + 1) z q =
    dft s (fun r => z (2 * r)) q + dftRoot (s + 1) ^ q * dft s (fun r => z (2 * r + 1)) q := by
  rw [dft, Nat.pow_succ', sum_range_two_mul, dft, dft, Finset.mul_sum]
  congr 1 <;> refine Finset.sum_congr rfl fun r _ => ?_
  · rw [← dftRoot_succ_sq s, ← pow_mul, Nat.mul_left_comm]
  · rw [← dftRoot_succ_sq s, ← pow_mul]
    ring

theorem dft_succ_add_half (s : Nat) (z : Nat → ℂ) (q : Nat) : dft (s + 1) z (q + 2 ^ s) =
    dft s (fun r => z (2 * r)) q - dftRoot (s + 1) ^ q * dft s (fun r => z (2 * r + 1)) q := by
  rw [dft_succ, dft_add_length, dft_add_length, pow_add, dftRoot_succ_pow_half]
  ring

/-! ### The stages -/

/-- Exact arithmetic. -/
noncomputable def realArith : Arith ℝ := ⟨0, (· + ·), (· - ·), (· * ·)⟩

/-- The exact cosines of the table for the length `2^m` (R48). -/
noncomputable def exactCos (m i : Nat) : ℝ := Real.cos (-(2 * Real.pi * i / 2 ^ m))

/-- The exact sines of the table for the length `2^m` (R48). -/
noncomputable def exactSin (m i : Nat) : ℝ := Real.sin (-(2 * Real.pi * i / 2 ^ m))

/-- A point as a complex number. -/
def toComplex (p : ℝ × ℝ) : ℂ := ⟨p.1, p.2⟩

/-- The complex number at index `p`. -/
def complexAt (x : Channels ℝ) (p : Nat) : ℂ := toComplex (x.point 0 p)

theorem toComplex_lowWing (c sn : ℝ) (y x : ℝ × ℝ) :
    toComplex (lowWing realArith c sn y x) = toComplex y + toComplex (c, sn) * toComplex x := by
  refine Complex.ext ?_ ?_
  · simp [toComplex, lowWing, twisted, realArith]
  · simp [toComplex, lowWing, twisted, realArith]
    ring

theorem toComplex_highWing (c sn : ℝ) (y x : ℝ × ℝ) :
    toComplex (highWing realArith c sn y x) = toComplex y - toComplex (c, sn) * toComplex x := by
  refine Complex.ext ?_ ?_
  · simp [toComplex, highWing, twisted, realArith]
  · simp [toComplex, highWing, twisted, realArith]
    ring

/-- The table entry of a wing is the power of the root that the split of the transform needs. -/
theorem toComplex_table (d s q : Nat) :
    toComplex (exactCos (d + 1 + s) (q * 2 ^ d), exactSin (d + 1 + s) (q * 2 ^ d)) =
      dftRoot (s + 1) ^ q := by
  have hangle : 2 * Real.pi * (q * 2 ^ d : Nat) / 2 ^ (d + 1 + s) =
      2 * Real.pi * q / 2 ^ (s + 1) := by
    push_cast
    field_simp
    ring
  rw [dftRoot_pow, toComplex, exactCos, exactSin, hangle]

/-- A stage adds and subtracts the twisted upper half of each block. -/
theorem complexAt_stageChannels {d s b q : Nat} {x : Channels ℝ}
    (hx : x.HasLength (2 ^ (d + 1 + s))) (hb : b < 2 ^ d) (hq : q < 2 ^ s) :
    complexAt (stageChannels realArith (exactCos (d + 1 + s)) (exactSin (d + 1 + s))
          (2 ^ (d + 1 + s)) s x) (b * (2 * 2 ^ s) + q) =
        complexAt x (b * (2 * 2 ^ s) + q) +
          dftRoot (s + 1) ^ q * complexAt x (b * (2 * 2 ^ s) + q + 2 ^ s) ∧
      complexAt (stageChannels realArith (exactCos (d + 1 + s)) (exactSin (d + 1 + s))
          (2 ^ (d + 1 + s)) s x) (b * (2 * 2 ^ s) + q + 2 ^ s) =
        complexAt x (b * (2 * 2 ^ s) + q) -
          dftRoot (s + 1) ^ q * complexAt x (b * (2 * 2 ^ s) + q + 2 ^ s) := by
  have hlen : 2 ^ (d + 1 + s) = 2 ^ d * (2 * 2 ^ s) := by ring
  have hstride : 2 ^ (d + 1 + s) / (2 * 2 ^ s) = 2 ^ d := by
    rw [hlen, Nat.mul_div_cancel _ (by positivity)]
  have hplace : b * (2 * 2 ^ s) + q + 2 ^ s < 2 ^ (d + 1 + s) := by
    have hblock : (b + 1) * (2 * 2 ^ s) ≤ 2 ^ d * (2 * 2 ^ s) := Nat.mul_le_mul_right _ hb
    rw [Nat.succ_mul] at hblock
    omega
  obtain ⟨hlow, hhigh⟩ := point_stageChannels realArith (exactCos (d + 1 + s))
    (exactSin (d + 1 + s)) hx hq hplace
  rw [hstride] at hlow hhigh
  rw [← toComplex_table d s q]
  exact ⟨(congrArg toComplex hlow).trans (toComplex_lowWing _ _ _ _),
    (congrArg toComplex hhigh).trans (toComplex_highWing _ _ _ _)⟩

/-- The blocks of length `2^s`, `2^d` of them, hold the transforms of the samples that the
permutation has brought there. -/
def HoldsBlocks (z : Nat → ℂ) (d s : Nat) (x : Channels ℝ) : Prop :=
  ∀ b < 2 ^ d, ∀ q < 2 ^ s,
    complexAt x (b * 2 ^ s + q) = dft s (fun r => z (r * 2 ^ d + revBits d b)) q

theorem holdsBlocks_bitrevChannels {m : Nat} {x : Channels ℝ} (hx : x.HasLength (2 ^ m)) :
    HoldsBlocks (complexAt x) m 0 (bitrevChannels 0 m (2 ^ m) x) := by
  intro b hb q hq
  obtain rfl : q = 0 := by omega
  have hpoint : complexAt (bitrevChannels 0 m (2 ^ m) x) b = complexAt x (revBits m b) :=
    congrArg₂ Complex.mk (elemAt_bitrevList 0 hx.1 hb) (elemAt_bitrevList 0 hx.2 hb)
  simp [dft, hpoint]

/-- A stage makes one block of two: the block with the even number has the even samples of the new
one, and the block with the odd number has the odd samples, by the bit-reversal of the numbers. -/
theorem holdsBlocks_stageChannels {z : Nat → ℂ} {d s : Nat} {x : Channels ℝ}
    (hx : x.HasLength (2 ^ (d + 1 + s))) (h : HoldsBlocks z (d + 1) s x) :
    HoldsBlocks z d (s + 1) (stageChannels realArith (exactCos (d + 1 + s)) (exactSin (d + 1 + s))
      (2 ^ (d + 1 + s)) s x) := by
  intro b hb q hq
  have hreven : revBits (d + 1) (2 * b) = revBits d b := by
    rw [revBits, show 2 * b % 2 = 0 by omega, show 2 * b / 2 = b by omega, Nat.mul_zero,
      Nat.zero_add]
  have hrodd : revBits (d + 1) (2 * b + 1) = 2 ^ d + revBits d b := by
    rw [revBits, show (2 * b + 1) % 2 = 1 by omega, show (2 * b + 1) / 2 = b by omega, Nat.mul_one]
  have heven {q : Nat} (hq : q < 2 ^ s) : complexAt x (b * (2 * 2 ^ s) + q) =
      dft s (fun r => z (2 * r * 2 ^ d + revBits d b)) q := by
    rw [show b * (2 * 2 ^ s) = 2 * b * 2 ^ s by ring, h (2 * b) (by omega) q hq, hreven]
    exact congrArg (dft s · q) (funext fun r => congrArg z (by ring))
  have hodd {q : Nat} (hq : q < 2 ^ s) : complexAt x (b * (2 * 2 ^ s) + q + 2 ^ s) =
      dft s (fun r => z ((2 * r + 1) * 2 ^ d + revBits d b)) q := by
    rw [show b * (2 * 2 ^ s) + q + 2 ^ s = (2 * b + 1) * 2 ^ s + q by ring,
      h (2 * b + 1) (by omega) q hq, hrodd]
    exact congrArg (dft s · q) (funext fun r => congrArg z (by ring))
  rw [Nat.pow_succ']
  rcases Nat.lt_or_ge q (2 ^ s) with hlow | hhigh
  · rw [(complexAt_stageChannels hx hb hlow).1, heven hlow, hodd hlow, dft_succ]
  · obtain ⟨p, rfl⟩ := Nat.exists_eq_add_of_le' hhigh
    have hp : p < 2 ^ s := by omega
    rw [← Nat.add_assoc, (complexAt_stageChannels hx hb hp).2, heven hp, hodd hp,
      dft_succ_add_half]

/-! ### The network -/

theorem holdsBlocks_networkBefore {m : Nat} {x : Channels ℝ} (hx : x.HasLength (2 ^ m)) {d s : Nat}
    (hm : d + s = m) : HoldsBlocks (complexAt x) d s
      (networkBefore realArith (exactCos m) (exactSin m) m (2 ^ m) s x) := by
  induction s generalizing d with
  | zero =>
    obtain rfl : d = m := hm
    exact holdsBlocks_bitrevChannels hx
  | succ s ih =>
    obtain rfl : d + 1 + s = m := by omega
    rw [networkBefore_succ]
    exact holdsBlocks_stageChannels (hasLength_networkBefore _ _ _ _ _ hx s) (ih rfl)

/-- After all stages one block is left. -/
theorem complexAt_fftChannels {m k : Nat} {x : Channels ℝ} (hx : x.HasLength (2 ^ m))
    (hk : k < 2 ^ m) :
    complexAt (fftChannels realArith (exactCos m) (exactSin m) m (2 ^ m) x) k =
      dft m (complexAt x) k := by
  have hblock := holdsBlocks_networkBefore hx (Nat.zero_add m) 0 Nat.one_pos k hk
  simpa [revBits, fftChannels_eq_networkBefore] using hblock

/-- The two parts of the transform, as sums of real products. -/
theorem dft_parts (m : Nat) (re im : Nat → ℝ) (k : Nat) :
    dft m (fun n => ⟨re n, im n⟩) k =
      ⟨∑ n ∈ Finset.range (2 ^ m), (re n * Real.cos (2 * Real.pi * (k * n) / 2 ^ m) +
          im n * Real.sin (2 * Real.pi * (k * n) / 2 ^ m)),
        ∑ n ∈ Finset.range (2 ^ m), (im n * Real.cos (2 * Real.pi * (k * n) / 2 ^ m) -
          re n * Real.sin (2 * Real.pi * (k * n) / 2 ^ m))⟩ := by
  have hterm (n : Nat) : (⟨re n, im n⟩ : ℂ) * dftRoot m ^ (k * n) =
      ⟨re n * Real.cos (2 * Real.pi * (k * n) / 2 ^ m) +
          im n * Real.sin (2 * Real.pi * (k * n) / 2 ^ m),
        im n * Real.cos (2 * Real.pi * (k * n) / 2 ^ m) -
          re n * Real.sin (2 * Real.pi * (k * n) / 2 ^ m)⟩ := by
    rw [dftRoot_pow, Real.cos_neg, Real.sin_neg, Nat.cast_mul]
    refine Complex.ext ?_ ?_
    · simp
    · simp
      ring
  simp only [dft, hterm]
  exact Complex.ext (Complex.re_sum _ _) (Complex.im_sum _ _)

/-- Settles O40: stage by stage the blocks hold transforms of twice the length. -/
theorem butterflyNetworkIsTheDft : Obligations.ButterflyNetworkIsTheDft := by
  intro m re im _ hre him
  have hx : (⟨re, im⟩ : Channels ℝ).HasLength (2 ^ m) := ⟨hre, him⟩
  obtain ⟨hyre, hyim⟩ := hasLength_fftChannels realArith (exactCos m) (exactSin m) m (2 ^ m) hx
  refine ⟨_, rfl, hyre, hyim, fun k hk => ?_⟩
  have hpoint := (complexAt_fftChannels hx hk).trans (dft_parts m (re.getD · 0) (im.getD · 0) k)
  exact ⟨congrArg Complex.re hpoint, congrArg Complex.im hpoint⟩

end Sys2Proof.Machine

/-! ## Magnitude and window (41_magnitude R99 to R102) -/

namespace Sys2Proof.Machine

/-! ### The arrays that `MAG` and `EXTRACT` store -/

theorem elemAt_zipWith (f : F64 → F64 → F64) {xs ys : List F64} {i : Nat} (hx : i < xs.length)
    (hy : i < ys.length) :
    elemAt 0 (List.zipWith f xs ys) i = f (elemAt 0 xs i) (elemAt 0 ys i) := by
  simp only [elemAt, List.getD_eq_getElem?_getD, List.getElem?_zipWith,
    List.getElem?_eq_getElem hx, List.getElem?_eq_getElem hy, Option.getD_some]

/-- `MAG` stores the magnitudes of the first half of what the spectrum holds. -/
theorem exec_mag_of_holds {s : State} (hvalid : s.cfgValid = true) {x : Channels F64}
    (hx : HoldsSpectrum s (s.n.toNat / 2) x) :
    exec .mag s =
      .next (storeArray Config.magBase (List.zipWith magnitude x.re x.im) s) := by
  rw [exec, execMag, requireCfg_of_valid hvalid, magBody]
  exact withArray_eq_next.2 ⟨x.re, hx.1, withArray_eq_next.2 ⟨x.im, hx.2, rfl⟩⟩

/-- Settles O41: the element at `k` of the stored run is the magnitude of the point at `k`. -/
theorem magComputesTheMagnitudes : Obligations.MagComputesTheMagnitudes := by
  intro s hvalid hre him
  obtain ⟨x, hx⟩ := exists_holdsSpectrum hre him
  obtain ⟨hlre, hlim⟩ := hx.hasLength
  have hlen : (List.zipWith magnitude x.re x.im).length = s.n.toNat / 2 := by
    rw [List.length_zipWith, hlre, hlim, Nat.min_self]
  refine ⟨_, exec_mag_of_holds hvalid hx, fun k hk a b ha hb => ?_,
    sameOutside_storeArray hlen s, rfl⟩
  have hea : elemAt 0 x.re k = a :=
    Option.some.inj ((Memory.readElem_of_readElems hx.1 0 hk).symm.trans ha)
  have heb : elemAt 0 x.im k = b :=
    Option.some.inj ((Memory.readElem_of_readElems hx.2 0 hk).symm.trans hb)
  rw [readElem_storeArray hlen 0 s hk, elemAt_zipWith magnitude (by omega) (by omega), hea, heb,
    magnitude]

theorem windowInRange_iff (s : State) : windowInRange s = true ↔
    33 ≤ s.carrierBin.toNat ∧ s.carrierBin.toNat + 33 + 1 ≤ s.n.toNat / 2 := by
  rw [windowInRange, Bool.and_eq_true, decide_eq_true_eq, decide_eq_true_eq, Config.winCenter]

/-- `EXTRACT` with the window in range stores the run of magnitudes that the window names. -/
theorem exec_extract_of_readElems {s : State} (hvalid : s.cfgValid = true)
    (hwin : windowInRange s = true) {xs : List F64}
    (hxs : Memory.readElems s.mem Config.magBase (windowStart s) Config.winLen = some xs) :
    exec .extract s = .next (storeArray Config.winBase xs s) := by
  rw [exec, execExtract, requireCfg_of_valid hvalid, requireWindow_of_inRange hwin,
    extractBody, hxs]

/-- Settles O43: the stored run is the run that was read. -/
theorem extractCopiesTheWindow : Obligations.ExtractCopiesTheWindow := by
  intro s hvalid hlo hhi hwritten
  obtain ⟨xs, hxs, hlen⟩ := readElems_of_written hwritten
  have hread := ((Memory.readElems_eq_some _ _ _ _ _).1 hxs).2
  refine ⟨_, exec_extract_of_readElems hvalid ((windowInRange_iff s).2 ⟨hlo, hhi⟩) hxs,
    fun j hj => ?_, sameOutside_storeArray hlen s, rfl⟩
  rw [readElem_storeArray hlen 0 s hj, hread j (by omega), elemAt, List.getD_eq_getElem]

/-! ### The sign of the magnitude

No square, no sum of squares and no root of such a sum has its sign bit set; the canonical NaN has
it clear too. -/

/-- An encoding is a NaN, a number or an infinity. -/
theorem isNaN_or_isFinite_or_eq_infOf (x : F64) :
    isNaN x = true ∨ isFinite x = true ∨ x = infOf x.msb := by
  cases hn : isNaN x
  case true => exact .inl rfl
  case false =>
    cases hf : isFinite x
    case true => exact .inr (.inl rfl)
    case false => exact .inr (.inr (eq_infOf hf hn))

theorem isNaN_infOf (neg : Bool) : isNaN (infOf neg) = false := isNaN_packSign le_rfl

theorem msb_roundDyadic (neg : Bool) (m : Nat) (q : Int) : (roundDyadic neg m q).msb = neg := by
  rw [roundDyadic_eq, msb_packSign _ (by omega)]

theorem isNaN_roundDyadic (neg : Bool) (m : Nat) (q : Int) :
    isNaN (roundDyadic neg m q) = false := by
  rw [roundDyadic_eq, isNaN_packSign (min_le_right _ _)]

theorem f64Value_nonneg {x : F64} (hx : isFinite x = true) (hmsb : x.msb = false) :
    0 ≤ f64Value x := by
  rw [f64Value_of_isFinite hx, signedUnits, hmsb, withSign_false]
  positivity

theorem fmul_infOf_self (neg : Bool) : fmul (infOf neg) (infOf neg) = infOf false := by
  rw [fmul_infOf_infOf, Bool.xor_self]

theorem msb_fmul_self (x : F64) : (fmul x x).msb = false := by
  obtain hn | hf | hinf := isNaN_or_isFinite_or_eq_infOf x
  · rw [fmul_of_isNaN (.inl hn)]
    rfl
  · obtain ⟨neg, m, q, -, hneg, heq⟩ := fmul_of_isFinite hf hf
    rw [heq, msb_roundDyadic, hneg, Bool.xor_self]
  · rw [hinf, fmul_infOf_self, msb_infOf]

theorem isNaN_fmul_self {x : F64} (hx : isNaN x = false) : isNaN (fmul x x) = false := by
  cases hf : isFinite x
  case true =>
    obtain ⟨neg, m, q, -, -, heq⟩ := fmul_of_isFinite hf hf
    rw [heq, isNaN_roundDyadic]
  case false => rw [eq_infOf hf hx, fmul_infOf_self, isNaN_infOf]

/-- An infinite term that is not negative outweighs every other one. -/
theorem fadd_infOf_false {b : F64} (hnan : isNaN b = false) (hmsb : b.msb = false) :
    fadd (infOf false) b = infOf false ∧ fadd b (infOf false) = infOf false := by
  cases hf : isFinite b
  case true => exact fadd_infOf_finite false hf
  case false =>
    rw [eq_infOf hf hnan, hmsb, fadd_infOf_infOf, if_pos rfl]
    exact ⟨rfl, rfl⟩

theorem msb_fadd_of_isFinite {a b : F64} (hfa : isFinite a = true) (hfb : isFinite b = true)
    (ha : a.msb = false) (hb : b.msb = false) : (fadd a b).msb = false := by
  obtain ⟨v, e, hv, heq⟩ := fadd_of_isFinite hfa hfb
  have hv0 : 0 ≤ v := by
    have hsum := add_nonneg (f64Value_nonneg hfa ha) (f64Value_nonneg hfb hb)
    rw [← hv, mul_nonneg_iff_of_pos_right (by positivity)] at hsum
    exact_mod_cast hsum
  rw [heq]
  split
  · rw [ha, hb]
    rfl
  · rw [msb_roundDyadic, decide_eq_false hv0.not_gt]

theorem msb_fadd {a b : F64} (ha : a.msb = false) (hb : b.msb = false) :
    (fadd a b).msb = false := by
  obtain hna | hfa | hinfa := isNaN_or_isFinite_or_eq_infOf a
  · rw [fadd_of_isNaN (.inl hna)]
    rfl
  · obtain hnb | hfb | hinfb := isNaN_or_isFinite_or_eq_infOf b
    · rw [fadd_of_isNaN (.inr hnb)]
      rfl
    · exact msb_fadd_of_isFinite hfa hfb ha hb
    · rw [hinfb, hb, (fadd_infOf_finite false hfa).2, msb_infOf]
  · cases hnb : isNaN b
    case true =>
      rw [fadd_of_isNaN (.inr hnb)]
      rfl
    case false => rw [hinfa, ha, (fadd_infOf_false hnb hb).1, msb_infOf]

theorem msb_fsqrt {a : F64} (ha : a.msb = false) : (fsqrt a).msb = false := by
  obtain hn | hf | hinf := isNaN_or_isFinite_or_eq_infOf a
  · rw [fsqrt_of_isNaN hn]
    rfl
  · rw [fsqrt_of_isFinite hf, ha, if_neg Bool.false_ne_true]
    split
    · rfl
    · rw [sqrtFinite_eq, msb_roundDyadic]
  · rw [hinf, ha]
    rfl

/-! ### The corner cases of the magnitude -/

/-- The square of either zero is +0.0. -/
theorem fmul_self_of_f64Value_eq_zero {x : F64} (hf : isFinite x = true) (h : f64Value x = 0) :
    fmul x x = 0 := by
  have hzero : x = zeroOf x.msb := eq_packSign_of_magnitudeBits ((f64Value_eq_zero hf).1 h)
  rw [hzero]
  cases x.msb <;> rfl

theorem magnitude_of_zeros {x y : F64} (hfx : isFinite x = true) (hx : f64Value x = 0)
    (hfy : isFinite y = true) (hy : f64Value y = 0) : magnitude x y = 0 := by
  rw [magnitude, fmul_self_of_f64Value_eq_zero hfx hx, fmul_self_of_f64Value_eq_zero hfy hy]
  rfl

theorem msb_magnitude (x y : F64) : (magnitude x y).msb = false :=
  msb_fsqrt (msb_fadd (msb_fmul_self x) (msb_fmul_self y))

theorem magnitude_of_isNaN {x y : F64} (h : isNaN x = true ∨ isNaN y = true) :
    magnitude x y = canonicalNaN := by
  have hsquare {z : F64} (hz : isNaN z = true) : isNaN (fmul z z) = true := by
    rw [fmul_of_isNaN (.inl hz)]
    rfl
  rw [magnitude, fadd_of_isNaN (h.imp hsquare hsquare)]
  rfl

theorem magnitude_of_infinite {x y : F64} (hx : isNaN x = false) (hy : isNaN y = false)
    (h : isFinite x = false ∨ isFinite y = false) : magnitude x y = infOf false := by
  rw [magnitude]
  rcases h with h | h
  · rw [eq_infOf h hx, fmul_infOf_self,
      (fadd_infOf_false (isNaN_fmul_self hy) (msb_fmul_self y)).1]
    rfl
  · rw [eq_infOf h hy, fmul_infOf_self,
      (fadd_infOf_false (isNaN_fmul_self hx) (msb_fmul_self x)).2]
    rfl

/-- Settles O42: the sign bit is clear throughout, and a NaN root is the canonical one. -/
theorem magnitudeCornerCases : Obligations.MagnitudeCornerCases := by
  refine fun x y => ⟨fun hx hy hfx hfy => magnitude_of_zeros hfx hx hfy hy, ?_,
    magnitude_of_isNaN, fun hx hy h => (magnitude_of_infinite hx hy h).trans (infOf_eq false)⟩
  cases hnan : isNaN (magnitude x y)
  case true => exact .inl (nanIsCanonical_fsqrt _ hnan)
  case false => exact .inr ⟨hnan, msb_magnitude x y⟩

end Sys2Proof.Machine

/-! ## The band analyzer (42_band_analyzer R103 to R116)

The right walk is the left walk of the mirrored window, and a peak scan keeps the ends of the list of
the indices that qualify. -/

namespace Sys2Proof.Machine

/-! ### The commands -/

/-- The state that an analysis of `win` leaves (R113). -/
def analyzed (s : State) (win : List F64) : State :=
  { initBaseline s with
    results := analysisResults win (initBaseline s).baseLeft.toNat (initBaseline s).baseRight.toNat }

@[simp] theorem analyzed_results (s : State) (win : List F64) : (analyzed s win).results =
    analysisResults win (analyzed s win).baseLeft.toNat (analyzed s win).baseRight.toNat := rfl

/-- With its window written, `ANALYZE` completes, on the bins that the memory holds. -/
theorem exec_analyze_of_written {s : State} (h : Written s Config.winBase 0 67) :
    ∃ win : List F64, win.length = 67 ∧ (∀ i < 67, winBin s i = bin win i) ∧
      exec .analyze s = .next (analyzed s win) := by
  obtain ⟨win, hlen, hwin, hrun⟩ := withArray_of_written h fun win => .next (analyzed s win)
  refine ⟨win, hlen, fun i hi => ?_, hrun⟩
  rw [winBin, Memory.readElem_of_readElems hwin 0 hi, Option.getD_some, bin]

theorem initBaseline_eq (s : State) : initBaseline s =
    { s with
      baseInit := true
      baseLeft := if s.baseInit then s.baseLeft else 4
      baseRight := if s.baseInit then s.baseRight else 5 } := by
  rw [initBaseline]
  split
  · next h =>
    rw [← h]
  · rfl

/-- Settles O44: the fields of the analysed state, the baseline by whether it was initialised. -/
theorem analyzePublishesThresholdsAndBaseline :
    Obligations.AnalyzePublishesThresholdsAndBaseline := by
  intro s hwritten
  obtain ⟨win, -, hbin, hrun⟩ := exec_analyze_of_written hwritten
  refine ⟨_, hrun, rfl, ?_⟩
  rw [hbin 33 (by norm_num)]
  exact ⟨rfl, rfl, rfl,
    congrArg (fun u : State => { u with results := (analyzed s win).results }) (initBaseline_eq s)⟩

/-- Settles O51: `NEWSES` has this one effect. -/
theorem newsesClearsTheBaseline : Obligations.NewsesClearsTheBaseline := fun _ => rfl

/-! ### The mirrored window -/

theorem bin_reverse {win : List F64} (hlen : win.length = 67) {i : Nat} (hi : i ≤ 66) :
    bin win.reverse i = bin win (66 - i) := by
  rw [bin, bin, elemAt, elemAt, List.getD_reverse i (by omega), hlen]

/-- The carrier is the middle bin, so both windows have the same thresholds. -/
theorem peakStrength_reverse {win : List F64} (hlen : win.length = 67) :
    peakStrength win.reverse = peakStrength win := bin_reverse hlen (by decide)

theorem leftWalk_reverse {win : List F64} (hlen : win.length = 67) (thr : F64) {k : Nat}
    (hk : k ≤ 67) (band : Nat) : leftWalk win.reverse thr k band =
      ((rightWalk win thr k band).1, 66 - ((rightWalk win thr k band).2 : Int)) := by
  induction k generalizing band with
  | zero => rfl
  | succ k ih =>
    rw [leftWalk, rightWalk, bin_reverse hlen (by omega)]
    split
    · exact ih (by omega) (band + 1)
    · rw [Nat.cast_sub (by omega), Nat.cast_ofNat, sub_sub_cancel]

theorem leftBand_reverse {win : List F64} (hlen : win.length = 67) :
    leftBand win.reverse = ((rightBand win).1, 66 - ((rightBand win).2 : Int)) := by
  rw [leftBand, threshold, peakStrength_reverse hlen]
  exact leftWalk_reverse hlen _ (by norm_num) 0

/-! ### The bands -/

/-- The bins that the left walk passes qualify, and the one that it stops at does not. -/
theorem leftWalk_run (win : List F64) (thr : F64) (k band : Nat) :
    (∀ i < k, k + band ≤ i + (leftWalk win thr k band).1 → fge (bin win i) thr = true) ∧
      ((leftWalk win thr k band).1 < k + band →
        fge (bin win (k + band - 1 - (leftWalk win thr k band).1)) thr = false) := by
  induction k generalizing band with
  | zero =>
    refine ⟨nofun, fun h => ?_⟩
    rw [leftWalk] at h
    omega
  | succ k ih =>
    rw [leftWalk]
    split
    · next hk =>
      obtain ⟨hpassed, hstop⟩ := ih (band + 1)
      rw [show k + (band + 1) = k + 1 + band by omega] at hpassed hstop
      refine ⟨fun i hi h => ?_, hstop⟩
      obtain rfl | hi := Nat.eq_or_lt_of_le (Nat.lt_succ_iff.1 hi)
      · exact hk
      · exact hpassed i hi h
    · next hk =>
      refine ⟨fun i hi h => by omega, fun _ => ?_⟩
      rw [show k + 1 + band - 1 - band = k by omega]
      exact Bool.eq_false_iff.2 hk

theorem leftBand_run (win : List F64) :
    (∀ i, 33 ≤ i + (leftBand win).1 → i ≤ 32 → fge (bin win i) (threshold win) = true) ∧
      ((leftBand win).1 < 33 →
        fge (bin win (32 - (leftBand win).1)) (threshold win) = false) := by
  obtain ⟨hpassed, hstop⟩ := leftWalk_run win (threshold win) 33 0
  exact ⟨fun i h hi => hpassed i (by omega) h, hstop⟩

theorem rightBand_run {win : List F64} (hlen : win.length = 67) :
    (∀ i, 34 ≤ i → i ≤ 33 + (rightBand win).1 → fge (bin win i) (threshold win) = true) ∧
      ((rightBand win).1 < 33 →
        fge (bin win (34 + (rightBand win).1)) (threshold win) = false) := by
  obtain ⟨hpassed, hstop⟩ := leftBand_run win.reverse
  obtain ⟨hband, -⟩ := rightBand_range win
  rw [leftBand_reverse hlen, threshold, peakStrength_reverse hlen, ← threshold] at hpassed hstop
  refine ⟨fun i hlo hhi => ?_, fun h => ?_⟩
  · have hq := hpassed (66 - i) (by dsimp only; omega) (by omega)
    rwa [bin_reverse hlen (by omega), show 66 - (66 - i) = i by omega] at hq
  · have hq := hstop h
    rwa [bin_reverse hlen (by omega),
      show 66 - (32 - (rightBand win).1) = 34 + (rightBand win).1 by omega] at hq

/-! ### The peaks -/

/-- The scan whose qualifying indices are the listed ones. -/
def PeakScan.ofList : List Nat → PeakScan
  | [] => .empty
  | i :: is => ⟨true, i, ((i :: is).getLast (List.cons_ne_nil i is) : Nat)⟩

theorem PeakScan.ofList_concat (is : List Nat) (i : Nat) : PeakScan.ofList (is ++ [i]) =
    ⟨true, if (PeakScan.ofList is).found then (PeakScan.ofList is).first else i, i⟩ := by
  cases is with
  | nil => rfl
  | cons j is => simp [PeakScan.ofList]

/-- A scan keeps the first and the last of the indices that qualify. -/
theorem peakScan_eq_ofList (win : List F64) (is : List Nat) : peakScan win is =
    .ofList (is.filter fun i => fge (bin win i) (peakThreshold win)) := by
  rw [peakScan]
  induction is using List.reverseRecOn with
  | nil => rfl
  | append_singleton is i ih =>
    rw [List.foldl_append, ih, List.foldl_cons, List.foldl_nil, peakTurn, List.filter_append]
    cases h : fge (bin win i) (peakThreshold win)
    case true =>
      rw [if_pos rfl, List.filter_cons_of_pos (by exact h), List.filter_nil, PeakScan.ofList_concat]
    case false =>
      rw [if_neg Bool.false_ne_true, List.filter_cons_of_neg (by simp [h]), List.filter_nil,
        List.append_nil]

/-- The scan found a peak exactly when an index in its range qualifies, and then its ends are the
ends, in the order `R` of the scan, of the indices that do. -/
def PeakScan.Spans (R : Nat → Nat → Prop) (q : Nat → Prop) (p : PeakScan) : Prop :=
  (p.found = true ↔ ∃ i, q i) ∧
  (p.found = true → ∃ i j : Nat, p.first = i ∧ p.last = j ∧ q i ∧ q j ∧ ∀ k, q k → R i k ∧ R k j) ∧
  (p.found = false → p.first = -1 ∧ p.last = -1)

theorem spans_ofList {R : Nat → Nat → Prop} [Std.Refl R] {is : List Nat} (h : is.Pairwise R) :
    (PeakScan.ofList is).Spans R (· ∈ is) := by
  cases is with
  | nil => exact ⟨by simp [PeakScan.ofList, PeakScan.empty], nofun, fun _ => ⟨rfl, rfl⟩⟩
  | cons i is =>
    refine ⟨iff_of_true rfl ⟨i, List.mem_cons_self⟩, fun _ => ?_, nofun⟩
    exact ⟨i, _, rfl, rfl, List.mem_cons_self, List.getLast_mem _,
      fun k hk => ⟨h.rel_head hk, h.rel_getLast hk⟩⟩

theorem spans_peakScan {R : Nat → Nat → Prop} [Std.Refl R] (win : List F64) {is : List Nat}
    (h : is.Pairwise R) : (peakScan win is).Spans R
      fun i => i ∈ is ∧ fge (bin win i) (peakThreshold win) = true := by
  rw [peakScan_eq_ofList]
  simpa only [List.mem_filter] using spans_ofList (h.filter _)

theorem spans_leftPeak (win : List F64) : (leftPeak win).Spans (· ≥ ·)
    fun i => (i : Int) < (leftBand win).2 ∧ fge (bin win i) (peakThreshold win) = true := by
  have h := spans_peakScan win (R := (· ≥ ·)) (is := (List.range (leftBand win).2.toNat).reverse)
    (List.pairwise_reverse.2 List.pairwise_le_range)
  simpa only [leftPeak, List.mem_reverse, List.mem_range, Int.lt_toNat] using h

theorem spans_rightPeak (win : List F64) : (rightPeak win).Spans (· ≤ ·)
    fun i => (rightBand win).2 < i ∧ i ≤ 66 ∧ fge (bin win i) (peakThreshold win) = true := by
  have h := spans_peakScan win (R := (· ≤ ·)) (List.pairwise_le_range'
    (s := (rightBand win).2 + 1) (n := 66 - (rightBand win).2))
  have hmem (i : Nat) : i ∈ List.range' ((rightBand win).2 + 1) (66 - (rightBand win).2) ↔
      (rightBand win).2 < i ∧ i ≤ 66 := by
    rw [List.mem_range'_1]
    omega
  simpa only [rightPeak, hmem, and_assoc] using h

/-! ### The published words -/
section Published
variable (win : List F64) (baseL baseR : Nat)

@[simp] theorem lband_analysisResults :
    (analysisResults win baseL baseR).lband.toNat = (leftBand win).1 := by
  obtain ⟨h, -⟩ := leftBand_range win
  exact toNat_ofNat_index (by omega)

@[simp] theorem rband_analysisResults :
    (analysisResults win baseL baseR).rband.toNat = (rightBand win).1 := by
  obtain ⟨h, -⟩ := rightBand_range win
  exact toNat_ofNat_index (by omega)

@[simp] theorem lptr_analysisResults :
    (analysisResults win baseL baseR).lptr.toInt = (leftBand win).2 := by
  obtain ⟨hband, hptr⟩ := leftBand_range win
  exact toInt_ofInt_index (by omega) (by omega)

@[simp] theorem rptr_analysisResults :
    (analysisResults win baseL baseR).rptr.toInt = (rightBand win).2 := by
  obtain ⟨hband, hptr⟩ := rightBand_range win
  simp only [analysisResults, ← BitVec.ofInt_natCast]
  exact toInt_ofInt_index (by omega) (by omega)

@[simp] theorem lpeak_analysisResults :
    (analysisResults win baseL baseR).lpeak = (leftPeak win).found := rfl

@[simp] theorem rpeak_analysisResults :
    (analysisResults win baseL baseR).rpeak = (rightPeak win).found := rfl

/-- With a peak or without, the ends of a scan are small numbers in the scan's order. -/
theorem leftPeak_bounds : -1 ≤ (leftPeak win).last ∧
    (leftPeak win).last ≤ (leftPeak win).first ∧ (leftPeak win).first ≤ 31 := by
  obtain ⟨hfound, hnone⟩ := leftPeak_range win
  cases h : (leftPeak win).found
  case true =>
    have := hfound h
    omega
  case false =>
    have := hnone h
    omega

theorem rightPeak_bounds : -1 ≤ (rightPeak win).first ∧
    (rightPeak win).first ≤ (rightPeak win).last ∧ (rightPeak win).last ≤ 66 := by
  obtain ⟨hfound, hnone⟩ := rightPeak_range win
  cases h : (rightPeak win).found
  case true =>
    have := hfound h
    omega
  case false =>
    have := hnone h
    omega

@[simp] theorem lstart_analysisResults :
    (analysisResults win baseL baseR).lstart.toInt = (leftPeak win).first := by
  have := leftPeak_bounds win
  exact toInt_ofInt_index (by omega) (by omega)

@[simp] theorem lend_analysisResults :
    (analysisResults win baseL baseR).lend.toInt = (leftPeak win).last := by
  have := leftPeak_bounds win
  exact toInt_ofInt_index (by omega) (by omega)

@[simp] theorem rstart_analysisResults :
    (analysisResults win baseL baseR).rstart.toInt = (rightPeak win).first := by
  have := rightPeak_bounds win
  exact toInt_ofInt_index (by omega) (by omega)

@[simp] theorem rend_analysisResults :
    (analysisResults win baseL baseR).rend.toInt = (rightPeak win).last := by
  have := rightPeak_bounds win
  exact toInt_ofInt_index (by omega) (by omega)

/-- The rule that fires and the bin that it gives (R111). -/
abbrev located : FreqRule × Int :=
  locateBin (leftBand win).1 (rightBand win).1 baseL baseR (leftPeak win) (rightPeak win)

@[simp] theorem estBin_analysisResults :
    (analysisResults win baseL baseR).estBin.toInt = (located win baseL baseR).2 := by
  obtain ⟨hlo, hhi⟩ := locateBin_range win baseL baseR
  exact toInt_ofInt_index (by omega) (by omega)

variable {win baseL baseR}

theorem bin_analysisResults {rule : FreqRule} {b : Int} (h : located win baseL baseR = (rule, b)) :
    (analysisResults win baseL baseR).rule = rule ∧
      (analysisResults win baseL baseR).estBin = BitVec.ofInt 32 b ∧
      (analysisResults win baseL baseR).freq = BitVec.ofInt 32 (freqHz b) :=
  ⟨congrArg Prod.fst h, congrArg (fun l : FreqRule × Int => BitVec.ofInt 32 l.2) h,
    congrArg (fun l : FreqRule × Int => BitVec.ofInt 32 (freqHz l.2)) h⟩

end Published

/-- Settles O45: each walk passes the bins that qualify and stops at the first that does not. -/
theorem bandsAreTheQualifyingRuns : Obligations.BandsAreTheQualifyingRuns := by
  intro s hwritten
  obtain ⟨win, hlen, hbin, hrun⟩ := exec_analyze_of_written hwritten
  obtain ⟨hlband, hlptr⟩ := leftBand_range win
  obtain ⟨hrband, hrptr⟩ := rightBand_range win
  obtain ⟨hlpassed, hlstop⟩ := leftBand_run win
  obtain ⟨hrpassed, hrstop⟩ := rightBand_run hlen
  refine ⟨_, hrun, ?_⟩
  simp only [analyzed_results, lband_analysisResults, rband_analysisResults, lptr_analysisResults,
    rptr_analysisResults]
  refine ⟨⟨hlband, hlptr, fun i hlo hhi => ?_, fun h => ?_⟩, hrband, by omega,
    fun i hlo hhi => ?_, fun h => ?_⟩ <;> rw [hbin _ (by omega)]
  · exact hlpassed i hlo hhi
  · exact hlstop h
  · exact hrpassed i hlo hhi
  · exact hrstop h

theorem PeakScan.Spans.congr {R : Nat → Nat → Prop} {q q' : Nat → Prop} {p : PeakScan}
    (h : p.Spans R q) (hq : ∀ i, q i ↔ q' i) : p.Spans R q' :=
  (funext fun i => propext (hq i) : q = q') ▸ h

/-- Settles O46: each scan runs over its indices in order, so its ends are the extreme ones. -/
theorem peaksSpanTheQualifyingBins : Obligations.PeaksSpanTheQualifyingBins := by
  intro s hwritten
  obtain ⟨win, -, hbin, hrun⟩ := exec_analyze_of_written hwritten
  obtain ⟨hlband, hlptr⟩ := leftBand_range win
  have hleft := (spans_leftPeak win).congr
    (q' := fun i => (i : Int) < (leftBand win).2 ∧ fge (winBin s i) (peakThreshold win) = true)
    fun i => and_congr_right fun hi => by rw [hbin i (by omega)]
  have hright := (spans_rightPeak win).congr
    (q' := fun i => (rightBand win).2 < i ∧ i ≤ 66 ∧ fge (winBin s i) (peakThreshold win) = true)
    fun i => and_congr_right fun _ => and_congr_right fun hi => by rw [hbin i (by omega)]
  obtain ⟨hlfound, hlspan, hlnone⟩ := hleft
  obtain ⟨hrfound, hrspan, hrnone⟩ := hright
  refine ⟨_, hrun, ?_⟩
  simp only [analyzed_results, lptr_analysisResults, rptr_analysisResults, lpeak_analysisResults,
    rpeak_analysisResults, lstart_analysisResults, lend_analysisResults, rstart_analysisResults,
    rend_analysisResults, Nat.cast_lt]
  refine ⟨hlfound, fun h => ?_, hlnone, hrfound, fun h => ?_, hrnone⟩
  · obtain ⟨i, j, hi, hj, ⟨hilt, hiq⟩, ⟨-, hjq⟩, hall⟩ := hlspan h
    exact ⟨i, j, hi, hj, hilt, hiq, hjq, fun k hk hkq => (hall k ⟨hk, hkq⟩).symm⟩
  · obtain ⟨i, j, hi, hj, ⟨hilt, -, hiq⟩, ⟨-, hjle, hjq⟩, hall⟩ := hrspan h
    exact ⟨i, j, hi, hj, hilt, hjle, hiq, hjq, fun k hk hk66 hkq => hall k ⟨hk, hk66, hkq⟩⟩

/-! ### The classification and the bin -/

theorem classifyGesture_eq_push_iff (lBand rBand baseL baseR : Nat) (lPeak rPeak : Bool) :
    classifyGesture lBand rBand baseL baseR lPeak rPeak = .push ↔
      baseR < rBand ∨ rPeak = true := by
  rw [classifyGesture]
  split
  · next h => exact iff_of_true rfl h
  · next h =>
    refine iff_of_false ?_ h
    split <;> nofun

theorem classifyGesture_eq_pull_iff (lBand rBand baseL baseR : Nat) (lPeak rPeak : Bool) :
    classifyGesture lBand rBand baseL baseR lPeak rPeak = .pull ↔
      ¬ (baseR < rBand ∨ rPeak = true) ∧ (baseL < lBand ∨ lPeak = true) := by
  rw [classifyGesture]
  split
  · next h => exact iff_of_false nofun fun hn => hn.1 h
  · next h =>
    rw [and_iff_right h]
    split
    · next hl => exact iff_of_true rfl hl
    · next hl => exact iff_of_false nofun hl

/-- A peak's width is not negative, so halving it rounds down. -/
theorem located_eq (win : List F64) (baseL baseR : Nat) : located win baseL baseR =
    if baseL < (leftBand win).1 then (.a, 33 - ((leftBand win).1 : Int))
    else if baseR < (rightBand win).1 then (.b, 33 + ((rightBand win).1 : Int))
    else if (leftPeak win).found = true then
      (.c, (leftPeak win).first - ((leftPeak win).first - (leftPeak win).last) / 2)
    else if (rightPeak win).found = true then
      (.d, (rightPeak win).first + ((rightPeak win).last - (rightPeak win).first) / 2)
    else (.e, 33) := by
  have hleft := leftPeak_bounds win
  have hright := rightPeak_bounds win
  rw [located, locateBin, Int.tdiv_eq_ediv_of_nonneg (by omega),
    Int.tdiv_eq_ediv_of_nonneg (by omega)]

/-- Settles O47: the direction and the bin are computed from the published bands and peaks. -/
theorem directionAndBinFollowTheRules : Obligations.DirectionAndBinFollowTheRules := by
  intro s hwritten
  obtain ⟨win, -, -, hrun⟩ := exec_analyze_of_written hwritten
  refine ⟨_, hrun, ?_⟩
  simp only [analyzed_results, lband_analysisResults, rband_analysisResults, lpeak_analysisResults,
    rpeak_analysisResults, lstart_analysisResults, lend_analysisResults, rstart_analysisResults,
    rend_analysisResults, estBin_analysisResults]
  refine ⟨classifyGesture_eq_push_iff _ _ _ _ _ _, classifyGesture_eq_pull_iff _ _ _ _ _ _, ?_⟩
  rw [show (analysisResults win _ _).rule = (located win _ _).1 from rfl, located_eq]
  split_ifs <;> exact ⟨rfl, rfl⟩

/-- Settles O48, by the invariant of the published frequency. -/
theorem frequencyFollowsTheBin : Obligations.FrequencyFollowsTheBin := by
  refine ⟨fun s hwritten => ?_, rfl, rfl, fun k => ?_⟩
  · obtain ⟨win, -, -, hrun⟩ := exec_analyze_of_written hwritten
    obtain ⟨hbin, hq10, hhz, -⟩ := frequencyInv_analysisResults win
      (analyzed s win).baseLeft.toNat (analyzed s win).baseRight.toNat
    exact ⟨_, hrun, hbin, hq10, hhz⟩
  · rw [freqQ10_eq, freqQ10_eq]
    ring

/-! ### The mirrored scans -/

/-- The mirror image of a list of indices has the mirrored ends. -/
theorem ofList_mirror {is : List Nat} (h : ∀ i ∈ is, i ≤ 66) :
    (PeakScan.ofList (is.map (66 - ·))).found = (PeakScan.ofList is).found ∧
      ((PeakScan.ofList is).found = true →
        (PeakScan.ofList (is.map (66 - ·))).first = 66 - (PeakScan.ofList is).first ∧
        (PeakScan.ofList (is.map (66 - ·))).last = 66 - (PeakScan.ofList is).last) := by
  cases is with
  | nil => exact ⟨rfl, nofun⟩
  | cons i is =>
    have hlast := h _ (List.getLast_mem (List.cons_ne_nil i is))
    refine ⟨rfl, fun _ => ⟨Nat.cast_sub (h i List.mem_cons_self), ?_⟩⟩
    rw [← Nat.cast_ofNat (R := Int), PeakScan.ofList, ← Nat.cast_sub hlast]
    exact congrArg Nat.cast (List.getLast_map (l := i :: is) (by simp))

theorem peakScan_reverse {win : List F64} (hlen : win.length = 67) {is : List Nat}
    (h : ∀ i ∈ is, i ≤ 66) : peakScan win.reverse (is.map (66 - ·)) = .ofList
      ((is.filter fun i => fge (bin win i) (peakThreshold win)).map (66 - ·)) := by
  rw [peakScan_eq_ofList, List.filter_map, peakThreshold, peakStrength_reverse hlen,
    ← peakThreshold]
  congr 2
  refine List.filter_congr fun i hi => ?_
  have := h i hi
  rw [Function.comp_apply, bin_reverse hlen (by omega), show 66 - (66 - i) = i by omega]

theorem reverse_range_eq_map_range' (r : Nat) : (List.range (66 - (r : Int)).toNat).reverse =
    (List.range' (r + 1) (66 - r)).map (66 - ·) := by
  refine List.ext_getElem ?_ fun i hi hi' => ?_
  · rw [List.length_reverse, List.length_range, List.length_map, List.length_range']
    omega
  · rw [List.length_reverse, List.length_range] at hi
    rw [List.getElem_reverse, List.getElem_range, List.length_range, List.getElem_map,
      List.getElem_range']
    omega

/-- Settles O49: each left scan of the mirrored window is the right one step by step. -/
theorem scansAreMirrorSymmetric : Obligations.ScansAreMirrorSymmetric := by
  intro win hlen
  have hindex : ∀ i ∈ List.range' ((rightBand win).2 + 1) (66 - (rightBand win).2), i ≤ 66 :=
    fun i hi => by
      rw [List.mem_range'_1] at hi
      omega
  rw [leftPeak, leftBand_reverse hlen, reverse_range_eq_map_range', peakScan_reverse hlen hindex,
    rightPeak, peakScan_eq_ofList]
  exact ⟨rfl, rfl, ofList_mirror fun i hi => hindex i (List.mem_of_mem_filter hi)⟩

/-! ### Corner cases (R114) -/

theorem fge_of_isNaN (x : F64) {thr : F64} (h : isNaN thr = true) : fge x thr = false := by
  rw [fge, h, Bool.not_true, Bool.and_false, Bool.false_and]

/-- No bin reaches a threshold that is not a number. -/
theorem scans_of_isNaN {win : List F64} (hlen : win.length = 67)
    (h : isNaN (peakStrength win) = true) :
    ((leftBand win).1 = 0 ∧ (rightBand win).1 = 0) ∧
      (leftPeak win).found = false ∧ (rightPeak win).found = false := by
  have hnan (k x : F64) : fge x (fmul k (peakStrength win)) = false := by
    rw [fmul_of_isNaN (.inr h)]
    exact fge_of_isNaN x rfl
  have hthr (x : F64) : fge x (threshold win) = false := hnan _ x
  have hpth (x : F64) : fge x (peakThreshold win) = false := hnan _ x
  obtain ⟨hlpassed, -⟩ := leftBand_run win
  obtain ⟨hrpassed, -⟩ := rightBand_run hlen
  refine ⟨⟨?_, ?_⟩, ?_, ?_⟩
  · by_contra hne
    exact absurd (hlpassed 32 (by omega) le_rfl) (by simp [hthr])
  · by_contra hne
    exact absurd (hrpassed 34 le_rfl (by omega)) (by simp [hthr])
  · rw [← Bool.not_eq_true, (spans_leftPeak win).1]
    simp [hpth]
  · rw [← Bool.not_eq_true, (spans_rightPeak win).1]
    simp [hpth]

/-- A window whose every bin reaches the threshold has full bands. -/
theorem bands_of_all_fge {win : List F64} (hlen : win.length = 67)
    (h : ∀ i < 67, fge (bin win i) (threshold win) = true) :
    (leftBand win).1 = 33 ∧ (rightBand win).1 = 33 := by
  obtain ⟨hl, -⟩ := leftBand_range win
  obtain ⟨hr, -⟩ := rightBand_range win
  obtain ⟨-, hlstop⟩ := leftBand_run win
  obtain ⟨-, hrstop⟩ := rightBand_run hlen
  constructor <;> by_contra hne
  · exact absurd (hlstop (by omega)) (by simp [h (32 - (leftBand win).1) (by omega)])
  · exact absurd (hrstop (by omega)) (by simp [h (34 + (rightBand win).1) (by omega)])

/-- What is at most a number rounds to at most that number. -/
theorem roundMagnitude_le {m : Nat} {q : Int} {g : Nat}
    (h : (m : ℚ) * 2 ^ (q + 1074) ≤ units g) : roundMagnitude m q ≤ g := by
  obtain ⟨hnear, -⟩ := roundMagnitude_nearest (K := ℚ) m q false g
  rw [withSign_false, Int.cast_natCast] at hnear
  by_contra hlt
  have hstep : (units g : ℚ) < units (roundMagnitude m q) := by
    exact_mod_cast units_strictMono (not_le.1 hlt)
  rw [abs_of_nonpos (by linarith), abs_of_nonpos (by linarith)] at hnear
  linarith

theorem f64Value_kThr_le_one : f64Value Config.kThr ≤ 1 := by
  rw [f64Value, show classify Config.kThr = .finite false 0x1999999999999A (-56) from rfl]
  norm_num

/-- A tenth of a number that is not negative does not exceed it, rounded too. -/
theorem fge_fmul_kThr {p : F64} (hp : isFinite p = true) (h0 : 0 ≤ f64Value p) :
    fge p (fmul Config.kThr p) = true := by
  rcases h0.eq_or_lt with hzero | hpos
  · rw [eq_packSign_of_magnitudeBits ((f64Value_eq_zero hp).1 hzero.symm)]
    cases p.msb <;> rfl
  · obtain ⟨-, hmsb⟩ := (f64Value_sign hp).1 hpos
    obtain ⟨neg, m, q, hvalue, hneg, heq⟩ := fmul_of_isFinite (a := Config.kThr) rfl hp
    obtain rfl : neg = false := by
      rw [hneg, hmsb]
      rfl
    rw [if_neg Bool.false_ne_true, one_mul] at hvalue
    have hunit : (2 : ℚ) ^ (-1074 : Int) * 2 ^ (1074 : Int) = 1 := by
      rw [← zpow_add₀ two_ne_zero, neg_add_cancel, zpow_zero]
    have hle : roundMagnitude m q ≤ magnitudeBits p := roundMagnitude_le <|
      calc (m : ℚ) * 2 ^ (q + 1074) = f64Value Config.kThr * f64Value p * 2 ^ (1074 : Int) := by
            rw [zpow_add₀ two_ne_zero, ← mul_assoc, hvalue]
        _ ≤ f64Value p * 2 ^ (1074 : Int) := by
            gcongr
            exact mul_le_of_le_one_left h0 f64Value_kThr_le_one
        _ = units (magnitudeBits p) := by
            rw [f64Value_of_isFinite hp, mul_assoc, hunit, mul_one, signedUnits, hmsb,
              withSign_false, Int.cast_natCast]
    have hfin := (isFinite_iff p).1 hp
    rw [heq, fge_iff (isNaN_of_isFinite hp) (isNaN_roundDyadic _ _ _), orderKey_eq, orderKey_eq,
      msb_roundDyadic, hmsb, roundDyadic_eq, magnitudeBits_packSign _ (by omega), withSign_false,
      withSign_false]
    omega

/-- The baseline bounds are the calibration constants, or 0. -/
theorem baseline_analyzed_lt {s : State} (h : BaselineInv s) (win : List F64) :
    (analyzed s win).baseLeft.toNat < 33 ∧ (analyzed s win).baseRight.toNat < 33 := by
  obtain ⟨-, hl, hr⟩ | ⟨-, hl, hr⟩ : BaselineInv (analyzed s win) := baselineInv_initBaseline h
  all_goals
    rw [hl, hr]
    decide

/-- Settles O50: a NaN threshold is reached by no bin, and a flat window reaches its own. -/
theorem nanCarrierAndFlatWindow : Obligations.NanCarrierAndFlatWindow := by
  refine ⟨fun s hwritten hnan => ?_, fun s p hbase hp h0 hflat => ?_⟩
  · obtain ⟨win, hlen, hbin, hrun⟩ := exec_analyze_of_written hwritten
    rw [hbin 33 (by norm_num)] at hnan
    obtain ⟨⟨hl, hr⟩, hlp, hrp⟩ := scans_of_isNaN hlen hnan
    obtain ⟨-, hlptr⟩ := leftBand_range win
    obtain ⟨-, hrptr⟩ := rightBand_range win
    rw [hl] at hlptr
    rw [hr] at hrptr
    have hdir (baseL baseR : Nat) : classifyGesture (leftBand win).1 (rightBand win).1 baseL baseR
        (leftPeak win).found (rightPeak win).found = .none := by
      simp [classifyGesture, hl, hr, hlp, hrp]
    obtain ⟨hrule, -, hfreq⟩ := bin_analysisResults (win := win)
      (baseL := (analyzed s win).baseLeft.toNat) (baseR := (analyzed s win).baseRight.toNat)
      (rule := .e) (b := 33) (by simp [located_eq, hl, hr, hlp, hrp])
    exact ⟨_, hrun, congrArg (BitVec.ofNat 32) hl, congrArg (BitVec.ofNat 32) hr,
      congrArg (BitVec.ofInt 32) hlptr, congrArg (BitVec.ofNat 32) hrptr, hlp, hrp, hdir _ _,
      hrule, hfreq.trans (by decide)⟩
  · have hwritten : Written s Config.winBase 0 67 := fun i hi => by
      rw [Nat.zero_add, hflat i hi, Option.isSome_some]
    obtain ⟨win, hlen, hbin, hrun⟩ := exec_analyze_of_written hwritten
    have hwin : ∀ i < 67, bin win i = p := fun i hi => by
      rw [← hbin i hi, winBin, hflat i hi, Option.getD_some]
    obtain ⟨hl, hr⟩ := bands_of_all_fge hlen fun i hi => by
      rw [hwin i hi, threshold, peakStrength, hwin _ (by decide)]
      exact fge_fmul_kThr hp h0
    obtain ⟨hbl, hbr⟩ := baseline_analyzed_lt hbase win
    rw [← hl] at hbl
    rw [← hr] at hbr
    obtain ⟨hrule, hest, hfreq⟩ := bin_analysisResults (win := win) (baseR :=
      (analyzed s win).baseRight.toNat) (b := 0) (by rw [located_eq, if_pos hbl, hl]; rfl)
    exact ⟨_, hrun, congrArg (BitVec.ofNat 32) hl, congrArg (BitVec.ofNat 32) hr,
      (classifyGesture_eq_push_iff _ _ _ _ _ _).2 (.inl hbr), hrule, hest,
      hfreq.trans (by decide)⟩

end Sys2Proof.Machine

/-! ## The sequencing commands (43_sequencing R117, R118)

From a configured state with the window in range each body of `PIPE` leaves such a state, so that
none of the five commands is rejected. On a written frame each body writes what the next one
reads. -/

namespace Sys2Proof.Machine

/-! ### `NOP` -/

/-- Settles O52: the word 0 decodes to `NOP`, and the engine step adds the completion alone. -/
theorem nopOnlyCompletes : Obligations.NopOnlyCompletes := by
  refine fun s => ⟨rfl, fun hmoves hpending => ?_⟩
  obtain ⟨hnop, -⟩ := specWordsDecode
  rw [step_of_engineMoves hmoves]
  exact engineStep_eq_next.2
    ⟨{ s with turns := s.turns.tail }, runPending_of_decode_ok (i := .nop) (hpending ▸ hnop), rfl⟩

/-! ### `PIPE` as a sequence of commands -/

/-- The checks of `PIPE` pass: there is a configuration, and the window is in range (R118). -/
def AcceptsPipe (s : State) : Prop := s.cfgValid = true ∧ windowInRange s = true

theorem acceptsPipe_of_sameButMemory {s t : State} (h : AcceptsPipe s) (ht : SameButMemory s t) :
    AcceptsPipe t := by
  rw [ht]
  exact h

/-- Every state that the outcome goes on to passes the checks of `PIPE`. -/
def LeavesAccepting (o : Result) : Prop := ∀ t, o = .next t → AcceptsPipe t

theorem leavesAccepting_storeArray {s : State} (h : AcceptsPipe s) (base : Nat) (xs : List F64) :
    LeavesAccepting (.next (storeArray base xs s)) := by
  rintro _ ⟨⟩
  exact h

theorem leavesAccepting_withArray {base len : Nat} {s : State} {body : List F64 → Result}
    (hbody : ∀ xs, LeavesAccepting (body xs)) : LeavesAccepting (withArray base len s body) := by
  intro t ht
  obtain ⟨xs, -, ht⟩ := withArray_eq_next.1 ht
  exact hbody xs t ht

theorem leavesAccepting_andThen {o : Result} {f : State → Result} (ho : LeavesAccepting o)
    (hf : ∀ s, AcceptsPipe s → LeavesAccepting (f s)) : LeavesAccepting (andThen o f) := by
  intro t ht
  obtain ⟨s, hs, ht⟩ := andThen_eq_next.1 ht
  exact hf s (ho s hs) t ht

theorem leavesAccepting_zimBody {s : State} (h : AcceptsPipe s) : LeavesAccepting (zimBody s) :=
  leavesAccepting_storeArray h _ _

theorem leavesAccepting_fftBody (s : State) (h : AcceptsPipe s) : LeavesAccepting (fftBody s) :=
  leavesAccepting_withArray fun _ => leavesAccepting_withArray fun _ =>
    leavesAccepting_storeArray (s := storeArray _ _ s) h _ _

theorem leavesAccepting_magBody (s : State) (h : AcceptsPipe s) : LeavesAccepting (magBody s) :=
  leavesAccepting_withArray fun _ => leavesAccepting_withArray fun _ =>
    leavesAccepting_storeArray h _ _

/-- After an outcome that leaves accepting states, effects that agree on those have one outcome. -/
theorem andThen_congr_of_leavesAccepting {o : Result} {f g : State → Result}
    (ho : LeavesAccepting o) (h : ∀ s, AcceptsPipe s → f s = g s) : andThen o f = andThen o g := by
  cases o with
  | next s => exact h s (ho s rfl)
  | fault r => rfl
  | refused r => rfl

theorem exec_extract_of_acceptsPipe {s : State} (h : AcceptsPipe s) :
    exec .extract s = extractBody s := by
  obtain ⟨hvalid, hwin⟩ := h
  rw [exec, execExtract, requireCfg_of_valid hvalid, requireWindow_of_inRange hwin]

theorem exec_pipe_of_acceptsPipe {s : State} (h : AcceptsPipe s) : exec .pipe s =
    andThen (andThen (andThen (andThen (zimBody s) fftBody) magBody) extractBody) analyzeBody := by
  obtain ⟨hvalid, hwin⟩ := h
  rw [exec, execPipe, requireCfg_of_valid hvalid, requireWindow_of_inRange hwin]

/-- Settles O53: from the states that the bodies leave, each command is its body. -/
theorem pipeIsTheCommandSequence : Obligations.PipeIsTheCommandSequence := by
  intro s hvalid hlo hhi
  have h : AcceptsPipe s := ⟨hvalid, (windowInRange_iff s).2 ⟨hlo, hhi⟩⟩
  have hzim := leavesAccepting_zimBody h
  have hfft := leavesAccepting_andThen hzim leavesAccepting_fftBody
  have hmag := leavesAccepting_andThen hfft leavesAccepting_magBody
  have hzimRun : zimBody s = exec .zim s := (requireCfg_of_valid hvalid zimBody).symm
  have hfftRun (t : State) (ht : AcceptsPipe t) : fftBody t = exec .fft t :=
    (requireCfg_of_valid ht.1 fftBody).symm
  have hmagRun (t : State) (ht : AcceptsPipe t) : magBody t = exec .mag t :=
    (requireCfg_of_valid ht.1 magBody).symm
  rw [exec_pipe_of_acceptsPipe h,
    andThen_congr_of_leavesAccepting hmag fun t ht => (exec_extract_of_acceptsPipe ht).symm,
    andThen_congr_of_leavesAccepting hfft hmagRun, andThen_congr_of_leavesAccepting hzim hfftRun,
    hzimRun]
  rfl

/-! ### `PIPE` on a written frame -/

/-- Any part of a run that can be read is written. -/
theorem written_of_readElems {s : State} {base len : Nat} {xs : List F64}
    (h : Memory.readElems s.mem base 0 len = some xs) {i len' : Nat} (hle : i + len' ≤ len) :
    Written s base i len' := fun j hj => by
  rw [Memory.readElem_of_readElems h 0 (by omega), Option.isSome_some]

/-- The state that `ZIM` leaves (40_transform R90). -/
def zeroedIm (s : State) : State :=
  storeArray Config.imBase (List.replicate s.n.toNat 0) s

theorem exec_zim_of_valid {s : State} (hvalid : s.cfgValid = true) :
    exec .zim s = .next (zeroedIm s) := requireCfg_of_valid hvalid zimBody

/-- `ZIM` makes IM written, so that the transform needs no more than the frame (R118). -/
theorem holdsSpectrum_zeroedIm {s : State} (hn : s.n.toNat ≤ 2048) {re : List F64}
    (hre : Memory.readElems s.mem Config.reBase 0 s.n.toNat = some re) :
    HoldsSpectrum (zeroedIm s) s.n.toNat ⟨re, List.replicate s.n.toNat 0⟩ := by
  have hd : Config.reBase + 8 * s.n.toNat ≤ Config.imBase := by
    rw [Config.reBase, Config.imBase]
    omega
  have hzeros := Memory.readElems_writeElems_same s.mem Config.imBase
    (List.replicate s.n.toNat 0)
  rw [List.length_replicate] at hzeros
  exact ⟨Memory.readElems_writeElems_other hre (.inl hd), hzeros⟩

theorem exec_zim_fft_of_written {s : State} (hcfg : ConfigInv s) (hvalid : s.cfgValid = true)
    (hre : Written s Config.reBase 0 s.n.toNat) :
    ∃ x : Channels F64, x.HasLength s.n.toNat ∧
      andThen (exec .zim s) (exec .fft) = .next (storeSpectrum x (zeroedIm s)) := by
  obtain ⟨re, hread, -⟩ := readElems_of_written hre
  have hframe := holdsSpectrum_zeroedIm (n_le_of_configInv hcfg) hread
  refine ⟨_, hasLength_beforeStage (s := zeroedIm s) hframe.hasLength s.log2n.toNat, ?_⟩
  rw [exec_zim_of_valid hvalid, andThen_next]
  exact exec_fft_of_holds (s := zeroedIm s) hvalid hframe

theorem exec_mag_of_written {s : State} (hvalid : s.cfgValid = true)
    (hre : Written s Config.reBase 0 (s.n.toNat / 2))
    (him : Written s Config.imBase 0 (s.n.toNat / 2)) :
    ∃ mags : List F64, mags.length = s.n.toNat / 2 ∧
      exec .mag s = .next (storeArray Config.magBase mags s) := by
  obtain ⟨x, hx⟩ := exists_holdsSpectrum hre him
  obtain ⟨hlre, hlim⟩ := hx.hasLength
  refine ⟨_, ?_, exec_mag_of_holds hvalid hx⟩
  rw [List.length_zipWith, hlre, hlim, Nat.min_self]

/-- The window of an accepted `PIPE` lies inside the magnitudes. -/
theorem exec_extract_of_mags {s : State} (h : AcceptsPipe s) {mags : List F64}
    (hmags : Memory.readElems s.mem Config.magBase 0 (s.n.toNat / 2) = some mags) :
    ∃ win : List F64, win.length = 67 ∧
      exec .extract s = .next (storeArray Config.winBase win s) := by
  obtain ⟨hvalid, hwin⟩ := h
  obtain ⟨hlo, hhi⟩ := (windowInRange_iff s).1 hwin
  have hinside : windowStart s + Config.winLen ≤ s.n.toNat / 2 := by
    rw [windowStart, Config.winCenter, Config.winLen]
    omega
  obtain ⟨win, hread, hlen⟩ := readElems_of_written (written_of_readElems hmags hinside)
  exact ⟨win, hlen, exec_extract_of_readElems hvalid hwin hread⟩

/-- The memory keeps every byte outside the arrays that `PIPE` writes, each inside its length. -/
def SameOutsidePipe (s t : State) : Prop :=
  ∀ a, a < Config.reBase ∨ Config.reBase + 8 * s.n.toNat ≤ a →
    a < Config.imBase ∨ Config.imBase + 8 * s.n.toNat ≤ a →
    a < Config.magBase ∨ Config.magBase + 8 * (s.n.toNat / 2) ≤ a →
    a < Config.winBase ∨ Config.winBase + 8 * 67 ≤ a →
    Memory.getByte t.mem a = Memory.getByte s.mem a

theorem sameButMemory_storeArray {s t : State} (h : SameButMemory s t) (base : Nat)
    (xs : List F64) : SameButMemory s (storeArray base xs t) := by
  rw [h]
  rfl

/-- `ZIM` to `EXTRACT` complete on a written frame: each one's store is what the next one reads. -/
theorem exec_zim_to_extract_of_written {s : State} (hcfg : ConfigInv s) (h : AcceptsPipe s)
    (hre : Written s Config.reBase 0 s.n.toNat) :
    ∃ t, andThen (andThen (andThen (exec .zim s) (exec .fft)) (exec .mag)) (exec .extract) =
        .next t ∧
      Written t Config.winBase 0 67 ∧ SameButMemory s t ∧ SameOutsidePipe s t := by
  obtain ⟨x, hx, hfft⟩ := exec_zim_fft_of_written hcfg h.1 hre
  obtain ⟨hxre, hxim⟩ := holdsSpectrum_storeSpectrum (n_le_of_configInv hcfg) hx (zeroedIm s)
  have hhalf : 0 + s.n.toNat / 2 ≤ s.n.toNat := by omega
  obtain ⟨mags, hmags, hmag⟩ := exec_mag_of_written (s := storeSpectrum x (zeroedIm s)) h.1
    (written_of_readElems hxre hhalf) (written_of_readElems hxim hhalf)
  have hmread := Memory.readElems_writeElems_same (storeSpectrum x (zeroedIm s)).mem Config.magBase
    mags
  rw [hmags] at hmread
  have hsame : SameButMemory s (storeArray Config.magBase mags (storeSpectrum x (zeroedIm s))) :=
    sameButMemory_storeArray (t := storeSpectrum x (zeroedIm s)) rfl _ _
  obtain ⟨win, hwin, hextract⟩ :=
    exec_extract_of_mags (acceptsPipe_of_sameButMemory h hsame) hmread
  have hwread := Memory.readElems_writeElems_same
    (storeArray Config.magBase mags (storeSpectrum x (zeroedIm s))).mem Config.winBase win
  refine ⟨storeArray Config.winBase win (storeArray _ mags (storeSpectrum x (zeroedIm s))), ?_,
    written_of_readElems hwread (by omega), sameButMemory_storeArray hsame _ _,
    fun a hare haim hamag hawin => ?_⟩
  · rw [hfft, andThen_next, hmag, andThen_next, hextract]
  · rw [sameOutside_storeArray hwin _ a hawin, sameOutside_storeArray hmags _ a hamag,
      sameOutsideSpectrum_storeSpectrum hx _ a hare haim, zeroedIm,
      sameOutside_storeArray List.length_replicate s a haim]

/-- Settles O54: the first four commands leave a written window, and the last analyses it. -/
theorem pipeCompletesOnAWrittenFrame : Obligations.PipeCompletesOnAWrittenFrame := by
  intro s hcfg hvalid hlo hhi hre
  obtain ⟨u, hrun, hwritten, hsame, hout⟩ :=
    exec_zim_to_extract_of_written hcfg ⟨hvalid, (windowInRange_iff s).2 ⟨hlo, hhi⟩⟩ hre
  obtain ⟨t, ht, htvalid, -, -, -, hreg⟩ := analyzePublishesThresholdsAndBaseline u hwritten
  have hmem : t.mem = u.mem := by rw [hreg]
  refine ⟨t, ?_, htvalid, by rw [hreg], ?_, fun a => hmem ▸ hout a⟩
  · rw [pipeIsTheCommandSequence s hvalid hlo hhi, hrun, andThen_next, ht]
  · rw [hsame] at hreg
    rw [hmem]
    exact hreg

end Sys2Proof.Machine

/-! ## Operands out of range (40_transform R95, 41_magnitude R101, 43_sequencing R118,
60_exceptions R126)

The check of the operand comes before any access to memory, so a command that fails it leaves
nothing but the recorded error. -/

namespace Sys2Proof.Machine

theorem stageOk_iff (s : State) (st : Nat) : stageOk s st = true ↔ st < s.log2n.toNat := by
  rw [stageOk, decide_eq_true_eq]

theorem requireWindow_of_not_inRange {s : State} (h : ¬ windowInRange s = true)
    (body : State → Result) : requireWindow s body = .next (raise .range s.pending s) := by
  rw [requireWindow, if_neg h, reject]

theorem exec_stage_of_not_ok {s : State} {st : Nat} (hvalid : s.cfgValid = true)
    (hst : ¬ stageOk s st = true) : exec (.stage st) s = .next (raise .range s.pending s) := by
  rw [exec, execStage, requireCfg_of_valid hvalid, if_neg hst, reject]

theorem exec_extract_of_not_inRange {s : State} (hvalid : s.cfgValid = true)
    (hwin : ¬ windowInRange s = true) : exec .extract s = .next (raise .range s.pending s) := by
  rw [exec, execExtract, requireCfg_of_valid hvalid, requireWindow_of_not_inRange hwin]

theorem exec_pipe_of_not_inRange {s : State} (hvalid : s.cfgValid = true)
    (hwin : ¬ windowInRange s = true) : exec .pipe s = .next (raise .range s.pending s) := by
  rw [exec, execPipe, requireCfg_of_valid hvalid, requireWindow_of_not_inRange hwin]

/-- Settles O19: each failed check leaves the state with RANGE raised for the command word. -/
theorem outOfRangeCommandsAreRejected : Obligations.OutOfRangeCommandsAreRejected := by
  intro s hvalid
  have hrecords : Records .range s.pending s (raise .range s.pending s) := records_raise _ _ _
  refine ⟨fun st hst => ?_, fun hout => ?_⟩
  · have hbad : ¬ stageOk s st = true := fun hok => ((stageOk_iff s st).1 hok).not_ge hst
    exact ⟨_, exec_stage_of_not_ok hvalid hbad, hrecords⟩
  · have hwin : ¬ windowInRange s = true := fun hin => hout ((windowInRange_iff s).1 hin)
    exact ⟨⟨_, exec_extract_of_not_inRange hvalid hwin, hrecords⟩,
      ⟨_, exec_pipe_of_not_inRange hvalid hwin, hrecords⟩⟩

end Sys2Proof.Machine

/-! ## The end of a busy window (70_reset_and_hazards R154, 30_encoding R83)

A step of a busy window is the engine's, which ends the window or stops, or the host's, which uses up
one of the finitely many turns. -/

namespace Sys2Proof.Machine

/-! ### The host's operations leave the turns alone -/

@[simp] theorem regWrite_turns (r : Reg) (v : Word) (s : State) :
    (regWrite r v s).turns = s.turns := by
  cases r <;> rfl

@[simp] theorem memWrite_turns (a : Addr) (v : Word) (s : State) :
    (memWrite a v s).turns = s.turns := by
  rcases memWrite_cases a v s with ⟨c, info, -, hw⟩ | ⟨r, -, hw⟩ | ⟨-, hw⟩ | hw <;> rw [hw]
  · exact raise_turns c info s
  · exact regWrite_turns r v s

theorem memRead_turns {a : Addr} {s t : State} {v : Word} (h : memRead a s = .next (v, t)) :
    t.turns = s.turns := by
  rcases memRead_next h with ⟨c, info, -, -, rfl⟩ | ⟨-, rfl⟩ <;> rfl

theorem hostStep_turns {op : HostOp} {s t : State} (h : hostStep op s = .next t) :
    t.turns = s.turns := by
  rcases hostStep_next h with ⟨a, v, -, rfl⟩ | ⟨a, v, u, -, hr, rfl⟩ |
    ⟨a, m, v, w, u, -, hr, rfl⟩ | ⟨-, rfl⟩
  · exact memWrite_turns a v s
  · exact (memRead_turns hr :)
  · split <;> exact (memRead_turns hr :)
  · exact resetBlock_turns s

/-! ### One step of a busy window, and the run -/

theorem step_next_or_uninit (s : State) : (∃ t, step s = .next t) ∨ step s = .fault .uninit := by
  cases h : step s with
  | next t => exact .inl ⟨t, rfl⟩
  | fault r => exact .inr rfl
  | refused r => exact absurd h (neverRefused_step s r)

/-- A step of a busy window ends the window or uses up a turn. -/
theorem step_ends_window_or_uses_turn {s t : State} (hbusy : s.busy = true)
    (h : step s = .next t) : t.busy = false ∨ ∃ g, s.turns = g :: t.turns := by
  rcases step_cases s with ⟨op, rest, ts, -, hturns, -, hs⟩ | ⟨-, hs⟩ | ⟨hidle, -, -⟩
  · rw [hs] at h
    exact .inr ⟨.host, by rw [hostStep_turns h, hturns hbusy]⟩
  · rw [hs] at h
    obtain ⟨u, -, rfl⟩ := engineStep_eq_next.1 h
    exact .inl rfl
  · exact absurd (hbusy.symm.trans hidle) Bool.noConfusion

theorem run_succ_of_next {M : Host.Core} {s t : M.State} (h : M.step s = .next t) (k : Nat) :
    M.run (k + 1) s = M.run k t := by
  rw [Host.Core.run, h]

theorem run_succ_of_fault {M : Host.Core} {s : M.State} {r : M.Fault} (h : M.step s = .fault r)
    (k : Nat) : M.run (k + 1) s = .fault r := by
  rw [Host.Core.run, h]

/-- Settles O8, by induction on the number of turns left, of which each step that leaves the window
open uses up one. -/
theorem busyWindowEnds : Obligations.BusyWindowEnds := by
  intro s hbusy
  induction hlen : s.turns.length using Nat.strong_induction_on generalizing s with
  | _ n ih =>
  rcases step_next_or_uninit s with ⟨t, ht⟩ | hstop
  · have hrun := run_succ_of_next (M := core) ht
    cases hopen : t.busy with
    | false => exact ⟨1, Nat.le_add_left 1 n, .inl ⟨t, hrun 0, hopen⟩⟩
    | true =>
      obtain ⟨g, hg⟩ := (step_ends_window_or_uses_turn hbusy ht).resolve_left (by simp [hopen])
      have hused : n = t.turns.length + 1 := by rw [← hlen, hg, List.length_cons]
      obtain ⟨k, hk, hend⟩ := ih t.turns.length (by omega) t hopen rfl
      exact ⟨k + 1, by omega, by rwa [hrun k]⟩
  · exact ⟨1, Nat.le_add_left 1 n, .inr (run_succ_of_fault (M := core) hstop 0)⟩

end Sys2Proof.Machine
